-- ==== Sys2Proof/Word.lean ====
section
/-! DEFINITION. The widths of the block's data: a byte, a 16-bit value and a 32-bit command word
(spec/20_memory.md R82, R83; spec/30_encoding.md R110). -/

namespace Sys2Proof

/-- A Byte: an unsigned 8-bit value (00_scope.md R13). Every datum the block stores or moves is one (R82). -/
abbrev Byte := BitVec 8

/-- A 16-bit value: the `baud` field and the `imm` field (R38, R110). -/
abbrev Half := BitVec 16

/-- A command or event word, handed to the block whole (R82, R110). -/
abbrev Word := BitVec 32

end Sys2Proof
end

