-- ==== Sys2Proof/Config.lean ====
section
/-! DEFINITION. The configuration record (spec/00_scope.md R6 to R12), when it is refused, the
configuration of the machine at reset, and the free values of an unscheduled run. -/

namespace Sys2Proof

/-- How the 16-bit baud value reaches the peripheral (R12). -/
inductive BaudRegisterForm where
  | single16
  | splitPair
  deriving DecidableEq, Repr

/-- What the peripheral does with a byte that arrives while `rxHold` is full (R306). -/
inductive RxOverrunPolicy where
  | dropNew
  | overwrite
  deriving DecidableEq, Repr

/-- R6: the one configuration record a model is instantiated with, fixed for its lifetime. -/
structure Config where
  channelCount     : Nat
  rxCapacity       : Nat
  txCapacity       : Nat
  flowControl      : Bool
  flowMark         : Nat
  xonByte          : Byte
  xoffByte         : Byte
  nullStringToken  : List Byte
  baudRegisterForm : BaudRegisterForm
  rxOverrunPolicy  : RxOverrunPolicy
  deriving DecidableEq, Repr

/-- R7, R9, R10, R11: the admitted values. A configuration outside them is refused (R6).
The bounds on `flowMark` and on the control pair are taken for both builds (log entry 7). -/
def Config.valid (cfg : Config) : Bool :=
  decide (1 ≤ cfg.channelCount) && decide (cfg.channelCount ≤ 255)
    && decide (2 ≤ cfg.rxCapacity) && decide (2 ≤ cfg.txCapacity)
    && (!cfg.flowControl || (decide (8 ≤ cfg.rxCapacity) && decide (8 ≤ cfg.txCapacity)))
    && decide (1 ≤ cfg.flowMark) && decide (cfg.flowMark ≤ cfg.rxCapacity - 1)
    && decide (cfg.xonByte ≠ cfg.xoffByte)

/-- R231: the high-water mark. -/
def Config.high (cfg : Config) : Nat := cfg.rxCapacity - cfg.flowMark

/-- R231: the low-water mark. -/
def Config.low (cfg : Config) : Nat := cfg.flowMark

/-- The configuration of the machine at reset. The control bytes and the overrun policy are the
spec's values (R11, D31); every other parameter is a DESIGN CHOICE (log entry 1). -/
def Config.atReset : Config where
  channelCount     := 2
  rxCapacity       := 16
  txCapacity       := 8
  flowControl      := true
  flowMark         := 5
  xonByte          := 0x11
  xoffByte         := 0x13
  nullStringToken  := []
  baudRegisterForm := .single16
  rxOverrunPolicy  := .dropNew

/-- Free value: which of the enabled turns an unscheduled step takes (R290, R295). It has no body, so
no proof knows it (log entry 4). -/
opaque Config.freeChoice : Nat → Nat

/-- Free value: the byte the remote peer sends in an unscheduled step (R304, R306; log entry 4). -/
opaque Config.freeByte : Nat → Byte

end Sys2Proof
end

