-- ==== Sys2Proof/Syntax.lean ====
section
/-! DEFINITION. The commands and events, one constructor for each row of spec/opcode_table.json
(spec/30_encoding.md R112, R113). -/

namespace Sys2Proof

/-- The commands of the foreground program and the events of the other agents. A channel `c` is an
integer index (R111); `b` is a data byte, `baud` and `v` are 16-bit immediates (R112). -/
inductive Instr where
  | chcount
  | init (c : Nat) (baud : Half)
  | close (c : Nat)
  | setflow (c : Nat) (on : Bool)
  | haschar (c : Nat)
  | read (c : Nat)
  | readb (c : Nat)
  | isrxfull (c : Nat)
  | isrxempty (c : Nat)
  | write (c : Nat) (b : Byte)
  | wru16 (c : Nat) (v : Half)
  | istxfull (c : Nat)
  | istxempty (c : Nat)
  | sei
  | cli
  | evRxc (c : Nat)
  | evUdre (c : Nat)
  | lineRx (c : Nat) (b : Byte)
  | lineTx (c : Nat)
  deriving DecidableEq, Repr

/-- The channel an instruction names; CHCOUNT, SEI and CLI name none (R111). -/
def Instr.channel? : Instr → Option Nat
  | .chcount => none
  | .init c _ => some c
  | .close c => some c
  | .setflow c _ => some c
  | .haschar c => some c
  | .read c => some c
  | .readb c => some c
  | .isrxfull c => some c
  | .isrxempty c => some c
  | .write c _ => some c
  | .wru16 c _ => some c
  | .istxfull c => some c
  | .istxempty c => some c
  | .sei => none
  | .cli => none
  | .evRxc c => some c
  | .evUdre c => some c
  | .lineRx c _ => some c
  | .lineTx c => some c

/-- R113: whether an instruction is an event (a step of another agent) rather than a command. -/
def Instr.isEvent : Instr → Bool
  | .evRxc _ => true
  | .evUdre _ => true
  | .lineRx _ _ => true
  | .lineTx _ => true
  | .chcount => false
  | .init _ _ => false
  | .close _ => false
  | .setflow _ _ => false
  | .haschar _ => false
  | .read _ => false
  | .readb _ => false
  | .isrxfull _ => false
  | .isrxempty _ => false
  | .write _ _ => false
  | .wru16 _ _ => false
  | .istxfull _ => false
  | .istxempty _ => false
  | .sei => false
  | .cli => false

end Sys2Proof
end

