-- ==== Sys2Proof/Machine/State.lean ====
section
/-! DEFINITION. The architectural state of the block (spec/10_state.md R30 to R47), the reasons a step
stops (spec/60_exceptions.md R310, R311) and the state at power-on (spec/70_reset_and_hazards.md R331). -/

namespace Sys2Proof.Machine

/-- A storage array: `Capacity` bytes indexed from 0 (R31, R32, R80). The block has no other storage
and no addressable memory. -/
abbrev Memory := List Byte

/-- One ring buffer: its storage array and its two cursors (R31, R32). Its capacity is the
configuration's. -/
structure Ring where
  buf   : Memory
  read  : Nat
  write : Nat
  deriving DecidableEq, Repr

/-- One channel aggregate `ch[c]` (R30). `rx.read` is the spec's `rxRead`, and so on. The three flow
fields are read and written only when `FlowControl` is true (R35; log entry 3). -/
structure Channel where
  /-- `rxBuf`, `rxRead`, `rxWrite` (R31). -/
  rx        : Ring
  /-- `txBuf`, `txRead`, `txWrite` (R32). -/
  tx        : Ring
  /-- R34: true is Idle, false is Draining. -/
  txIdle    : Bool
  /-- R35: the flow-control state, true is On. -/
  flowOn    : Bool
  /-- R35, R36: the pending-control-byte slot. -/
  pending   : Option Byte
  /-- R37: the count of bytes held in the receive buffer. -/
  rxCount   : Nat
  /-- R38: initialised and not closed. -/
  active    : Bool
  /-- R38: the baud-rate divisor. -/
  baud      : Half
  /-- R38: data bits a character. -/
  charSize  : Nat
  /-- R38: receiver enable. -/
  rxEn      : Bool
  /-- R38: transmitter enable. -/
  txEn      : Bool
  /-- R38: receive-complete interrupt enable. -/
  rxIE      : Bool
  /-- R38: transmit-data-register-empty interrupt enable. -/
  txIE      : Bool
  /-- R39: the transmit data register. -/
  txHold    : Option Byte
  /-- R39: the receive data register. -/
  rxHold    : Option Byte
  /-- R40: the bytes put on the wire, in order. -/
  txWire    : List Byte
  /-- R40: the bytes that arrived from the wire, in order, lost ones included. -/
  rxArrived : List Byte
  deriving DecidableEq, Repr

/-- R42: a value of the result log. -/
inductive Value where
  | byte (b : Byte)
  | bool (b : Bool)
  | nat (n : Nat)
  deriving DecidableEq, Repr

/-- R15, R42: an atomic guarded action `await G then B` of a foreground command. One constructor for
each action the commands' rules list; its guard and body are in Machine/Foreground.lean. -/
inductive Action where
  /-- CHCOUNT (R265). -/
  | chcount
  /-- R260: `await true then emit(false)`, for an invalid channel. -/
  | emitFalse
  /-- R260: `await true then emit(0x00)`, for an invalid channel. -/
  | emitZero
  /-- INIT (R262). -/
  | init (c : Nat) (baud : Half)
  /-- CLOSE (R264). -/
  | close (c : Nat)
  /-- SETFLOW, first action: wait for the slot and queue (R236). -/
  | flowQueue (c : Nat) (on : Bool)
  /-- SETFLOW, second action: the completion wait (R236). -/
  | flowServed (c : Nat)
  /-- HASCHAR (R202). -/
  | haschar (c : Nat)
  /-- READ (R204). -/
  | read (c : Nat)
  /-- READB (R205). -/
  | readb (c : Nat)
  /-- ISRXFULL (R206). -/
  | isrxfull (c : Nat)
  /-- ISRXEMPTY (R203). -/
  | isrxempty (c : Nat)
  /-- WRITE (R162). -/
  | write (c : Nat) (b : Byte)
  /-- WRU16, one digit (R163). -/
  | digit (c : Nat) (d : Byte)
  /-- ISTXFULL (R167). -/
  | istxfull (c : Nat)
  /-- ISTXEMPTY (R168). -/
  | istxempty (c : Nat)
  /-- SEI (R270). -/
  | sei
  /-- CLI (R271). -/
  | cli
  deriving DecidableEq, Repr

/-- The channel an action reads or writes, if any. -/
def Action.channel? : Action → Option Nat
  | .chcount => none
  | .emitFalse => none
  | .emitZero => none
  | .init c _ => some c
  | .close c => some c
  | .flowQueue c _ => some c
  | .flowServed c => some c
  | .haschar c => some c
  | .read c => some c
  | .readb c => some c
  | .isrxfull c => some c
  | .isrxempty c => some c
  | .write c _ => some c
  | .digit c _ => some c
  | .istxfull c => some c
  | .istxempty c => some c
  | .sei => none
  | .cli => none

/-- R314: an entry of a schedule, one foreground step or an event word. -/
inductive Entry where
  | fg
  | event (w : Word)
  deriving DecidableEq, Repr

/-- R290: one agent's turn, a step of the foreground or an event: a step of the interrupt service
(`evRxc`, `evUdre`) or of a line agent (`lineRx`, `lineTx`). -/
inductive Turn where
  | foreground
  | event (i : Instr)
  deriving DecidableEq, Repr

/-- The whole machine: the configuration (R6), the channels (R30), the global flag (R41), the
foreground (R42, R44, R300) and the interleaving (R290, R314). -/
structure State where
  /-- R6: fixed for the run (log entry 1). -/
  cfg      : Config
  /-- R30: `ch[0 .. ChannelCount - 1]`. -/
  ch       : List Channel
  /-- R41: the global interrupt-enable flag. -/
  gie      : Bool
  /-- R95, R300: the program, fixed for the run. -/
  prog     : List Word
  /-- R42, R44: the index of the current command. -/
  pc       : Nat
  /-- R42: the actions of the current command still to execute. -/
  actions  : List Action
  /-- R42: the result log. -/
  results  : List Value
  /-- R42, R310: the model has refused. -/
  refused  : Bool
  /-- R314: the entries still to take; none left: the interleaving is free (R290). -/
  schedule : List Entry
  /-- The model's own: where the free values of the next unscheduled step are read (log entry 4). -/
  draws    : Nat
  deriving DecidableEq, Repr

/-- The faults. The rules never reach one (R311). -/
inductive Fault where
  /-- R311: a handler was run outside its precondition. Raised by the two handlers only. Safe. -/
  | handlerOutsideRequest (c : Nat)
  deriving DecidableEq, Repr

/-- The refusals of R310, with the word or channel the spec's rule names, and two reasons that say that
no agent has a step. Each is safe: what is refused has no proved property. -/
inductive Refusal where
  /-- An instruction rejected by name: none in this model. Safe. -/
  | notModelled (mnemonic : String)
  /-- R115, R116: an opcode outside the map. Raised by the decoders. Safe. -/
  | illegalOpcode (w : Word)
  /-- R115: an event word in a program. Raised by the program decoder. Safe. -/
  | eventInProgram (w : Word)
  /-- R115: a command word in a schedule. Raised by the schedule decoder. Safe. -/
  | commandInSchedule (w : Word)
  /-- R115: an event on a channel the block does not have. Raised by the schedule decoder and the
  events. Safe. -/
  | noSuchChannel (w : Word)
  /-- R115, R117: a reserved bit is not zero. Raised by the decoders. Safe. -/
  | reservedFieldNonZero (w : Word)
  /-- R118: SETFLOW without the flow-control build. Raised by the program decoder. Safe. -/
  | featureAbsent (w : Word)
  /-- R314: a scheduled step that is not enabled. Raised by the events and by a scheduled `FG` after
  the program's end. Safe. -/
  | eventNotEnabled
  /-- R261: a command other than INIT on a channel that is not active. Raised by the prologue. Safe. -/
  | channelNotActive (c : Nat)
  /-- R262: INIT on an active channel. Raised by INIT's action. Safe. -/
  | reinitActive (c : Nat)
  /-- R6: the configuration is outside R7 to R12. Raised by the step. Safe. -/
  | configInvalid
  /-- R310: the model has refused before; no agent has a step. Raised by the step. Safe. -/
  | stopped
  /-- R290, R303: no schedule is left and no agent has an enabled step: the run has ended. Raised by
  the step. Safe. -/
  | runEnded
  deriving DecidableEq, Repr

/-- The outcome of a step of this machine. -/
abbrev Result := Host.Outcome State Fault Refusal

/-- A ring at power-on: slots and cursors are unspecified (R47); the model names 0x00 and 0
(DESIGN CHOICE, log entry 2). -/
def Ring.powerOn (capacity : Nat) : Ring where
  buf   := List.replicate capacity 0
  read  := 0
  write := 0

/-- R331: a channel at power-on. `txIdle`, the flow fields, `baud` and `charSize` are unspecified; the
model names false, none, 0 (DESIGN CHOICE, log entry 2). -/
def Channel.powerOn (cfg : Config) : Channel where
  rx        := Ring.powerOn cfg.rxCapacity
  tx        := Ring.powerOn cfg.txCapacity
  txIdle    := false
  flowOn    := false
  pending   := none
  rxCount   := 0
  active    := false
  baud      := 0
  charSize  := 0
  rxEn      := false
  txEn      := false
  rxIE      := false
  txIE      := false
  txHold    := none
  rxHold    := none
  txWire    := []
  rxArrived := []

/-- R331: the block of configuration `cfg` at power-on, with the program and the schedule that its
environment gives it. -/
def State.powerOn (cfg : Config) (prog : List Word) (schedule : List Entry) : State where
  cfg      := cfg
  ch       := List.replicate cfg.channelCount (Channel.powerOn cfg)
  gie      := false
  prog     := prog
  pc       := 0
  actions  := []
  results  := []
  refused  := false
  schedule := schedule
  draws    := 0

/-- The machine right after reset (R330, R331): power-on, no program loaded (log entry 10), no
schedule. -/
def State.reset : State := State.powerOn Config.atReset [] []

/-- R31 to R33, R331: a ring of the configured capacity with its cursors in range. -/
abbrev Ring.InRange (capacity : Nat) (r : Ring) : Prop :=
  r.buf.length = capacity ∧ r.read < capacity ∧ r.write < capacity

/-- R331: what power-on fixes of a channel; everything it does not mention is unspecified. -/
abbrev Channel.IsPowerOn (cfg : Config) (x : Channel) : Prop :=
  x.active = false ∧ x.rxEn = false ∧ x.txEn = false ∧ x.rxIE = false ∧ x.txIE = false
    ∧ x.txHold = none ∧ x.rxHold = none ∧ x.txWire = [] ∧ x.rxArrived = []
    ∧ x.rx.InRange cfg.rxCapacity ∧ x.tx.InRange cfg.txCapacity

/-- R331: the power-on states: every draw of the unspecified values, every program, every schedule. -/
abbrev State.IsPowerOn (s : State) : Prop :=
  s.ch.length = s.cfg.channelCount ∧ (∀ x ∈ s.ch, x.IsPowerOn s.cfg)
    ∧ s.gie = false ∧ s.pc = 0 ∧ s.actions = [] ∧ s.results = [] ∧ s.refused = false

end Sys2Proof.Machine
end

