-- ==== Sys2Proof/WellFormed.lean ====
section
/-! DEFINITION. When an instruction can be encoded: its channel fits the 8-bit field `ch`
(spec/30_encoding.md R110, R111). Every other operand is a bit vector of its field's width. -/

namespace Sys2Proof

/-- A channel operand fits the field `ch`: an unsigned integer 0 to 255 (R111). Whether it names a
channel of the block is checked when the command executes (R260), not here. -/
def channelFits : Option Nat → Bool
  | none => true
  | some c => decide (c < 256)

/-- R111: an instruction whose operands fit their fields. -/
def Instr.wf (i : Instr) : Bool := channelFits i.channel?

end Sys2Proof
end

