-- ==== Sys2Proof/Decode.lean ====
section
/-! DEFINITION. The command encoding (spec/30_encoding.md): the opcode map as data, the decoders of a
program word and of a schedule word with their checks in the spec's order (R115), the encoder, and the
pseudo-instruction WRSTR (R121). -/

namespace Sys2Proof

open Sys2Proof.Machine (Refusal)

/-- R110: W[31:24]. -/
def opField (w : Word) : BitVec 8 := w.extractLsb' 24 8

/-- R110, R111: W[23:16], zero-extended. -/
def chField (w : Word) : Nat := (w.extractLsb' 16 8).toNat

/-- R110: W[15:0]. -/
def immField (w : Word) : Half := w.extractLsb' 0 16

/-- R112: `zext_8(imm[7:0])`. -/
def immByte (imm : Half) : Byte := imm.extractLsb' 0 8

/-- R112: `imm[0]`. -/
def immFlag (imm : Half) : Bool := imm.getLsbD 0

/-- One row of the opcode map (R113) with its bit pattern (R114). `pat` is the spec's `match`; `build`
assembles the operands (R112). -/
structure OpRow where
  op       : BitVec 8
  mnemonic : String
  pat      : Word
  mask     : Word
  event    : Bool
  build    : Nat → Half → Instr

/-- R113, R114: the opcode map. -/
def opTable : List OpRow :=
  [ ⟨0x01, "CHCOUNT",   0x01000000, 0xFFFFFFFF, false, fun _ _ => .chcount⟩,
    ⟨0x02, "INIT",      0x02000000, 0xFF000000, false, fun c imm => .init c imm⟩,
    ⟨0x03, "CLOSE",     0x03000000, 0xFF00FFFF, false, fun c _ => .close c⟩,
    ⟨0x04, "SETFLOW",   0x04000000, 0xFF00FFFE, false, fun c imm => .setflow c (immFlag imm)⟩,
    ⟨0x05, "HASCHAR",   0x05000000, 0xFF00FFFF, false, fun c _ => .haschar c⟩,
    ⟨0x06, "READ",      0x06000000, 0xFF00FFFF, false, fun c _ => .read c⟩,
    ⟨0x07, "READB",     0x07000000, 0xFF00FFFF, false, fun c _ => .readb c⟩,
    ⟨0x08, "ISRXFULL",  0x08000000, 0xFF00FFFF, false, fun c _ => .isrxfull c⟩,
    ⟨0x09, "ISRXEMPTY", 0x09000000, 0xFF00FFFF, false, fun c _ => .isrxempty c⟩,
    ⟨0x0A, "WRITE",     0x0A000000, 0xFF00FF00, false, fun c imm => .write c (immByte imm)⟩ ]
  ++
  [ ⟨0x0B, "WRU16",     0x0B000000, 0xFF000000, false, fun c imm => .wru16 c imm⟩,
    ⟨0x0C, "ISTXFULL",  0x0C000000, 0xFF00FFFF, false, fun c _ => .istxfull c⟩,
    ⟨0x0D, "ISTXEMPTY", 0x0D000000, 0xFF00FFFF, false, fun c _ => .istxempty c⟩,
    ⟨0x0E, "SEI",       0x0E000000, 0xFFFFFFFF, false, fun _ _ => .sei⟩,
    ⟨0x0F, "CLI",       0x0F000000, 0xFFFFFFFF, false, fun _ _ => .cli⟩,
    ⟨0x80, "EV_RXC",    0x80000000, 0xFF00FFFF, true, fun c _ => .evRxc c⟩,
    ⟨0x81, "EV_UDRE",   0x81000000, 0xFF00FFFF, true, fun c _ => .evUdre c⟩,
    ⟨0x82, "LINE_RX",   0x82000000, 0xFF00FF00, true, fun c imm => .lineRx c (immByte imm)⟩,
    ⟨0x83, "LINE_TX",   0x83000000, 0xFF00FFFF, true, fun c _ => .lineTx c⟩ ]

/-- R113, R116: the row of an opcode; none for an illegal opcode. -/
def opRow? (op : BitVec 8) : Option OpRow := opTable.find? (fun r => r.op == op)

/-- R115: the last check, the reserved bits, and the operands. -/
def OpRow.operands (r : OpRow) (w : Word) : Except Refusal Instr :=
  if w &&& r.mask = r.pat then .ok (r.build (chField w) (immField w))
  else .error (.reservedFieldNonZero w)

/-- The instruction a word spells, whoever issues it: the opcode and reserved-bit checks alone. -/
def decode (w : Word) : Except Refusal Instr :=
  match opRow? (opField w) with
  | none => .error (.illegalOpcode w)
  | some r => r.operands w

/-- R115: `DecodeProgramWord(W)`; the first check that fails decides. -/
def decodeProgramWord (cfg : Config) (w : Word) : Except Refusal Instr :=
  match opRow? (opField w) with
  | none => .error (.illegalOpcode w)
  | some r =>
    if r.event then .error (.eventInProgram w)
    else if r.op = 0x04 ∧ cfg.flowControl = false then .error (.featureAbsent w)
    else r.operands w

/-- R115: a schedule word; a command is refused, and an event names an existing channel. The check of
the channel comes after that of the reserved bits (log entry 6). -/
def decodeScheduleWord (cfg : Config) (w : Word) : Except Refusal Instr :=
  match opRow? (opField w) with
  | none => .error (.illegalOpcode w)
  | some r =>
    if r.event then
      match r.operands w with
      | .error e => .error e
      | .ok i => if chField w < cfg.channelCount then .ok i else .error (.noSuchChannel w)
    else .error (.commandInSchedule w)

/-- R110: a command word from its three fields. -/
def fields (op : BitVec 8) (c : Nat) (imm : Half) : Word := op ++ BitVec.ofNat 8 c ++ imm

/-- R112: a byte operand in the low half of `imm`. -/
def byteImm (b : Byte) : Half := (0 : BitVec 8) ++ b

/-- R112: a flag operand in bit 0 of `imm`. -/
def flagImm (on : Bool) : Half := if on then 1 else 0

/-- R112 to R114: the word of an instruction. -/
def encode : Instr → Word
  | .chcount => fields 0x01 0 0
  | .init c baud => fields 0x02 c baud
  | .close c => fields 0x03 c 0
  | .setflow c on => fields 0x04 c (flagImm on)
  | .haschar c => fields 0x05 c 0
  | .read c => fields 0x06 c 0
  | .readb c => fields 0x07 c 0
  | .isrxfull c => fields 0x08 c 0
  | .isrxempty c => fields 0x09 c 0
  | .write c b => fields 0x0A c (byteImm b)
  | .wru16 c v => fields 0x0B c v
  | .istxfull c => fields 0x0C c 0
  | .istxempty c => fields 0x0D c 0
  | .sei => fields 0x0E 0 0
  | .cli => fields 0x0F 0 0
  | .evRxc c => fields 0x80 c 0
  | .evUdre c => fields 0x81 c 0
  | .lineRx c b => fields 0x82 c (byteImm b)
  | .lineTx c => fields 0x83 c 0

/-- The instruction the decoder reads from a table word: `nbits` bits, the bits above them zero. A word
is handed to the block whole, so there is no byte order (R82). -/
def decodeTableWord (nbits w : Nat) : Option Instr :=
  match decode (BitVec.ofNat 32 (w % 2 ^ nbits)) with
  | .ok i => some i
  | .error _ => none

/-- R165: the bytes `writeString` sends: the text, or the configured token for a null argument. A text
that holds 0x00 is not admitted. -/
def stringBytes (cfg : Config) (text : Option (List Byte)) : Option (List Byte) :=
  match text with
  | none => some cfg.nullStringToken
  | some bs => if bs.contains 0 then none else some bs

/-- R121: the expansion of `WRSTR c, text`: one WRITE a byte, in order. -/
def wrstr (cfg : Config) (c : Nat) (text : Option (List Byte)) : Option (List Instr) :=
  (stringBytes cfg text).map (fun bs => bs.map (Instr.write c))

end Sys2Proof
end

