-- ==== Sys2Proof/Machine/Flags.lean ====
section
/-! DEFINITION. The status bits and predicates: cursor advance and the ring predicates
(spec/40_ringbuffer.md R141, R142), the derived status bits DRE and RXC (spec/10_state.md R39) and the
interrupt requests (spec/60_exceptions.md R291). -/

namespace Sys2Proof.Machine

/-- R142: cursor advance, wrapping to 0 at `C - 1`, never via modulo. -/
def advance (i C : Nat) : Nat := if i = C - 1 then 0 else i + 1

/-- R141: a ring is empty iff its cursors are equal. -/
def Ring.isEmpty (r : Ring) : Bool := r.read == r.write

/-- R141: a ring is full when advancing `write` by one would equal `read`. -/
def Ring.isFull (C : Nat) (r : Ring) : Bool := advance r.write C == r.read

/-- R142: the number of bytes held. -/
def Ring.occupancy (C : Nat) (r : Ring) : Nat := (r.write + C - r.read) % C

/-- R39: the transmit-data-register-empty status. -/
def Channel.dre (x : Channel) : Bool := x.txHold.isNone

/-- R39: the hardware "byte ready" condition. -/
def Channel.rxc (x : Channel) : Bool := x.rxHold.isSome

/-- R291: the receive-complete request. -/
def Channel.rxReq (x : Channel) : Bool := x.active && x.rxIE && x.rxc

/-- R291: the transmit-data-register-empty request, level-sensitive. -/
def Channel.txReq (x : Channel) : Bool := x.active && x.txIE && x.dre

/-- R305: when the transmit line has a step. -/
def Channel.lineTxReady (x : Channel) : Bool := x.active && x.txEn && x.txHold.isSome

/-- R306: when the receive line has a step. -/
def Channel.lineRxReady (x : Channel) : Bool := x.active && x.rxEn

/-- R233: the flow-off test of the receive handler, on the level. -/
def Channel.wantsOff (cfg : Config) (x : Channel) : Bool :=
  x.flowOn && decide (cfg.high ≤ x.rxCount)

/-- R235: the flow-on test of READ and READB, on the level. -/
def Channel.wantsOn (cfg : Config) (x : Channel) : Bool :=
  !x.flowOn && decide (x.rxCount ≤ cfg.low)

end Sys2Proof.Machine
end

