-- ==== Sys2Proof/Machine/Operands.lean ====
section
/-! DEFINITION. The operand forms that are not a plain field: the decimal digits WRU16 sends
(spec/41_transmit.md R164) and the form in which INIT's 16-bit operand reaches the peripheral
(spec/20_memory.md R83). -/

namespace Sys2Proof.Machine

/-- R164: the digit byte of `d` (0 to 9). The ASCII code is the spec's own general knowledge (K2). -/
def digitByte (d : Nat) : Byte := 0x30 + BitVec.ofNat 8 d

/-- R164: the loop `while v > 0`, for at most `fuel` rounds. -/
def decLoop : Nat → Nat → List Byte → List Byte
  | 0, _, ds => ds
  | fuel + 1, v, ds => if v = 0 then ds else decLoop fuel (v / 10) (digitByte (v % 10) :: ds)

/-- R164: `Dec(v)`, the decimal digits of a 16-bit value, most significant first. A 16-bit value is
below 10^5, so five rounds end the loop. -/
def dec (v : Half) : List Byte := if v.toNat = 0 then [0x30] else decLoop 5 v.toNat []

/-- R83: what the peripheral's baud registers receive. -/
inductive BaudPort where
  | single (v : Half)
  | split (high low : Byte)
  deriving DecidableEq, Repr

/-- R83: the 16-bit value in the configured register form; the order in which the two halves are
written is not modelled (N11). -/
def baudPort (form : BaudRegisterForm) (baud : Half) : BaudPort :=
  match form with
  | .single16 => .single baud
  | .splitPair => .split (baud.extractLsb' 8 8) (baud.extractLsb' 0 8)

end Sys2Proof.Machine
end

