-- ==== Sys2Proof/Machine/Ops.lean ====
section
/-! DEFINITION. The named operations over storage, rings, channels and the foreground's registers, and
the one operation by which the interrupt service enters and leaves a handler
(spec/40_ringbuffer.md, spec/60_exceptions.md R292 to R298). -/

namespace Sys2Proof.Machine

/-- The canonical form of a storage array: exactly its capacity of slots (R31, R32). -/
def Memory.wf (capacity : Nat) (m : Memory) : Bool := m.length == capacity

/-- R14: read one slot. An index outside the array reads 0; no cursor in range makes one (log entry 8). -/
def Memory.get (m : Memory) (i : Nat) : Byte := m.getD i 0

/-- R14: write one slot. A write outside the array changes nothing; no cursor in range makes one
(log entry 8). -/
def Memory.put (m : Memory) (i : Nat) (b : Byte) : Memory := List.set m i b

/-- R143: `RingPush(r, b)`: whether the byte was stored, and the ring after. -/
def Ring.push (C : Nat) (r : Ring) (b : Byte) : Bool × Ring :=
  if r.isFull C then (false, r)
  else (true, { r with buf := Memory.put r.buf r.write b, write := advance r.write C })

/-- R144: `RingPop(r)`: the byte and the ring after, or nothing when the ring is empty. -/
def Ring.pop (C : Nat) (r : Ring) : Option (Byte × Ring) :=
  if r.isEmpty then none
  else some (Memory.get r.buf r.read,
    { r with buf := Memory.put r.buf r.read 0, read := advance r.read C })

/-- R166: the kick, out of Idle into Draining. -/
def Channel.kick (x : Channel) : Channel :=
  if x.txIdle then { x with txIdle := false, txIE := true } else x

/-- R232: the transition On to Off: queue XOFF, replacing any byte still pending (R237). -/
def Channel.goOff (cfg : Config) (x : Channel) : Channel :=
  { x with pending := some cfg.xoffByte, flowOn := false }.kick

/-- R234: the transition Off to On: queue XON, replacing any byte still pending (R237). -/
def Channel.goOn (cfg : Config) (x : Channel) : Channel :=
  { x with pending := some cfg.xonByte, flowOn := true }.kick

/-- `ch[c]`. For an index outside the array it is a channel at power-on, inactive; every rule tests
`c < ChannelCount` first (log entry 8). -/
def State.chan (s : State) (c : Nat) : Channel := s.ch.getD c (Channel.powerOn s.cfg)

/-- `ch[c] <- x`. -/
def State.setChan (s : State) (c : Nat) (x : Channel) : State := { s with ch := s.ch.set c x }

/-- Apply a channel's update to `ch[c]`. -/
def State.onChan (s : State) (c : Nat) (f : Channel → Channel) : State :=
  s.setChan c (f (s.chan c))

/-- R14, R42: `emit(v)`. -/
def State.emit (s : State) (v : Value) : State := { s with results := s.results ++ [v] }

/-- R300: `actions <- rest`, and the program counter advances by one when none is left (R44). -/
def State.proceed (s : State) (rest : List Action) : State :=
  { s with actions := rest, pc := if rest.isEmpty then s.pc + 1 else s.pc }

/-- R300: whether the foreground has finished: no action left and no command at `pc`. -/
def State.finished (s : State) : Bool := s.actions.isEmpty && (s.prog[s.pc]?).isNone

/-- R314: run an event of channel `c`: a channel the block does not have and a step that is not enabled
are refused. `w` is the event's word, named by the refusal (R115). -/
def State.event (s : State) (w : Word) (c : Nat) (enabled : Bool) (run : State → Result) : Result :=
  if c < s.cfg.channelCount then
    if enabled then run s else .refused .eventNotEnabled
  else .refused (.noSuchChannel w)

/-- R292, R297, R298: the interrupt service runs one handler of channel `c` as one atomic step, when
`gie` and the request hold. Entry saves nothing and changes no mask; return restores nothing, and the
foreground continues with the action it had not yet taken. -/
def State.serviceInterrupt (s : State) (w : Word) (c : Nat) (request : Bool)
    (handler : State → Result) : Result :=
  s.event w c (s.gie && request) handler

end Sys2Proof.Machine
end

