-- ==== Sys2Proof/Machine/Engines.lean ====
section
/-! DEFINITION. The steps of one channel: the two interrupt handlers (spec/41_transmit.md R170,
spec/42_receive.md R200), the two line steps (spec/60_exceptions.md R305, R306), and the bodies of
the commands' atomic actions with the guards they await (spec/41 to 44). -/

namespace Sys2Proof.Machine

-- The transmit engine

/-- R162, R163: `RingPush(tx, b); Kick(c)`. -/
def Channel.send (cfg : Config) (b : Byte) (x : Channel) : Channel :=
  { x with tx := (x.tx.push cfg.txCapacity b).2 }.kick

/-- R170: the control byte the transmit handler sends first; without flow control there is none (R8). -/
def Channel.control (cfg : Config) (x : Channel) : Option Byte :=
  if cfg.flowControl then x.pending else none

/-- R170: the body of `TxHandler(c)`: the pending control byte first, else a data byte, else Idle. -/
def Channel.serveTx (cfg : Config) (x : Channel) : Channel :=
  match x.control cfg with
  | some k => { x with txHold := some k, pending := none }
  | none =>
    match x.tx.pop cfg.txCapacity with
    | some (b, tx) => { x with txHold := some b, tx := tx }
    | none => { x with txIE := false, txIdle := true }

/-- R170, R311: `TxHandler(c)` with its precondition. -/
def txHandler (c : Nat) (s : State) : Result :=
  if (s.chan c).txIE && (s.chan c).dre then .next (s.onChan c (Channel.serveTx s.cfg))
  else .fault (.handlerOutsideRequest c)

/-- R305: `LineTx(c)`: the byte goes onto the wire and the data register empties. -/
def Channel.lineTx (x : Channel) : Channel :=
  { x with txWire := x.txWire ++ x.txHold.toList, txHold := none }

-- The receive engine

/-- R200: the body of `RxHandler(c)`, with `b` the byte of `rxHold`: empty the register, try the push
(drop the byte when full, R201), count a stored byte, and test the high-water mark on every
invocation (R233). -/
def Channel.serveRx (cfg : Config) (b : Byte) (x : Channel) : Channel :=
  let p := x.rx.push cfg.rxCapacity b
  let y := { x with rxHold := none, rx := p.2 }
  if cfg.flowControl then
    let z := if p.1 then { y with rxCount := y.rxCount + 1 } else y
    if z.wantsOff cfg then z.goOff cfg else z
  else y

/-- R200, R311: `RxHandler(c)` with its precondition. -/
def rxHandler (c : Nat) (s : State) : Result :=
  match (s.chan c).rxHold with
  | some b =>
    if (s.chan c).rxIE then .next (s.onChan c (Channel.serveRx s.cfg b))
    else .fault (.handlerOutsideRequest c)
  | none => .fault (.handlerOutsideRequest c)

/-- R306: `LineRx(c, b)`: the byte is recorded; the register takes it when empty, else the overrun
policy decides which of the two bytes is lost. -/
def Channel.lineRx (cfg : Config) (b : Byte) (x : Channel) : Channel :=
  let y := { x with rxArrived := x.rxArrived ++ [b] }
  match x.rxHold with
  | none => { y with rxHold := some b }
  | some _ =>
    match cfg.rxOverrunPolicy with
    | .overwrite => { y with rxHold := some b }
    | .dropNew => y

/-- R204: what a successful pop does besides emitting: the ring after the pop, the count down by one
(never below 0: at least one byte was held) and the flow-on test (R235). -/
def Channel.took (cfg : Config) (rx : Ring) (x : Channel) : Channel :=
  let y := { x with rx := rx }
  if cfg.flowControl then
    let z := { y with rxCount := y.rxCount - 1 }
    if z.wantsOn cfg then z.goOn cfg else z
  else y

-- The lifecycle

/-- R262: what INIT writes: every field but the slots, `txWire` and `rxArrived`. -/
def Channel.opened (cfg : Config) (baud : Half) (x : Channel) : Channel :=
  let y := { x with
    rx := { x.rx with read := 0, write := 0 }
    tx := { x.tx with read := 0, write := 0 }
    txIdle := true
    baud := baud, charSize := 8
    txHold := none, rxHold := none
    txIE := false
    rxEn := true, txEn := true, rxIE := true
    active := true }
  if cfg.flowControl then { y with flowOn := true, pending := none, rxCount := 0 } else y

/-- R264: what CLOSE writes, in one step with its wait. -/
def Channel.closed (cfg : Config) (x : Channel) : Channel :=
  let y := { x with
    rxIE := false, txIE := false
    rxEn := false, txEn := false
    rxHold := none, txHold := none
    rx := { x.rx with read := 0, write := 0 }
    tx := { x.tx with read := 0, write := 0 }
    txIdle := true
    active := false }
  if cfg.flowControl then { y with flowOn := true, pending := none, rxCount := 0 } else y

-- The guards of the commands' actions (R301: exactly these can be false)

/-- R162: the transmit buffer is not full. -/
def writeGuard (c : Nat) (s : State) : Bool := !(s.chan c).tx.isFull s.cfg.txCapacity

/-- R163: the transmit buffer is not full. -/
def digitGuard (c : Nat) (s : State) : Bool := !(s.chan c).tx.isFull s.cfg.txCapacity

/-- R205: the receive buffer is not empty. -/
def readbGuard (c : Nat) (s : State) : Bool := !(s.chan c).rx.isEmpty

/-- R236: the pending slot is empty, before queuing. -/
def flowQueueGuard (c : Nat) (s : State) : Bool := (s.chan c).pending.isNone

/-- R236: the pending slot is empty, the completion wait. -/
def flowServedGuard (c : Nat) (s : State) : Bool := (s.chan c).pending.isNone

/-- R264: the transmit engine is Idle. -/
def closeGuard (c : Nat) (s : State) : Bool := (s.chan c).txIdle

-- The bodies of the commands' actions

/-- R265: `emit(ChannelCount)`. -/
def chcountBody (s : State) : State := s.emit (.nat s.cfg.channelCount)

/-- R260: `emit(false)`. -/
def emitFalseBody (s : State) : State := s.emit (.bool false)

/-- R260: `emit(0x00)`. -/
def emitZeroBody (s : State) : State := s.emit (.byte 0)

/-- R262: INIT's body. On an active channel it refuses. -/
def initBody (c : Nat) (baud : Half) (s : State) : Except Refusal State :=
  if (s.chan c).active then .error (.reinitActive c)
  else .ok (s.onChan c (Channel.opened s.cfg baud))

/-- R264: CLOSE's critical section. `gie` is unchanged (R90). -/
def closeBody (c : Nat) (s : State) : State := s.onChan c (Channel.closed s.cfg)

/-- R236: SETFLOW queues its control byte, whatever the current state (D19). -/
def flowQueueBody (c : Nat) (on : Bool) (s : State) : State :=
  s.onChan c (if on then Channel.goOn s.cfg else Channel.goOff s.cfg)

/-- R236: the completion wait's empty body. -/
def flowServedBody (s : State) : State := s

/-- R202: `emit(not IsEmpty(rx))`. -/
def hascharBody (c : Nat) (s : State) : State := s.emit (.bool (!(s.chan c).rx.isEmpty))

/-- R203: `emit(IsEmpty(rx))`. -/
def isrxemptyBody (c : Nat) (s : State) : State := s.emit (.bool (s.chan c).rx.isEmpty)

/-- R206: `emit(IsFull(rx))`. -/
def isrxfullBody (c : Nat) (s : State) : State :=
  s.emit (.bool ((s.chan c).rx.isFull s.cfg.rxCapacity))

/-- R167: `emit(IsFull(tx))`. -/
def istxfullBody (c : Nat) (s : State) : State :=
  s.emit (.bool ((s.chan c).tx.isFull s.cfg.txCapacity))

/-- R168: `emit(IsEmpty(tx))`. -/
def istxemptyBody (c : Nat) (s : State) : State := s.emit (.bool (s.chan c).tx.isEmpty)

/-- R204: `ReadBody(c)`. -/
def takeByte (c : Nat) (s : State) : State :=
  match (s.chan c).rx.pop s.cfg.rxCapacity with
  | none => s.emit (.byte 0)
  | some (b, rx) => (s.onChan c (Channel.took s.cfg rx)).emit (.byte b)

/-- R204: READ's body. -/
def readBody (c : Nat) (s : State) : State := takeByte c s

/-- R205: READB's body. -/
def readbBody (c : Nat) (s : State) : State := takeByte c s

/-- R162: WRITE's body. -/
def writeBody (c : Nat) (b : Byte) (s : State) : State := s.onChan c (Channel.send s.cfg b)

/-- R163: one digit of WRU16. -/
def digitBody (c : Nat) (d : Byte) (s : State) : State := s.onChan c (Channel.send s.cfg d)

/-- R270: `gie <- true`. -/
def seiBody (s : State) : State := { s with gie := true }

/-- R271: `gie <- false`. -/
def cliBody (s : State) : State := { s with gie := false }

end Sys2Proof.Machine
end

