-- ==== Sys2Proof/Machine/Foreground.lean ====
section
/-! DEFINITION. How the foreground runs a command: the guard and body of every atomic action, one action
step or spin, the channel prologue and the fetch of a command's action list
(spec/60_exceptions.md R300, R301; spec/44_channel_mux.md R260, R261). -/

namespace Sys2Proof.Machine

/-- R15, R301: the guard of an action. -/
def Action.guard (a : Action) (s : State) : Bool :=
  match a with
  | .chcount => true
  | .emitFalse => true
  | .emitZero => true
  | .init _ _ => true
  | .close c => closeGuard c s
  | .flowQueue c _ => flowQueueGuard c s
  | .flowServed c => flowServedGuard c s
  | .haschar _ => true
  | .read _ => true
  | .readb c => readbGuard c s
  | .isrxfull _ => true
  | .isrxempty _ => true
  | .write c _ => writeGuard c s
  | .digit c _ => digitGuard c s
  | .istxfull _ => true
  | .istxempty _ => true
  | .sei => true
  | .cli => true

/-- R15: the body of an action. Only INIT's can refuse (R262). -/
def Action.body (a : Action) (s : State) : Except Refusal State :=
  match a with
  | .chcount => .ok (chcountBody s)
  | .emitFalse => .ok (emitFalseBody s)
  | .emitZero => .ok (emitZeroBody s)
  | .init c baud => initBody c baud s
  | .close c => .ok (closeBody c s)
  | .flowQueue c on => .ok (flowQueueBody c on s)
  | .flowServed _ => .ok (flowServedBody s)
  | .haschar c => .ok (hascharBody c s)
  | .read c => .ok (readBody c s)
  | .readb c => .ok (readbBody c s)
  | .isrxfull c => .ok (isrxfullBody c s)
  | .isrxempty c => .ok (isrxemptyBody c s)
  | .write c b => .ok (writeBody c b s)
  | .digit c d => .ok (digitBody c d s)
  | .istxfull c => .ok (istxfullBody c s)
  | .istxempty c => .ok (istxemptyBody c s)
  | .sei => .ok (seiBody s)
  | .cli => .ok (cliBody s)

/-- R300: the foreground's step while `a :: rest` is left: execute `a`, or spin, which changes nothing. -/
def State.perform (s : State) (a : Action) (rest : List Action) : Result :=
  if a.guard s then
    match a.body s with
    | .ok t => .next (t.proceed rest)
    | .error r => .refused r
  else .next s

/-- R260, R261: the channel prologue: the neutral list for a channel the block does not have, a
refusal for an inactive channel, else the command's own action list. -/
def State.prologue (s : State) (c : Nat) (neutral own : List Action) : Except Refusal (List Action) :=
  if c < s.cfg.channelCount then
    if (s.chan c).active then .ok own else .error (.channelNotActive c)
  else .ok neutral

/-- R260, R261: INIT's prologue, which does not ask for an active channel. -/
def State.initPrologue (s : State) (c : Nat) (own : List Action) : Except Refusal (List Action) :=
  if c < s.cfg.channelCount then .ok own else .ok []

/-- R300: one foreground step of the current command, `plan` its action list as the fetch finds it:
between commands the fetch, else the head action. -/
def State.command (s : State) (plan : Except Refusal (List Action)) : Result :=
  match s.actions with
  | a :: rest => s.perform a rest
  | [] =>
    match plan with
    | .ok own => .next (s.proceed own)
    | .error r => .refused r

end Sys2Proof.Machine
end

