-- ==== Sys2Proof/Machine/Flow.lean ====
section
/-! DEFINITION. The meaning of SETFLOW, the manual override of the flow-control state machine
(spec/43_flow_control.md R236). -/

namespace Sys2Proof.Machine

/-- R236: SETFLOW's action list: queue the control byte, then wait until it was served. -/
def setflowActions (c : Nat) (on : Bool) : List Action := [.flowQueue c on, .flowServed c]

/-- R236: SETFLOW. In a build without flow control it spells no operation (R118). -/
def execSetflow (c : Nat) (on : Bool) (s : State) : Result :=
  if s.cfg.flowControl then s.command (s.prologue c [] (setflowActions c on))
  else .refused (.featureAbsent (encode (.setflow c on)))

end Sys2Proof.Machine
end

