-- ==== Sys2Proof/Machine/Mux.lean ====
section
/-! DEFINITION. The meanings of the lifecycle and platform family: CHCOUNT, INIT, CLOSE, SEI and CLI
(spec/44_channel_mux.md). -/

namespace Sys2Proof.Machine

/-- R265: CHCOUNT's action list. -/
def chcountActions : List Action := [.chcount]

/-- R265: CHCOUNT. It needs no active channel. -/
def execChcount (s : State) : Result := s.command (.ok chcountActions)

/-- R262: INIT's action list. -/
def initActions (c : Nat) (baud : Half) : List Action := [.init c baud]

/-- R262: INIT. -/
def execInit (c : Nat) (baud : Half) (s : State) : Result :=
  s.command (s.initPrologue c (initActions c baud))

/-- R264: CLOSE's action list. -/
def closeActions (c : Nat) : List Action := [.close c]

/-- R264: CLOSE. -/
def execClose (c : Nat) (s : State) : Result :=
  s.command (s.prologue c [] (closeActions c))

/-- R270: SEI's action list. -/
def seiActions : List Action := [.sei]

/-- R270: SEI. -/
def execSei (s : State) : Result := s.command (.ok seiActions)

/-- R271: CLI's action list. -/
def cliActions : List Action := [.cli]

/-- R271: CLI. -/
def execCli (s : State) : Result := s.command (.ok cliActions)

end Sys2Proof.Machine
end

