-- ==== Sys2Proof/Machine/Receive.lean ====
section
/-! DEFINITION. The meanings of the receive family: HASCHAR, ISRXEMPTY, READ, READB, ISRXFULL and the
events EV_RXC and LINE_RX (spec/42_receive.md, spec/60_exceptions.md R306). -/

namespace Sys2Proof.Machine

/-- R202: HASCHAR's action list. -/
def hascharActions (c : Nat) : List Action := [.haschar c]

/-- R202: HASCHAR. -/
def execHaschar (c : Nat) (s : State) : Result :=
  s.command (s.prologue c [.emitFalse] (hascharActions c))

/-- R203: ISRXEMPTY's action list. -/
def isrxemptyActions (c : Nat) : List Action := [.isrxempty c]

/-- R203: ISRXEMPTY. -/
def execIsrxempty (c : Nat) (s : State) : Result :=
  s.command (s.prologue c [.emitFalse] (isrxemptyActions c))

/-- R204: READ's action list. -/
def readActions (c : Nat) : List Action := [.read c]

/-- R204: READ. -/
def execRead (c : Nat) (s : State) : Result :=
  s.command (s.prologue c [.emitZero] (readActions c))

/-- R205: READB's action list. -/
def readbActions (c : Nat) : List Action := [.readb c]

/-- R205: READB. On an invalid channel it does not wait (C2). -/
def execReadb (c : Nat) (s : State) : Result :=
  s.command (s.prologue c [.emitZero] (readbActions c))

/-- R206: ISRXFULL's action list. -/
def isrxfullActions (c : Nat) : List Action := [.isrxfull c]

/-- R206: ISRXFULL. -/
def execIsrxfull (c : Nat) (s : State) : Result :=
  s.command (s.prologue c [.emitFalse] (isrxfullActions c))

/-- R200, R292, R314: EV_RXC, the interrupt service runs the receive handler. -/
def execEvRxc (c : Nat) (s : State) : Result :=
  s.serviceInterrupt (encode (.evRxc c)) c (s.chan c).rxReq (rxHandler c)

/-- R306, R314: LINE_RX, the byte `b` arrives from the wire. -/
def execLineRx (c : Nat) (b : Byte) (s : State) : Result :=
  s.event (encode (.lineRx c b)) c (s.chan c).lineRxReady
    (fun u => .next (u.onChan c (Channel.lineRx u.cfg b)))

end Sys2Proof.Machine
end

