-- ==== Sys2Proof/Machine/Transmit.lean ====
section
/-! DEFINITION. The meanings of the transmit family: WRITE, WRU16, ISTXFULL, ISTXEMPTY and the events
EV_UDRE and LINE_TX (spec/41_transmit.md, spec/60_exceptions.md R305). -/

namespace Sys2Proof.Machine

/-- R162: WRITE's action list. -/
def writeActions (c : Nat) (b : Byte) : List Action := [.write c b]

/-- R162: WRITE. -/
def execWrite (c : Nat) (b : Byte) (s : State) : Result :=
  s.command (s.prologue c [] (writeActions c b))

/-- R163: WRU16's action list, one action for each digit. -/
def wru16Actions (c : Nat) (v : Half) : List Action := (dec v).map (Action.digit c)

/-- R163: WRU16. -/
def execWru16 (c : Nat) (v : Half) (s : State) : Result :=
  s.command (s.prologue c [] (wru16Actions c v))

/-- R167: ISTXFULL's action list. -/
def istxfullActions (c : Nat) : List Action := [.istxfull c]

/-- R167: ISTXFULL. -/
def execIstxfull (c : Nat) (s : State) : Result :=
  s.command (s.prologue c [.emitFalse] (istxfullActions c))

/-- R168: ISTXEMPTY's action list. -/
def istxemptyActions (c : Nat) : List Action := [.istxempty c]

/-- R168: ISTXEMPTY. -/
def execIstxempty (c : Nat) (s : State) : Result :=
  s.command (s.prologue c [.emitFalse] (istxemptyActions c))

/-- R170, R292, R314: EV_UDRE, the interrupt service runs the transmit handler. -/
def execEvUdre (c : Nat) (s : State) : Result :=
  s.serviceInterrupt (encode (.evUdre c)) c (s.chan c).txReq (txHandler c)

/-- R305, R314: LINE_TX, the transmitter moves `txHold` to the wire. -/
def execLineTx (c : Nat) (s : State) : Result :=
  s.event (encode (.lineTx c)) c (s.chan c).lineTxReady
    (fun u => .next (u.onChan c Channel.lineTx))

end Sys2Proof.Machine
end

