-- ==== Sys2Proof/Machine/Dispatch.lean ====
section
/-! DEFINITION. The one dispatch from an instruction to its meaning. A command's meaning is one
foreground step while it is the current command: the fetch of its actions, or its head action
(spec/60_exceptions.md R300; log entry 9). An event's meaning is its agent's step (R314). -/

namespace Sys2Proof.Machine

def exec (i : Instr) (s : State) : Host.Outcome State Fault Refusal :=
  match i with
  | .chcount => Sys2Proof.Machine.execChcount s
  | .init c baud => Sys2Proof.Machine.execInit c baud s
  | .close c => Sys2Proof.Machine.execClose c s
  | .setflow c on => Sys2Proof.Machine.execSetflow c on s
  | .haschar c => Sys2Proof.Machine.execHaschar c s
  | .read c => Sys2Proof.Machine.execRead c s
  | .readb c => Sys2Proof.Machine.execReadb c s
  | .isrxfull c => Sys2Proof.Machine.execIsrxfull c s
  | .isrxempty c => Sys2Proof.Machine.execIsrxempty c s
  | .write c b => Sys2Proof.Machine.execWrite c b s
  | .wru16 c v => Sys2Proof.Machine.execWru16 c v s
  | .istxfull c => Sys2Proof.Machine.execIstxfull c s
  | .istxempty c => Sys2Proof.Machine.execIstxempty c s
  | .sei => Sys2Proof.Machine.execSei s
  | .cli => Sys2Proof.Machine.execCli s
  | .evRxc c => Sys2Proof.Machine.execEvRxc c s
  | .evUdre c => Sys2Proof.Machine.execEvUdre c s
  | .lineRx c b => Sys2Proof.Machine.execLineRx c b s
  | .lineTx c => Sys2Proof.Machine.execLineTx c s

end Sys2Proof.Machine
end

