-- ==== Sys2Proof/Machine/Agents.lean ====
section
/-! DEFINITION. Who takes a step: the foreground's fetch from the program, the turns that are enabled in
a state, the free choice among them, and a program or event word placed where the next step takes it
(spec/60_exceptions.md R290, R295, R300, R314). -/

namespace Sys2Proof.Machine

/-- R300: one step of the foreground. After the program's end it has none (R314). -/
def foregroundStep (s : State) : Result :=
  match s.actions with
  | a :: rest => s.perform a rest
  | [] =>
    match s.prog[s.pc]? with
    | none => .refused .eventNotEnabled
    | some w =>
      match decodeProgramWord s.cfg w with
      | .error r => .refused r
      | .ok i => exec i s

/-- R290: one agent's turn. -/
def takeTurn (t : Turn) (s : State) : Result :=
  match t with
  | .foreground => foregroundStep s
  | .event i => exec i s

/-- R314: a schedule's entry as a turn. -/
def Entry.turn (cfg : Config) (e : Entry) : Except Refusal Turn :=
  match e with
  | .fg => .ok .foreground
  | .event w =>
    match decodeScheduleWord cfg w with
    | .ok i => .ok (.event i)
    | .error r => .error r

/-- R290 to R292, R305, R306: the enabled events of channel `c`, with `b` the byte the remote sends. -/
def State.channelTurns (s : State) (b : Byte) (c : Nat) : List Turn :=
  (if s.gie && (s.chan c).rxReq then [.event (.evRxc c)] else [])
    ++ (if s.gie && (s.chan c).txReq then [.event (.evUdre c)] else [])
    ++ (if (s.chan c).lineRxReady then [.event (.lineRx c b)] else [])
    ++ (if (s.chan c).lineTxReady then [.event (.lineTx c)] else [])

/-- R290: every turn enabled in a state, the foreground's first. -/
def State.turns (s : State) (b : Byte) : List Turn :=
  (if s.finished then [] else [.foreground])
    ++ (List.range s.cfg.channelCount).flatMap (s.channelTurns b)

/-- R290, R295: the turn an unscheduled step takes: any enabled one, by a free value. -/
def State.freeTurn (s : State) : Option Turn :=
  let ts := s.turns (Config.freeByte s.draws)
  ts[Config.freeChoice s.draws % ts.length]?

/-- R290, R314: the turn of the next step and the state it is taken in: the schedule's next entry, or
the free turn when no entry is left. -/
def State.nextTurn (s : State) : Except Refusal (Turn × State) :=
  match s.schedule with
  | e :: rest =>
    match e.turn s.cfg with
    | .ok t => .ok (t, { s with schedule := rest })
    | .error r => .error r
  | [] =>
    match s.freeTurn with
    | some t => .ok (t, { s with draws := s.draws + 1 })
    | none => .error .runEnded

/-- The program with word `w` at index `n`. -/
def placeWord (prog : List Word) (n : Nat) (w : Word) : List Word :=
  (prog.take n ++ List.replicate (n - prog.length) 0) ++ w :: prog.drop (n + 1)

/-- The state whose next step fetches `w`: an event word as the next schedule entry, any other word as
the program's command at `pc` with `FG` the next entry (log entry 10). -/
def State.placed (s : State) (w : Word) : State :=
  match opRow? (opField w) with
  | some r =>
    if r.event then { s with refused := false, schedule := .event w :: s.schedule }
    else { s with refused := false, actions := [], prog := placeWord s.prog s.pc w,
                  schedule := .fg :: s.schedule }
  | none => { s with refused := false, actions := [], prog := placeWord s.prog s.pc w,
                     schedule := .fg :: s.schedule }

/-- R310: whether a reason is one of the refusals that stop the model, the ten the rule lists. `stopped`
and `runEnded` only say that no agent has a step (log entries 4 and 5) and are none of them. -/
def Refusal.stopsModel : Refusal → Bool
  | .illegalOpcode _ => true
  | .eventInProgram _ => true
  | .commandInSchedule _ => true
  | .noSuchChannel _ => true
  | .reservedFieldNonZero _ => true
  | .eventNotEnabled => true
  | .featureAbsent _ => true
  | .channelNotActive _ => true
  | .reinitActive _ => true
  | .configInvalid => true
  | _ => false

/-- R6, R290, R310: one step of the machine. -/
def nextStep (s : State) : Result :=
  if s.refused then .refused .stopped
  else if s.cfg.valid then
    match s.nextTurn with
    | .ok (t, u) => takeTurn t u
    | .error r => .refused r
  else .refused .configInvalid

end Sys2Proof.Machine
end

