-- ==== Sys2Proof/Machine/Step.lean ====
section
/-! DEFINITION. One step of the machine (spec/60_exceptions.md R290), and the placing of one instruction
word where that step fetches it. -/

namespace Sys2Proof.Machine

/-- One step: the turn of one agent (R290), pinned by the schedule (R314) or free. -/
def step : State → Host.Outcome State Fault Refusal := nextStep

/-- `s` with the word of bits `w` (`nbits` of them, the rest zero) where the next step fetches. -/
def State.withFetchWord (s : State) (nbits w : Nat) : State :=
  s.placed (BitVec.ofNat 32 (w % 2 ^ nbits))

end Sys2Proof.Machine
end

