-- ==== Sys2Proof/Machine/Assembler.lean ====
section
/-! DEFINITION. The assembler syntax (spec/30_encoding.md R119) and the pseudo-instruction WRSTR (R121):
one line of text to the command words it spells, or none for an assembly error. What R119 leaves open
of the text (spaces, letter case) is in log entry 12. -/

namespace Sys2Proof.Machine

/-- An operand as it is written: a character in single quotes, a text in double quotes, or a plain run
of characters. -/
inductive Operand where
  | quoted (c : Char)
  | text (cs : List Char)
  | plain (cs : List Char)
  deriving DecidableEq, Repr

/-- Leave out the spaces at the front. -/
def skipSpaces (cs : List Char) : List Char := cs.dropWhile (fun c => c == ' ')

/-- A character of a plain operand or of a mnemonic. -/
def isPlain (c : Char) : Bool := !(c == ' ' || c == ',')

/-- Read one operand; a quoted operand may hold a comma. -/
def readOperand (cs : List Char) : Option (Operand × List Char) :=
  match cs with
  | '\'' :: c :: '\'' :: rest => some (.quoted c, rest)
  | '"' :: rest =>
    match rest.dropWhile (fun c => c != '"') with
    | [] => none
    | _ :: after => some (.text (rest.takeWhile (fun c => c != '"')), after)
  | _ =>
    if (cs.takeWhile isPlain).isEmpty then none
    else some (.plain (cs.takeWhile isPlain), cs.dropWhile isPlain)

/-- R119: operands separated by commas, at most `fuel` of them. -/
def readOperands : Nat → List Char → Option (List Operand)
  | 0, _ => none
  | fuel + 1, cs =>
    match readOperand (skipSpaces cs) with
    | none => none
    | some (o, rest) =>
      match skipSpaces rest with
      | [] => some [o]
      | ',' :: more => (readOperands fuel more).map (fun os => o :: os)
      | _ => none

/-- The value of a digit character in a base up to 16. -/
def digitValue (c : Char) : Nat :=
  if 48 ≤ c.toNat ∧ c.toNat ≤ 57 then c.toNat - 48
  else if 65 ≤ c.toNat ∧ c.toNat ≤ 70 then c.toNat - 55
  else if 97 ≤ c.toNat ∧ c.toNat ≤ 102 then c.toNat - 87
  else 16

/-- A number in a base: one or more of its digits. -/
def readBase (base : Nat) (cs : List Char) : Option Nat :=
  if cs.isEmpty || cs.any (fun c => decide (base ≤ digitValue c)) then none
  else some (cs.foldl (fun n c => n * base + digitValue c) 0)

/-- R119: a decimal number or a `0x` hexadecimal number. -/
def readNumber (cs : List Char) : Option Nat :=
  match cs with
  | '0' :: 'x' :: hex => readBase 16 hex
  | _ => readBase 10 cs

/-- R119: the ASCII code of a character; none for a character that has no ASCII code. -/
def asciiCode (c : Char) : Option Nat := if c.toNat < 128 then some c.toNat else none

/-- An operand that does not fit its field is an assembly error (R119). -/
def fits (limit : Nat) (n : Nat) : Option Nat := if n < limit then some n else none

/-- R119: a channel is a decimal number 0 to 255. -/
def readChannel (o : Operand) : Option Nat :=
  match o with
  | .plain cs => (readBase 10 cs).bind (fits 256)
  | .quoted _ => none
  | .text _ => none

/-- R119: a byte or value is a decimal number, a `0x` hexadecimal number, or a quoted character. -/
def readValue (limit : Nat) (o : Operand) : Option Nat :=
  match o with
  | .plain cs => (readNumber cs).bind (fits limit)
  | .quoted c => (asciiCode c).bind (fits limit)
  | .text _ => none

/-- R119: `on` or `1`, `off` or `0`. -/
def readFlag (o : Operand) : Option Bool :=
  if o = .plain "on".toList ∨ o = .plain "1".toList then some true
  else if o = .plain "off".toList ∨ o = .plain "0".toList then some false
  else none

/-- R121: the text of WRSTR, or the null argument `NULL`. -/
def readText (o : Operand) : Option (Option (List Byte)) :=
  match o with
  | .text cs => (cs.mapM asciiCode).map (fun ns => some (ns.map (BitVec.ofNat 8)))
  | .plain cs => if cs = "NULL".toList then some none else none
  | .quoted _ => none

/-- R119: the operands of each mnemonic; `shape` is an instruction of the mnemonic's row. -/
def buildInstr (shape : Instr) (ops : List Operand) : Option Instr :=
  match shape, ops with
  | .chcount, [] => some .chcount
  | .sei, [] => some .sei
  | .cli, [] => some .cli
  | .init _ _, [c, v] => do some (.init (← readChannel c) (BitVec.ofNat 16 (← readValue 65536 v)))
  | .close _, [c] => do some (.close (← readChannel c))
  | .setflow _ _, [c, f] => do some (.setflow (← readChannel c) (← readFlag f))
  | .haschar _, [c] => do some (.haschar (← readChannel c))
  | .read _, [c] => do some (.read (← readChannel c))
  | .readb _, [c] => do some (.readb (← readChannel c))
  | .isrxfull _, [c] => do some (.isrxfull (← readChannel c))
  | .isrxempty _, [c] => do some (.isrxempty (← readChannel c))
  | .write _ _, [c, b] => do some (.write (← readChannel c) (BitVec.ofNat 8 (← readValue 256 b)))
  | .wru16 _ _, [c, v] => do some (.wru16 (← readChannel c) (BitVec.ofNat 16 (← readValue 65536 v)))
  | .istxfull _, [c] => do some (.istxfull (← readChannel c))
  | .istxempty _, [c] => do some (.istxempty (← readChannel c))
  | .evRxc _, [c] => do some (.evRxc (← readChannel c))
  | .evUdre _, [c] => do some (.evUdre (← readChannel c))
  | .lineRx _ _, [c, b] => do some (.lineRx (← readChannel c) (BitVec.ofNat 8 (← readValue 256 b)))
  | .lineTx _, [c] => do some (.lineTx (← readChannel c))
  | _, _ => none

/-- R119, R121: the instructions of a mnemonic with its operands; WRSTR spells a list of WRITEs. -/
def spell (cfg : Config) (mnemonic : List Char) (ops : List Operand) : Option (List Instr) :=
  if mnemonic = "WRSTR".toList then
    match ops with
    | [c, t] => do wrstr cfg (← readChannel c) (← readText t)
    | _ => none
  else
    match opTable.find? (fun r => r.mnemonic.toList == mnemonic) with
    | some r => (buildInstr (r.build 0 0) ops).map (fun i => [i])
    | none => none

/-- R119: the instructions one line of assembly text spells. -/
def assembleLine (cfg : Config) (line : List Char) : Option (List Instr) :=
  let cs := skipSpaces line
  let m := cs.takeWhile isPlain
  match skipSpaces (cs.dropWhile isPlain) with
  | [] => spell cfg m []
  | rest => (readOperands rest.length rest).bind (spell cfg m)

/-- A program text, one line a command, to its words. -/
def assemble (cfg : Config) (lines : List (List Char)) : Option (List Word) :=
  (lines.mapM (assembleLine cfg)).map (fun is => is.flatten.map encode)

end Sys2Proof.Machine
end

