-- ==== Sys2Proof/Safety.lean ====
section
/-! DEFINITION. The terms claims use: what an instruction's action list is, the invariant of reachable
states (spec/10_state.md R48), the streams of bytes on their way, the end of a run and its observation
(spec/60_exceptions.md R303), what a refusal leaves (R310) and fairness (R302). -/

namespace Sys2Proof.Machine

-- Action lists

/-- The action list of a command on an active channel of the block, or of one that names no channel. -/
def ownActions : Instr → List Action
  | .chcount => chcountActions
  | .init c baud => initActions c baud
  | .close c => closeActions c
  | .setflow c on => setflowActions c on
  | .haschar c => hascharActions c
  | .read c => readActions c
  | .readb c => readbActions c
  | .isrxfull c => isrxfullActions c
  | .isrxempty c => isrxemptyActions c
  | .write c b => writeActions c b
  | .wru16 c v => wru16Actions c v
  | .istxfull c => istxfullActions c
  | .istxempty c => istxemptyActions c
  | .sei => seiActions
  | .cli => cliActions
  | .evRxc _ => []
  | .evUdre _ => []
  | .lineRx _ _ => []
  | .lineTx _ => []

/-- R260: the action list for a channel the block does not have. -/
def neutralActions : Instr → List Action
  | .haschar _ => [.emitFalse]
  | .isrxempty _ => [.emitFalse]
  | .isrxfull _ => [.emitFalse]
  | .istxfull _ => [.emitFalse]
  | .istxempty _ => [.emitFalse]
  | .read _ => [.emitZero]
  | .readb _ => [.emitZero]
  | .init _ _ => []
  | .close _ => []
  | .setflow _ _ => []
  | .write _ _ => []
  | .wru16 _ _ => []
  | .chcount => []
  | .sei => []
  | .cli => []
  | .evRxc _ => []
  | .evUdre _ => []
  | .lineRx _ _ => []
  | .lineTx _ => []

/-- Whether a channel operand names a channel of the block (R260); true where there is no operand. -/
def Instr.named (cfg : Config) (i : Instr) : Bool :=
  match i.channel? with
  | none => true
  | some c => decide (c < cfg.channelCount)

/-- R300: the action list a fetch finds for a command that it does not refuse. -/
def plan (cfg : Config) (i : Instr) : List Action :=
  if Instr.named cfg i then ownActions i else neutralActions i

/-- R261: whether the channel an instruction needs active is active; INIT, and an instruction that
names no channel of the block, need none. -/
def State.activeFor (s : State) (i : Instr) : Bool :=
  match i with
  | .init _ _ => true
  | _ =>
    match i.channel? with
    | none => true
    | some c => decide (s.cfg.channelCount ≤ c) || (s.chan c).active

/-- R300: between commands, or inside the command at `pc`: its remaining actions are the end of its
list, and the channel it needs is active. -/
def State.inCommand (s : State) : Bool :=
  s.actions.isEmpty ||
  match s.prog[s.pc]? with
  | none => false
  | some w =>
    match decodeProgramWord s.cfg w with
    | .error _ => false
    | .ok i => s.actions.isSuffixOf (plan s.cfg i) && s.activeFor i

-- The invariant

/-- R48: what holds of an active channel in every reachable state. -/
structure Channel.OpenInv (cfg : Config) (x : Channel) : Prop where
  /-- R48 item 1. -/
  idle : x.txIdle = !x.txIE
  /-- R48 item 2. -/
  count : cfg.flowControl = true → x.rxCount = x.rx.occupancy cfg.rxCapacity
  /-- R48 item 3. -/
  control : cfg.flowControl = true →
    x.pending = none ∨ x.pending = some (if x.flowOn then cfg.xonByte else cfg.xoffByte)
  /-- R48 item 4. -/
  drained : x.txIdle = true → x.txHold = none ∧ x.tx.isEmpty = true
    ∧ (cfg.flowControl = true → x.pending = none)
  /-- R38, R262: the enables INIT sets and only CLOSE clears. -/
  enables : x.rxEn = true ∧ x.txEn = true ∧ x.rxIE = true

/-- R262, R305, R306: what holds of an inactive channel: its peripheral is disabled and empty. -/
structure Channel.QuietInv (x : Channel) : Prop where
  enables : x.rxEn = false ∧ x.txEn = false ∧ x.rxIE = false ∧ x.txIE = false
  holds : x.txHold = none ∧ x.rxHold = none

/-- R33, R48 item 5: what holds of a channel in every reachable state. -/
structure Channel.Inv (cfg : Config) (x : Channel) : Prop where
  rxRange : x.rx.InRange cfg.rxCapacity
  txRange : x.tx.InRange cfg.txCapacity
  opened : x.active = true → x.OpenInv cfg
  quiet : x.active = false → x.QuietInv

/-- What holds in every reachable state. -/
structure State.Inv (s : State) : Prop where
  /-- R6: an admitted configuration. -/
  config : s.cfg.valid = true
  /-- R30: one aggregate a channel. -/
  count : s.ch.length = s.cfg.channelCount
  /-- R48: every channel's invariant. -/
  channels : ∀ x ∈ s.ch, x.Inv s.cfg
  /-- R44: the program counter is within the program. -/
  pcRange : s.pc ≤ s.prog.length
  /-- R300: the actions left are those of the command at `pc`. -/
  command : s.inCommand = true
  /-- R310: no refusal. -/
  running : s.refused = false

-- Bytes on their way

/-- The slots `i`, `i + 1`, … of a ring, `n` of them, wrapping. -/
def slotsFrom (C : Nat) (buf : Memory) : Nat → Nat → List Byte
  | 0, _ => []
  | n + 1, i => Memory.get buf i :: slotsFrom C buf n (advance i C)

/-- R147: the bytes a ring holds, oldest first. -/
def Ring.contents (C : Nat) (r : Ring) : List Byte := slotsFrom C r.buf (r.occupancy C) r.read

/-- R169: the bytes a channel has sent and is about to send, in order: on the wire, in the data
register, the control byte, the transmit buffer. -/
def Channel.sent (cfg : Config) (x : Channel) : List Byte :=
  x.txWire ++ x.txHold.toList ++ (x.control cfg).toList ++ x.tx.contents cfg.txCapacity

/-- R207: the bytes received and not yet read, in order: the receive buffer, then the data register. -/
def Channel.unread (cfg : Config) (x : Channel) : List Byte :=
  x.rx.contents cfg.rxCapacity ++ x.rxHold.toList

-- Sequences of ring primitives

/-- R145: pushes in a row, with what each returned. -/
def pushAll (C : Nat) (r : Ring) : List Byte → List Bool × Ring
  | [] => ([], r)
  | b :: bs => ((r.push C b).1 :: (pushAll C (r.push C b).2 bs).1, (pushAll C (r.push C b).2 bs).2)

/-- R146: one primitive of a sequence. -/
inductive RingOp where
  | push (b : Byte)
  | pop
  deriving DecidableEq, Repr

/-- What a sequence of primitives did: the bytes stored, the bytes popped, and the ring after. -/
structure RingTrace where
  stored : List Byte
  popped : List Byte
  ring   : Ring
  deriving DecidableEq, Repr

/-- R146: a sequence of primitives. A push that returned false stored nothing. -/
def ringRun (C : Nat) : List RingOp → Ring → RingTrace
  | [], r => ⟨[], [], r⟩
  | .push b :: ops, r =>
    let rest := ringRun C ops (r.push C b).2
    { rest with stored := if (r.push C b).1 then b :: rest.stored else rest.stored }
  | .pop :: ops, r =>
    match r.pop C with
    | none => ringRun C ops r
    | some (b, r') =>
      let rest := ringRun C ops r'
      { rest with popped := b :: rest.popped }

-- Encodings

/-- R116: an opcode of a command. -/
abbrev isCommandOp (op : BitVec 8) : Prop := 0x01 ≤ op.toNat ∧ op.toNat ≤ 0x0F

/-- R116: an opcode of an event. -/
abbrev isEventOp (op : BitVec 8) : Prop := 0x80 ≤ op.toNat ∧ op.toNat ≤ 0x83

/-- R111, R112: the reserved bits of a word with a legal opcode are zero, said of its fields. -/
abbrev ReservedZero (w : Word) : Prop :=
  (opField w ∈ [0x01, 0x0E, 0x0F] → chField w = 0 ∧ immField w = 0)
  ∧ (opField w ∈ [0x03, 0x05, 0x06, 0x07, 0x08, 0x09, 0x0C, 0x0D, 0x80, 0x81, 0x83] → immField w = 0)
  ∧ (opField w = 0x04 → (immField w).toNat < 2)
  ∧ (opField w ∈ [0x0A, 0x82] → (immField w).toNat < 256)

-- Writers

/-- R87: INIT and CLOSE of channel `c`. -/
def Action.isLifecycle (c : Nat) : Action → Bool
  | .init d _ => d == c
  | .close d => d == c
  | _ => false

/-- R87: WRITE and WRU16 of channel `c`. -/
def Action.isSend (c : Nat) : Action → Bool
  | .write d _ => d == c
  | .digit d _ => d == c
  | _ => false

/-- R87: READ and READB of channel `c`. -/
def Action.isTake (c : Nat) : Action → Bool
  | .read d => d == c
  | .readb d => d == c
  | _ => false

/-- R87: SETFLOW's queuing action of channel `c`. -/
def Action.isFlowQueue (c : Nat) : Action → Bool
  | .flowQueue d _ => d == c
  | _ => false

/-- The step of `i` is the foreground's, and its action is of the kind `p`. -/
def State.acts (s : State) (i : Instr) (p : Action → Bool) : Prop :=
  i.isEvent = false ∧ ∃ a rest, s.actions = a :: rest ∧ p a = true

-- Comparing two machines

/-- Apply `f` to the next state of an outcome. -/
def mapNext (f : State → State) : Result → Result
  | .next s => .next (f s)
  | .fault r => .fault r
  | .refused r => .refused r

/-- R47, R147: two channels that differ at most in what power-on leaves unspecified and no rule has
written since: for an inactive channel its buffers, cursors, engine and flow fields, `baud` and
`charSize`; for an active one the slots that hold no byte, and without flow control the flow fields. -/
structure Channel.Alike (cfg : Config) (x y : Channel) : Prop where
  active : x.active = y.active
  enables : x.rxEn = y.rxEn ∧ x.txEn = y.txEn ∧ x.rxIE = y.rxIE ∧ x.txIE = y.txIE
  holds : x.txHold = y.txHold ∧ x.rxHold = y.rxHold
  traces : x.txWire = y.txWire ∧ x.rxArrived = y.rxArrived
  cursors : x.active = true → x.rx.read = y.rx.read ∧ x.rx.write = y.rx.write
    ∧ x.tx.read = y.tx.read ∧ x.tx.write = y.tx.write
  contents : x.active = true → x.rx.contents cfg.rxCapacity = y.rx.contents cfg.rxCapacity
    ∧ x.tx.contents cfg.txCapacity = y.tx.contents cfg.txCapacity
  engine : x.active = true → x.txIdle = y.txIdle ∧ x.baud = y.baud ∧ x.charSize = y.charSize
  flow : x.active = true → cfg.flowControl = true →
    x.flowOn = y.flowOn ∧ x.pending = y.pending ∧ x.rxCount = y.rxCount

/-- R47: two states that differ at most in values power-on leaves unspecified. -/
structure State.Alike (s t : State) : Prop where
  config : s.cfg = t.cfg
  count : s.ch.length = t.ch.length
  channels : ∀ c, c < s.cfg.channelCount → (s.chan c).Alike s.cfg (t.chan c)
  flag : s.gie = t.gie
  foreground : s.prog = t.prog ∧ s.pc = t.pc ∧ s.actions = t.actions ∧ s.results = t.results
    ∧ s.refused = t.refused
  interleaving : s.schedule = t.schedule ∧ s.draws = t.draws

/-- The same outcome, up to unspecified values. -/
def SameOutcome : Result → Result → Prop
  | .next s, .next t => s.Alike t
  | .refused r, .refused r' => r = r'
  | .fault f, .fault f' => f = f'
  | _, _ => False

/-- R345: the schedule that drains channel `c`: `n` bytes handed over and put on the wire, then one more
handler invocation. -/
def drainSchedule (c : Nat) : Nat → List Entry
  | 0 => [.event (encode (.evUdre c))]
  | n + 1 => .event (encode (.evUdre c)) :: .event (encode (.lineTx c)) :: drainSchedule c n

-- The end of a run, and refusals

/-- R303: no interrupt-service step and no LINE_TX step of channel `c` is enabled. -/
def State.channelQuiet (s : State) (c : Nat) : Bool :=
  !(s.gie && (s.chan c).rxReq) && !(s.gie && (s.chan c).txReq) && !(s.chan c).lineTxReady

/-- R303: the foreground has finished and no handler and no LINE_TX step is enabled. -/
def State.quiescent (s : State) : Bool :=
  s.finished && (List.range s.cfg.channelCount).all s.channelQuiet

/-- R303: what is observed of a program, at a quiescent state reached with no refusal: the results and
every channel's state, its traces among them. -/
def State.observation (s : State) : Option (List Value × List Channel) :=
  if s.quiescent && !s.refused then some (s.results, s.ch) else none

/-- R310: the state a step leaves. A refusal of the rule's list sets `refused` and changes nothing else;
where no agent has a step, the machine refused before or the run ended, nothing changes (log entry 5). -/
def State.after (s : State) : State :=
  match step s with
  | .next t => t
  | .refused r => if r.stopsModel then { s with refused := true } else s
  | .fault _ => s

/-- A run is safe while no step faults. -/
def Result.safe : Result → Bool
  | .next _ => true
  | .refused _ => true
  | .fault _ => false

-- Fairness

/-- A run: its states and the turn that leads from each to the next. -/
def IsRun (σ : Nat → State) (turn : Nat → Turn) : Prop :=
  ∀ n, ∃ u, (σ n).nextTurn = .ok (turn n, u) ∧ step (σ n) = .next (σ (n + 1))

/-- Whether a turn is a step of the interrupt service (R290). -/
def Turn.isService : Turn → Bool
  | .event (.evRxc _) => true
  | .event (.evUdre _) => true
  | _ => false

/-- R302: the fairness a claim that a run ends rests on: (a) of the interrupt service, (b) of every
transmit line, (c) of the foreground's current action. The receive line has none.
DESIGN CHOICE (log entry 11): (a) can be read per agent or per request, and is taken per agent here, to
the letter: while requests hold the service steps, but it may serve EV_RXC each time. `FairToRequests`
is the other reading. -/
def Fair (σ : Nat → State) (turn : Nat → Turn) : Prop :=
  (∀ n, (∀ m, n ≤ m → (σ m).gie = true
      ∧ ∃ c, c < (σ m).cfg.channelCount ∧ (((σ m).chan c).rxReq || ((σ m).chan c).txReq) = true) →
    ∃ m, n ≤ m ∧ (turn m).isService = true)
  ∧ (∀ c n, (∀ m, n ≤ m → c < (σ m).cfg.channelCount ∧ ((σ m).chan c).lineTxReady = true) →
    ∃ m, n ≤ m ∧ turn m = .event (.lineTx c))
  ∧ (∀ n a rest, (σ n).actions = a :: rest →
    (∀ k, n ≤ k → ∃ m, k ≤ m ∧ a.guard (σ m) = true) →
    ∃ m, n ≤ m ∧ turn m = .foreground ∧ a.guard (σ m) = true ∧ (σ m).actions = a :: rest)

/-- R302 (a) read per request (DESIGN CHOICE, log entry 11): a request that holds from some step on, with
`gie` true, is served. A claim that a WRITE, SETFLOW or CLOSE ends, as R335 says, takes it beside `Fair`. -/
def FairToRequests (σ : Nat → State) (turn : Nat → Turn) : Prop :=
  ∀ c n,
    ((∀ m, n ≤ m → c < (σ m).cfg.channelCount ∧ (σ m).gie = true ∧ ((σ m).chan c).rxReq = true) →
      ∃ m, n ≤ m ∧ turn m = .event (.evRxc c))
    ∧ ((∀ m, n ≤ m → c < (σ m).cfg.channelCount ∧ (σ m).gie = true ∧ ((σ m).chan c).txReq = true) →
      ∃ m, n ≤ m ∧ turn m = .event (.evUdre c))

end Sys2Proof.Machine
end

