-- ==== Sys2Proof/Certificates/Slice0/Obligations.lean ====
section
/-! DEFINITION. The statements for the provers. Each docstring names the rule of spec/ it formalises.
Where a statement says what an instruction completes to, it gives the whole next state, so its frame is
part of the equation: every field that the next state does not list is unchanged. -/

open Sys2Proof Sys2Proof.Machine

-- Encoding

/-- R110 to R114: decoding the word of a well-formed instruction gives the instruction back, with every
operand at every value its field admits. -/
def Obligations.DecodeOfEncodeIsTheInstruction : Prop :=
  ∀ i : Instr, i.wf = true → decode (encode i) = .ok i

/-- R110 to R117: a word that decodes is the word of a well-formed instruction, so each legal word has
one meaning and no reserved bit is ignored. -/
def Obligations.EncodeOfDecodeIsTheWord : Prop :=
  ∀ (w : Word) (i : Instr), decode w = .ok i → i.wf = true ∧ encode i = w

/-- R120 and 95_test_vectors.md V1: words written out from the spec's encodings, one or more of every
family, decode to the instructions they stand for. -/
def Obligations.SpecWordsDecodeToTheirInstructions : Prop :=
  decode 0b00000001000000000000000000000000 = .ok .chcount
  ∧ decode 0b00000010000000010001001000110100 = .ok (.init 1 0x1234)
  ∧ decode 0b00000100000000000000000000000001 = .ok (.setflow 0 true)
  ∧ decode 0b00000111000000110000000000000000 = .ok (.readb 3)
  ∧ decode 0b00001010000000000000000001001000 = .ok (.write 0 0x48)
  ∧ decode 0b00001011000000001111111111111111 = .ok (.wru16 0 65535)
  ∧ decode 0b00001110000000000000000000000000 = .ok .sei
  ∧ decode 0b10000010000000000000000001000001 = .ok (.lineRx 0 0x41)

/-- R115: the checks of a program word and of a schedule word, in order. A schedule word that has both a
reserved bit set and a channel the block does not have is refused; which reason it gives is the model's
choice (log entry 6) and is not stated. -/
def Obligations.WordsDecodeByTheChecksInOrder : Prop :=
  ∀ (cfg : Config) (w : Word),
    (¬ isCommandOp (opField w) ∧ ¬ isEventOp (opField w) →
      decodeProgramWord cfg w = .error (.illegalOpcode w)
      ∧ decodeScheduleWord cfg w = .error (.illegalOpcode w))
    ∧ (isEventOp (opField w) → decodeProgramWord cfg w = .error (.eventInProgram w))
    ∧ (isCommandOp (opField w) →
        (opField w = 0x04 ∧ cfg.flowControl = false → decodeProgramWord cfg w = .error (.featureAbsent w))
        ∧ (¬ (opField w = 0x04 ∧ cfg.flowControl = false) →
            (¬ ReservedZero w → decodeProgramWord cfg w = .error (.reservedFieldNonZero w))
            ∧ (ReservedZero w → ∃ i, decodeProgramWord cfg w = .ok i ∧ encode i = w ∧ i.isEvent = false)))
    ∧ (isCommandOp (opField w) → decodeScheduleWord cfg w = .error (.commandInSchedule w))
    ∧ (isEventOp (opField w) →
        (¬ ReservedZero w → chField w < cfg.channelCount →
          decodeScheduleWord cfg w = .error (.reservedFieldNonZero w))
        ∧ (ReservedZero w → cfg.channelCount ≤ chField w →
          decodeScheduleWord cfg w = .error (.noSuchChannel w))
        ∧ (¬ ReservedZero w → cfg.channelCount ≤ chField w → ∃ r, decodeScheduleWord cfg w = .error r)
        ∧ (ReservedZero w → chField w < cfg.channelCount →
          ∃ i, decodeScheduleWord cfg w = .ok i ∧ encode i = w ∧ i.isEvent = true))

/-- R116: the illegal opcodes are 0x00, 0x10 to 0x7F and 0x84 to 0xFF, for programs and schedules alike. -/
def Obligations.IllegalOpcodesAreRefused : Prop :=
  ∀ (cfg : Config) (w : Word),
    (decodeProgramWord cfg w = .error (.illegalOpcode w) ↔
      opField w = 0x00 ∨ (0x10 ≤ (opField w).toNat ∧ (opField w).toNat ≤ 0x7F) ∨ 0x84 ≤ (opField w).toNat)
    ∧ (decodeScheduleWord cfg w = .error (.illegalOpcode w) ↔
      opField w = 0x00 ∨ (0x10 ≤ (opField w).toNat ∧ (opField w).toNat ≤ 0x7F) ∨ 0x84 ≤ (opField w).toNat)

/-- R118: SETFLOW exists only in the flow-control build. -/
def Obligations.SetflowExistsOnlyWithFlowControl : Prop :=
  ∀ (cfg : Config) (c : Nat) (on : Bool), c < 256 →
    (cfg.flowControl = false → ∀ w, opField w = 0x04 → decodeProgramWord cfg w = .error (.featureAbsent w))
    ∧ (cfg.flowControl = true → decodeProgramWord cfg (encode (.setflow c on)) = .ok (.setflow c on))

/-- R121: WRSTR assembles to one WRITE a byte, in order; a null argument stands for the configured token;
the empty text assembles to nothing. The last clause says it of the assembler's two operands. -/
def Obligations.WrstrIsOneWriteForEachByte : Prop :=
  ∀ (cfg : Config) (c : Nat) (text : List Byte),
    (0 ∉ text → wrstr cfg c (some text) = some (text.map (fun b => .write c b)))
    ∧ wrstr cfg c none = some (cfg.nullStringToken.map (fun b => .write c b))
    ∧ wrstr cfg c (some []) = some []
    ∧ ∀ (o p : Operand) (arg : Option (List Byte)), readChannel o = some c → readText p = some arg →
        spell cfg "WRSTR".toList [o, p] = wrstr cfg c arg

-- The ring buffer

/-- 40_ringbuffer.md, the definitions of R142 and its equivalences: advance wraps to 0, occupancy is
`(write - read + C) mod C` in [0, C - 1], empty is occupancy 0 and full is occupancy C - 1. -/
def Obligations.OccupancyDecidesEmptyAndFull : Prop :=
  ∀ (C : Nat) (r : Ring), 2 ≤ C → r.read < C → r.write < C →
    advance r.write C < C
    ∧ advance r.write C = (r.write + 1) % C
    ∧ (r.occupancy C : Int) = ((r.write : Int) - r.read + C) % C
    ∧ r.occupancy C ≤ C - 1
    ∧ (r.isEmpty = true ↔ r.occupancy C = 0)
    ∧ (r.isFull C = true ↔ r.occupancy C = C - 1)

/-- R143: a push succeeds iff the ring is not full, stores at `write` and advances `write`; a failed push
changes no state; no push writes `read`. The last clause is the rule's example. -/
def Obligations.PushStoresAtWriteUnlessFull : Prop :=
  (∀ (C : Nat) (r : Ring) (b : Byte), r.InRange C →
    ((r.push C b).1 = true ↔ r.isFull C = false)
    ∧ (r.isFull C = true → (r.push C b).2 = r)
    ∧ (r.isFull C = false →
        Memory.get (r.push C b).2.buf r.write = b
        ∧ (∀ i, i ≠ r.write → Memory.get (r.push C b).2.buf i = Memory.get r.buf i)
        ∧ (r.push C b).2.buf.length = C
        ∧ (r.push C b).2.write = (if r.write = C - 1 then 0 else r.write + 1))
    ∧ (r.push C b).2.read = r.read)
  ∧ ∀ a0 a1 a2 a3 : Byte,
      Ring.push 4 ⟨[a0, a1, a2, a3], 1, 3⟩ 0x41 = (true, ⟨[a0, a1, a2, 0x41], 1, 0⟩)
      ∧ Ring.isFull 4 ⟨[a0, a1, a2, 0x41], 1, 0⟩ = true

/-- R144: a pop fails iff the ring is empty, and then changes no state; else it gives the byte at `read`,
writes 0x00 to that slot, advances `read` and leaves `write` and every other slot. The last clause is the
rule's example. -/
def Obligations.PopReadsAndClearsTheSlot : Prop :=
  (∀ (C : Nat) (r : Ring), r.InRange C →
    (r.pop C = none ↔ r.isEmpty = true)
    ∧ (∀ b r', r.pop C = some (b, r') →
        b = Memory.get r.buf r.read
        ∧ Memory.get r'.buf r.read = 0
        ∧ (∀ i, i ≠ r.read → Memory.get r'.buf i = Memory.get r.buf i)
        ∧ r'.buf.length = C
        ∧ r'.read = (if r.read = C - 1 then 0 else r.read + 1)
        ∧ r'.write = r.write))
  ∧ ∀ a0 a1 a2 : Byte,
      Ring.pop 4 ⟨[a0, a1, a2, 0x5A], 3, 1⟩ = some (0x5A, ⟨[a0, a1, a2, 0], 0, 1⟩)
      ∧ Ring.occupancy 4 ⟨[a0, a1, a2, 0], 0, 1⟩ = 1

/-- 40_ringbuffer.md, capacity law (the spec derives it at R145): from occupancy k exactly C - 1 - k
further pushes succeed, the ring is full only after the last of them, and the next push fails. -/
def Obligations.CapacityLaw : Prop :=
  ∀ (C : Nat) (r : Ring) (bs : List Byte) (b : Byte), 2 ≤ C → r.InRange C →
    bs.length = C - 1 - r.occupancy C →
    (∀ ok ∈ (pushAll C r bs).1, ok = true)
    ∧ (pushAll C r bs).2.isFull C = true
    ∧ (∀ k, k < bs.length → (pushAll C r (bs.take k)).2.isFull C = false)
    ∧ (((pushAll C r bs).2).push C b).1 = false

/-- 40_ringbuffer.md, FIFO law (the spec derives it at R146): over any sequence of pushes interleaved with
pops, the bytes popped, then the bytes still held, are the bytes held at first, then the bytes stored. -/
def Obligations.FifoLaw : Prop :=
  ∀ (C : Nat) (ops : List RingOp) (r : Ring), 2 ≤ C → r.InRange C →
    (ringRun C ops r).popped ++ (ringRun C ops r).ring.contents C
      = r.contents C ++ (ringRun C ops r).stored

-- The transmit family

/-- 41_transmit.md, R166: the kick takes an Idle engine to Draining and does nothing to a Draining one;
on an active channel in a reachable state it raises the transmit request at once. -/
def Obligations.KickStartsDraining : Prop :=
  (∀ x : Channel, x.kick = { x with txIdle := false, txIE := x.txIE || x.txIdle })
  ∧ ∀ (cfg : Config) (x : Channel), x.OpenInv cfg → x.active = true → x.txIdle = true → x.kick.txReq = true

/-- 41_transmit.md, R162: WRITE is fetched as one action; the action pushes and kicks when the buffer is
not full, and spins when it is. -/
def Obligations.WriteCompletes : Prop :=
  ∀ (s : State) (c : Nat) (b : Byte),
    (s.actions = [] → c < s.cfg.channelCount → (s.chan c).active = true →
      exec (.write c b) s = .next { s with actions := [.write c b] })
    ∧ (s.actions = [.write c b] → (s.chan c).tx.isFull s.cfg.txCapacity = false →
      exec (.write c b) s = .next { s with
        ch := s.ch.set c { s.chan c with
          tx := { buf := (s.chan c).tx.buf.set (s.chan c).tx.write b, read := (s.chan c).tx.read,
                  write := advance (s.chan c).tx.write s.cfg.txCapacity }
          txIdle := false
          txIE := (s.chan c).txIE || (s.chan c).txIdle }
        actions := []
        pc := s.pc + 1 })
    ∧ (s.actions = [.write c b] → (s.chan c).tx.isFull s.cfg.txCapacity = true →
      exec (.write c b) s = .next s)

/-- 41_transmit.md, R163: WRU16 is fetched as one action a decimal digit; each pushes its digit and kicks
when the buffer is not full, and spins when it is; the last one completes the command. -/
def Obligations.Wru16Completes : Prop :=
  ∀ (s : State) (c : Nat) (v : Half),
    (s.actions = [] → c < s.cfg.channelCount → (s.chan c).active = true →
      exec (.wru16 c v) s = .next { s with actions := (dec v).map (Action.digit c) })
    ∧ (∀ d rest, s.actions = .digit c d :: rest → (s.chan c).tx.isFull s.cfg.txCapacity = false →
      exec (.wru16 c v) s = .next { s with
        ch := s.ch.set c { s.chan c with
          tx := { buf := (s.chan c).tx.buf.set (s.chan c).tx.write d, read := (s.chan c).tx.read,
                  write := advance (s.chan c).tx.write s.cfg.txCapacity }
          txIdle := false
          txIE := (s.chan c).txIE || (s.chan c).txIdle }
        actions := rest
        pc := if rest = [] then s.pc + 1 else s.pc })
    ∧ (∀ d rest, s.actions = .digit c d :: rest → (s.chan c).tx.isFull s.cfg.txCapacity = true →
      exec (.wru16 c v) s = .next s)

/-- R164: `Dec(v)` is the decimal rendering of v: 1 to 5 ASCII digits, most significant first, of value v,
with no leading zero but for v = 0, which gives the one byte 0x30. The last clauses are its examples. -/
def Obligations.DecIsTheDecimalRendering : Prop :=
  (∀ v : Half,
    1 ≤ (dec v).length ∧ (dec v).length ≤ 5
    ∧ (∀ b ∈ dec v, 0x30 ≤ b.toNat ∧ b.toNat ≤ 0x39)
    ∧ (dec v).foldl (fun n b => n * 10 + (b.toNat - 0x30)) 0 = v.toNat
    ∧ ((dec v).head? = some 0x30 → v = 0))
  ∧ dec 0 = [0x30] ∧ dec 7 = [0x37] ∧ dec 10 = [0x31, 0x30] ∧ dec 100 = [0x31, 0x30, 0x30]
  ∧ dec 65535 = [0x36, 0x35, 0x35, 0x33, 0x35]

/-- 41_transmit.md and 42_receive.md, R167, R168, R202, R203, R206: the five queries are fetched as one
action, which appends the predicate's value to the result log and changes nothing else. -/
def Obligations.QueriesEmitTheirPredicate : Prop :=
  ∀ (s : State) (c : Nat),
    (s.actions = [] → c < s.cfg.channelCount → (s.chan c).active = true →
      exec (.istxfull c) s = .next { s with actions := [.istxfull c] }
      ∧ exec (.istxempty c) s = .next { s with actions := [.istxempty c] }
      ∧ exec (.haschar c) s = .next { s with actions := [.haschar c] }
      ∧ exec (.isrxempty c) s = .next { s with actions := [.isrxempty c] }
      ∧ exec (.isrxfull c) s = .next { s with actions := [.isrxfull c] })
    ∧ (s.actions = [.istxfull c] → exec (.istxfull c) s = .next { s with
        results := s.results
          ++ [.bool (advance (s.chan c).tx.write s.cfg.txCapacity == (s.chan c).tx.read)]
        actions := [], pc := s.pc + 1 })
    ∧ (s.actions = [.istxempty c] → exec (.istxempty c) s = .next { s with
        results := s.results ++ [.bool ((s.chan c).tx.read == (s.chan c).tx.write)]
        actions := [], pc := s.pc + 1 })
    ∧ (s.actions = [.haschar c] → exec (.haschar c) s = .next { s with
        results := s.results ++ [.bool ((s.chan c).rx.read != (s.chan c).rx.write)]
        actions := [], pc := s.pc + 1 })
    ∧ (s.actions = [.isrxempty c] → exec (.isrxempty c) s = .next { s with
        results := s.results ++ [.bool ((s.chan c).rx.read == (s.chan c).rx.write)]
        actions := [], pc := s.pc + 1 })
    ∧ (s.actions = [.isrxfull c] → exec (.isrxfull c) s = .next { s with
        results := s.results
          ++ [.bool (advance (s.chan c).rx.write s.cfg.rxCapacity == (s.chan c).rx.read)]
        actions := [], pc := s.pc + 1 })

/-- 41_transmit.md, R170 (with R292 and R314): on its request and with `gie` set, EV_UDRE hands over the
pending control byte first, else pops a data byte into `txHold`, else makes the engine Idle. -/
def Obligations.TransmitHandlerCompletes : Prop :=
  ∀ (s : State) (c : Nat) (x : Channel), x = s.chan c →
    c < s.cfg.channelCount → s.gie = true → x.active = true → x.txIE = true → x.txHold = none →
    (∀ k, s.cfg.flowControl = true → x.pending = some k →
      exec (.evUdre c) s = .next { s with ch := s.ch.set c { x with txHold := some k, pending := none } })
    ∧ ((s.cfg.flowControl = false ∨ x.pending = none) → x.tx.read ≠ x.tx.write →
      exec (.evUdre c) s = .next { s with ch := s.ch.set c { x with
        txHold := some (Memory.get x.tx.buf x.tx.read)
        tx := { buf := x.tx.buf.set x.tx.read 0, read := advance x.tx.read s.cfg.txCapacity,
                write := x.tx.write } } })
    ∧ ((s.cfg.flowControl = false ∨ x.pending = none) → x.tx.read = x.tx.write →
      exec (.evUdre c) s = .next { s with ch := s.ch.set c { x with txIE := false, txIdle := true } })

/-- R305: LINE_TX is enabled when the channel is active, its transmitter enabled and `txHold` full; it
appends the byte to `txWire` and empties `txHold`, which raises the transmit request if `txIE` is set. -/
def Obligations.LineTxCompletes : Prop :=
  ∀ (s : State) (c : Nat) (x : Channel), x = s.chan c → c < s.cfg.channelCount →
    (∀ b, x.active = true → x.txEn = true → x.txHold = some b →
      exec (.lineTx c) s = .next { s with
        ch := s.ch.set c { x with txWire := x.txWire ++ [b], txHold := none } }
      ∧ Channel.txReq { x with txWire := x.txWire ++ [b], txHold := none } = x.txIE)
    ∧ (x.active = false ∨ x.txEn = false ∨ x.txHold = none →
      exec (.lineTx c) s = .refused .eventNotEnabled)

-- The receive family

/-- 42_receive.md, R200 (with R233, R292 and R314): on its request and with `gie` set, EV_RXC empties
`rxHold`, stores the byte unless the ring is full, counts a stored byte, and calls FlowOff when flow is On
and the count is at or above the high-water mark. -/
def Obligations.ReceiveHandlerCompletes : Prop :=
  ∀ (s : State) (c : Nat) (b : Byte) (x y : Channel) (full : Bool), x = s.chan c →
    c < s.cfg.channelCount → s.gie = true → x.active = true → x.rxIE = true → x.rxHold = some b →
    full = (advance x.rx.write s.cfg.rxCapacity == x.rx.read) →
    y = { x with
      rxHold := none
      rx := if full then x.rx
        else { buf := x.rx.buf.set x.rx.write b, read := x.rx.read,
               write := advance x.rx.write s.cfg.rxCapacity }
      rxCount := if s.cfg.flowControl && !full then x.rxCount + 1 else x.rxCount } →
    (s.cfg.flowControl = true ∧ y.flowOn = true ∧ s.cfg.rxCapacity - s.cfg.flowMark ≤ y.rxCount →
      exec (.evRxc c) s = .next { s with ch := s.ch.set c { y with
        pending := some s.cfg.xoffByte, flowOn := false, txIdle := false, txIE := x.txIE || x.txIdle } })
    ∧ (¬ (s.cfg.flowControl = true ∧ y.flowOn = true ∧ s.cfg.rxCapacity - s.cfg.flowMark ≤ y.rxCount) →
      exec (.evRxc c) s = .next { s with ch := s.ch.set c y })

/-- R306: LINE_RX is enabled when the channel is active and its receiver enabled; it records the byte, and
`rxHold` takes it when empty (which raises the receive request if `rxIE` is set), else as the overrun
policy says. -/
def Obligations.LineRxCompletes : Prop :=
  ∀ (s : State) (c : Nat) (b : Byte) (x : Channel), x = s.chan c → c < s.cfg.channelCount →
    (x.active = true → x.rxEn = true →
      (x.rxHold = none →
        exec (.lineRx c b) s = .next { s with
          ch := s.ch.set c { x with rxArrived := x.rxArrived ++ [b], rxHold := some b } }
        ∧ Channel.rxReq { x with rxArrived := x.rxArrived ++ [b], rxHold := some b } = x.rxIE)
      ∧ (∀ old, x.rxHold = some old → s.cfg.rxOverrunPolicy = .overwrite →
        exec (.lineRx c b) s = .next { s with
          ch := s.ch.set c { x with rxArrived := x.rxArrived ++ [b], rxHold := some b } })
      ∧ (∀ old, x.rxHold = some old → s.cfg.rxOverrunPolicy = .dropNew →
        exec (.lineRx c b) s = .next { s with
          ch := s.ch.set c { x with rxArrived := x.rxArrived ++ [b] } }))
    ∧ (x.active = false ∨ x.rxEn = false → exec (.lineRx c b) s = .refused .eventNotEnabled)

/-- 42_receive.md, R204 (with R235): READ is fetched as one action. On an empty ring it emits 0x00 and
changes no channel; else it emits the byte at `rxRead`, zeroes its slot, advances `rxRead`, counts down,
and calls FlowOn when flow is Off and the count is at or below the low-water mark. -/
def Obligations.ReadCompletes : Prop :=
  ∀ (s : State) (c : Nat) (x y : Channel), x = s.chan c →
    y = { x with
      rx := { buf := x.rx.buf.set x.rx.read 0, read := advance x.rx.read s.cfg.rxCapacity,
              write := x.rx.write }
      rxCount := if s.cfg.flowControl then x.rxCount - 1 else x.rxCount } →
    (s.actions = [] → c < s.cfg.channelCount → x.active = true →
      exec (.read c) s = .next { s with actions := [.read c] })
    ∧ (s.actions = [.read c] → x.rx.read = x.rx.write →
      exec (.read c) s = .next { s with
        results := s.results ++ [.byte 0], actions := [], pc := s.pc + 1 })
    ∧ (s.actions = [.read c] → x.rx.read ≠ x.rx.write →
        s.cfg.flowControl = true ∧ x.flowOn = false ∧ y.rxCount ≤ s.cfg.flowMark →
      exec (.read c) s = .next { s with
        ch := s.ch.set c { y with
          pending := some s.cfg.xonByte, flowOn := true, txIdle := false, txIE := x.txIE || x.txIdle }
        results := s.results ++ [.byte (Memory.get x.rx.buf x.rx.read)]
        actions := [], pc := s.pc + 1 })
    ∧ (s.actions = [.read c] → x.rx.read ≠ x.rx.write →
        ¬ (s.cfg.flowControl = true ∧ x.flowOn = false ∧ y.rxCount ≤ s.cfg.flowMark) →
      exec (.read c) s = .next { s with
        ch := s.ch.set c y
        results := s.results ++ [.byte (Memory.get x.rx.buf x.rx.read)]
        actions := [], pc := s.pc + 1 })

/-- 42_receive.md, R205 (with R204 and R235): READB is fetched as one action, which spins while the ring
is empty and else does what READ does. -/
def Obligations.ReadbCompletes : Prop :=
  ∀ (s : State) (c : Nat) (x y : Channel), x = s.chan c →
    y = { x with
      rx := { buf := x.rx.buf.set x.rx.read 0, read := advance x.rx.read s.cfg.rxCapacity,
              write := x.rx.write }
      rxCount := if s.cfg.flowControl then x.rxCount - 1 else x.rxCount } →
    (s.actions = [] → c < s.cfg.channelCount → x.active = true →
      exec (.readb c) s = .next { s with actions := [.readb c] })
    ∧ (s.actions = [.readb c] → x.rx.read = x.rx.write → exec (.readb c) s = .next s)
    ∧ (s.actions = [.readb c] → x.rx.read ≠ x.rx.write →
        s.cfg.flowControl = true ∧ x.flowOn = false ∧ y.rxCount ≤ s.cfg.flowMark →
      exec (.readb c) s = .next { s with
        ch := s.ch.set c { y with
          pending := some s.cfg.xonByte, flowOn := true, txIdle := false, txIE := x.txIE || x.txIdle }
        results := s.results ++ [.byte (Memory.get x.rx.buf x.rx.read)]
        actions := [], pc := s.pc + 1 })
    ∧ (s.actions = [.readb c] → x.rx.read ≠ x.rx.write →
        ¬ (s.cfg.flowControl = true ∧ x.flowOn = false ∧ y.rxCount ≤ s.cfg.flowMark) →
      exec (.readb c) s = .next { s with
        ch := s.ch.set c y
        results := s.results ++ [.byte (Memory.get x.rx.buf x.rx.read)]
        actions := [], pc := s.pc + 1 })

-- Flow control

/-- 43_flow_control.md, R236 (with R232 and R234): SETFLOW is fetched as two actions. The first queues the
control byte of the state asked for, sets the state and kicks, once the slot is empty, and spins while it
is not; the second completes the command once the slot is empty again. -/
def Obligations.SetflowCompletes : Prop :=
  ∀ (s : State) (c : Nat) (on : Bool), s.cfg.flowControl = true →
    (s.actions = [] → c < s.cfg.channelCount → (s.chan c).active = true →
      exec (.setflow c on) s = .next { s with actions := [.flowQueue c on, .flowServed c] })
    ∧ (s.actions = [.flowQueue c on, .flowServed c] → (s.chan c).pending = none →
      exec (.setflow c on) s = .next { s with
        ch := s.ch.set c { s.chan c with
          pending := some (if on then s.cfg.xonByte else s.cfg.xoffByte)
          flowOn := on
          txIdle := false
          txIE := (s.chan c).txIE || (s.chan c).txIdle }
        actions := [.flowServed c] })
    ∧ (s.actions = [.flowServed c] → (s.chan c).pending = none →
      exec (.setflow c on) s = .next { s with actions := [], pc := s.pc + 1 })
    ∧ ((s.actions = [.flowQueue c on, .flowServed c] ∨ s.actions = [.flowServed c]) →
        (s.chan c).pending ≠ none → exec (.setflow c on) s = .next s)

/-- R233: the receive handler calls FlowOff exactly when, after its push attempt (a dropped byte's too),
flow is On and the count is at or above the high-water mark; else flow, slot and engine keep their state. -/
def Obligations.FlowOffExactlyAtTheHighMark : Prop :=
  ∀ (s t : State) (c : Nat), s.ch.length = s.cfg.channelCount → s.cfg.flowControl = true →
    exec (.evRxc c) s = .next t →
    (t.chan c).rxCount
        = (s.chan c).rxCount + (if (s.chan c).rx.isFull s.cfg.rxCapacity then 0 else 1)
    ∧ ((s.chan c).flowOn = true ∧ s.cfg.rxCapacity - s.cfg.flowMark ≤ (t.chan c).rxCount →
        (t.chan c).pending = some s.cfg.xoffByte ∧ (t.chan c).flowOn = false
        ∧ (t.chan c).txIdle = false ∧ (t.chan c).txIE = ((s.chan c).txIE || (s.chan c).txIdle))
    ∧ (¬ ((s.chan c).flowOn = true ∧ s.cfg.rxCapacity - s.cfg.flowMark ≤ (t.chan c).rxCount) →
        (t.chan c).pending = (s.chan c).pending ∧ (t.chan c).flowOn = (s.chan c).flowOn
        ∧ (t.chan c).txIdle = (s.chan c).txIdle ∧ (t.chan c).txIE = (s.chan c).txIE)

/-- R235: READ and READB call FlowOn exactly when they popped a byte and, after the decrement, flow is Off
and the count is at or below the low-water mark; an empty READ never calls it. -/
def Obligations.FlowOnExactlyAtTheLowMark : Prop :=
  ∀ (s t : State) (c : Nat) (i : Instr), s.ch.length = s.cfg.channelCount → c < s.cfg.channelCount →
    s.cfg.flowControl = true →
    (i = .read c ∧ s.actions = [.read c] ∨ i = .readb c ∧ s.actions = [.readb c]) →
    exec i s = .next t →
    ((s.chan c).rx.isEmpty = false ∧ (s.chan c).flowOn = false
        ∧ (s.chan c).rxCount - 1 ≤ s.cfg.flowMark →
      (t.chan c).pending = some s.cfg.xonByte ∧ (t.chan c).flowOn = true
      ∧ (t.chan c).txIdle = false ∧ (t.chan c).txIE = ((s.chan c).txIE || (s.chan c).txIdle))
    ∧ (¬ ((s.chan c).rx.isEmpty = false ∧ (s.chan c).flowOn = false
        ∧ (s.chan c).rxCount - 1 ≤ s.cfg.flowMark) →
      (t.chan c).pending = (s.chan c).pending ∧ (t.chan c).flowOn = (s.chan c).flowOn
      ∧ (t.chan c).txIdle = (s.chan c).txIdle ∧ (t.chan c).txIE = (s.chan c).txIE)

/-- R36: only `XonByte` and `XoffByte` are ever written into the pending slot, by any step. -/
def Obligations.PendingSlotTakesOnlyControlBytes : Prop :=
  ∀ (i : Instr) (s t : State) (c : Nat) (b : Byte), exec i s = .next t → (t.chan c).pending = some b →
    b = s.cfg.xonByte ∨ b = s.cfg.xoffByte ∨ (s.chan c).pending = some b

/-- 43_flow_control.md §5, hysteresis (the spec derives it at R241): with the high mark above the low mark
plus one and no SETFLOW, the band is kept (On below the high mark, Off above the low mark), flow turns Off
exactly at the high mark and On exactly at the low mark, whatever step is taken. -/
def Obligations.FlowControlHysteresis : Prop :=
  ∀ (i : Instr) (s t : State) (c : Nat), s.ch.length = s.cfg.channelCount → c < s.cfg.channelCount →
    s.cfg.flowControl = true → s.cfg.low + 1 < s.cfg.high →
    (s.chan c).active = true → (t.chan c).active = true →
    (∀ on rest, s.actions ≠ .flowQueue c on :: rest) →
    ((s.chan c).flowOn = true → (s.chan c).rxCount < s.cfg.high) →
    ((s.chan c).flowOn = false → s.cfg.low < (s.chan c).rxCount) →
    exec i s = .next t →
    ((t.chan c).flowOn = true → (t.chan c).rxCount < s.cfg.high)
    ∧ ((t.chan c).flowOn = false → s.cfg.low < (t.chan c).rxCount)
    ∧ ((s.chan c).flowOn = true → ((t.chan c).flowOn = false ↔ (t.chan c).rxCount = s.cfg.high))
    ∧ ((s.chan c).flowOn = false → ((t.chan c).flowOn = true ↔ (t.chan c).rxCount = s.cfg.low))

-- The channel multiplexer, the lifecycle and the platform

/-- R260: on a channel the block does not have, every channel command is a no-op that returns its neutral
value and writes nothing else; READB does not spin. -/
def Obligations.InvalidChannelIsANeutralNoOp : Prop :=
  ∀ (s : State) (c : Nat), s.actions = [] → s.cfg.channelCount ≤ c →
    (∀ i ∈ [Instr.haschar c, .isrxempty c, .isrxfull c, .istxfull c, .istxempty c],
      ∃ t, exec i s = .next t ∧ exec i t = .next { s with
        results := s.results ++ [.bool false], pc := s.pc + 1 })
    ∧ (∀ i ∈ [Instr.read c, .readb c],
      ∃ t, exec i s = .next t ∧ exec i t = .next { s with
        results := s.results ++ [.byte 0], pc := s.pc + 1 })
    ∧ (∀ baud, exec (.init c baud) s = .next { s with pc := s.pc + 1 })
    ∧ exec (.close c) s = .next { s with pc := s.pc + 1 }
    ∧ (∀ on, s.cfg.flowControl = true → exec (.setflow c on) s = .next { s with pc := s.pc + 1 })
    ∧ (∀ b, exec (.write c b) s = .next { s with pc := s.pc + 1 })
    ∧ (∀ v, exec (.wru16 c v) s = .next { s with pc := s.pc + 1 })

/-- R261: a command other than INIT on a channel of the block that is not active is refused. -/
def Obligations.InactiveChannelIsRefused : Prop :=
  ∀ (s : State) (i : Instr) (c : Nat), i.isEvent = false → i.channel? = some c →
    (∀ baud, i ≠ .init c baud) → (s.cfg.flowControl = true ∨ ∀ on, i ≠ .setflow c on) →
    s.actions = [] → c < s.cfg.channelCount → (s.chan c).active = false →
    exec i s = .refused (.channelNotActive c)

/-- 44_channel_mux.md, R262: INIT is fetched as one action, active channel or not. On an inactive channel it
writes every field but the buffer slots and the two traces (the flow fields in the flow-control build
only); on an active one it is refused. -/
def Obligations.InitCompletes : Prop :=
  ∀ (s : State) (c : Nat) (baud : Half) (x : Channel), x = s.chan c →
    (s.actions = [] → c < s.cfg.channelCount →
      exec (.init c baud) s = .next { s with actions := [.init c baud] })
    ∧ (s.actions = [.init c baud] → x.active = false →
      exec (.init c baud) s = .next { s with
        ch := s.ch.set c
          { rx := { buf := x.rx.buf, read := 0, write := 0 }
            tx := { buf := x.tx.buf, read := 0, write := 0 }
            txIdle := true
            flowOn := if s.cfg.flowControl then true else x.flowOn
            pending := if s.cfg.flowControl then none else x.pending
            rxCount := if s.cfg.flowControl then 0 else x.rxCount
            active := true
            baud := baud
            charSize := 8
            rxEn := true, txEn := true, rxIE := true, txIE := false
            txHold := none, rxHold := none
            txWire := x.txWire, rxArrived := x.rxArrived }
        actions := [], pc := s.pc + 1 })
    ∧ (s.actions = [.init c baud] → x.active = true →
      exec (.init c baud) s = .refused (.reinitActive c))

/-- 44_channel_mux.md, R264: CLOSE is fetched as one action, which spins until the engine is Idle and then
disables, empties and resets the channel in one step, leaving `baud`, `charSize`, the slots and the traces. -/
def Obligations.CloseCompletes : Prop :=
  ∀ (s : State) (c : Nat) (x : Channel), x = s.chan c →
    (s.actions = [] → c < s.cfg.channelCount → x.active = true →
      exec (.close c) s = .next { s with actions := [.close c] })
    ∧ (s.actions = [.close c] → x.txIdle = true →
      exec (.close c) s = .next { s with
        ch := s.ch.set c
          { rx := { buf := x.rx.buf, read := 0, write := 0 }
            tx := { buf := x.tx.buf, read := 0, write := 0 }
            txIdle := true
            flowOn := if s.cfg.flowControl then true else x.flowOn
            pending := if s.cfg.flowControl then none else x.pending
            rxCount := if s.cfg.flowControl then 0 else x.rxCount
            active := false
            baud := x.baud
            charSize := x.charSize
            rxEn := false, txEn := false, rxIE := false, txIE := false
            txHold := none, rxHold := none
            txWire := x.txWire, rxArrived := x.rxArrived }
        actions := [], pc := s.pc + 1 })
    ∧ (s.actions = [.close c] → x.txIdle = false → exec (.close c) s = .next s)

/-- R265: CHCOUNT, op 0x01, emits `ChannelCount` and needs no active channel. -/
def Obligations.ChcountCompletes : Prop :=
  decode 0x01000000 = .ok .chcount
  ∧ ∀ s : State,
    (s.actions = [] → exec .chcount s = .next { s with actions := [.chcount] })
    ∧ (s.actions = [.chcount] → exec .chcount s = .next { s with
        results := s.results ++ [.nat s.cfg.channelCount], actions := [], pc := s.pc + 1 })

/-- R270, R271: SEI, op 0x0E, sets the global interrupt flag and CLI, op 0x0F, clears it; nothing else
changes; with the flag clear no handler runs, and no step but SEI's sets it. -/
def Obligations.SeiAndCliComplete : Prop :=
  decode 0x0E000000 = .ok .sei ∧ decode 0x0F000000 = .ok .cli
  ∧ ∀ s : State,
    (s.gie = false →
      (∀ c t, exec (.evRxc c) s ≠ .next t ∧ exec (.evUdre c) s ≠ .next t)
      ∧ ∀ i t, s.actions.head? ≠ some .sei → exec i s = .next t → t.gie = false)
    ∧ (s.actions = [] → exec .sei s = .next { s with actions := [.sei] }
      ∧ exec .cli s = .next { s with actions := [.cli] })
    ∧ (s.actions = [.sei] → exec .sei s = .next { s with gie := true, actions := [], pc := s.pc + 1 })
    ∧ (s.actions = [.cli] → exec .cli s = .next { s with gie := false, actions := [], pc := s.pc + 1 })

/-- R41: the interrupt service runs a handler only when `gie` is true, only SEI's action sets it, only
CLI's clears it, and it is false at power-on. -/
def Obligations.GlobalFlagHasTwoWriters : Prop :=
  (∀ (s : State) (c : Nat), s.gie = false →
    (∀ t, exec (.evRxc c) s ≠ .next t) ∧ (∀ t, exec (.evUdre c) s ≠ .next t))
  ∧ (∀ (i : Instr) (s t : State), exec i s = .next t → t.gie ≠ s.gie →
      i.isEvent = false ∧ ((t.gie = true ∧ s.actions.head? = some .sei)
        ∨ (t.gie = false ∧ s.actions.head? = some .cli)))
  ∧ (∀ s : State, s.IsPowerOn → s.gie = false) ∧ State.reset.gie = false

/-- 44_channel_mux.md, channel independence (the spec derives R263): an instruction that names another
channel, with no action on channel d left, neither changes channel d nor depends on it. -/
def Obligations.ChannelsAreIsolated : Prop :=
  ∀ (i : Instr) (s : State) (d : Nat) (x : Channel), i.channel? ≠ some d →
    (∀ a ∈ s.actions, a.channel? ≠ some d) →
    exec i (s.setChan d x) = mapNext (fun t => t.setChan d x) (exec i s)
    ∧ ∀ t, exec i s = .next t → t.chan d = s.chan d

-- Agents, requests, the step

/-- 60_exceptions.md, R291, R292, R305, R306, R314: an event has its step exactly when its channel exists
and its condition holds; an existing channel's event is otherwise refused as not enabled, and an event of
a channel the block does not have is refused as such. -/
def Obligations.EventsRunExactlyWhenEnabled : Prop :=
  ∀ (s : State) (c : Nat) (b : Byte),
    ((∃ t, exec (.evRxc c) s = .next t) ↔ c < s.cfg.channelCount ∧ s.gie = true
      ∧ (s.chan c).active = true ∧ (s.chan c).rxIE = true ∧ (s.chan c).rxHold ≠ none)
    ∧ ((∃ t, exec (.evUdre c) s = .next t) ↔ c < s.cfg.channelCount ∧ s.gie = true
      ∧ (s.chan c).active = true ∧ (s.chan c).txIE = true ∧ (s.chan c).txHold = none)
    ∧ ((∃ t, exec (.lineRx c b) s = .next t) ↔ c < s.cfg.channelCount
      ∧ (s.chan c).active = true ∧ (s.chan c).rxEn = true)
    ∧ ((∃ t, exec (.lineTx c) s = .next t) ↔ c < s.cfg.channelCount
      ∧ (s.chan c).active = true ∧ (s.chan c).txEn = true ∧ (s.chan c).txHold ≠ none)
    ∧ ∀ i ∈ [Instr.evRxc c, .evUdre c, .lineRx c b, .lineTx c], (∀ t, exec i s ≠ .next t) →
        exec i s = .refused (if c < s.cfg.channelCount then .eventNotEnabled else .noSuchChannel (encode i))

/-- 60_exceptions.md, R294 (derived there from R305, R306, R170 and R200): a handler invocation clears the
request that caused it, and a new request needs LINE_RX, LINE_TX or a kick that sets `txIE`. -/
def Obligations.HandlersClearTheirRequest : Prop :=
  ∀ (i : Instr) (s t : State) (c : Nat), s.ch.length = s.cfg.channelCount → exec i s = .next t →
    (i = .evRxc c → (t.chan c).rxReq = false)
    ∧ (i = .evUdre c → (t.chan c).txReq = false)
    ∧ ((s.chan c).rxReq = false → (t.chan c).rxReq = true → ∃ b, i = .lineRx c b)
    ∧ ((s.chan c).txReq = false → (t.chan c).txReq = true →
        i = .lineTx c ∨ ((s.chan c).txIE = false ∧ (t.chan c).txIE = true
          ∧ (s.chan c).txIdle = true ∧ (t.chan c).txIdle = false))

/-- 60_exceptions.md, R311: a handler run outside its precondition faults, and no instruction and no step
ever faults. -/
def Obligations.NoStepFaults : Prop :=
  (∀ (c : Nat) (s : State), (s.chan c).rxIE = false ∨ (s.chan c).rxHold = none →
    rxHandler c s = .fault (.handlerOutsideRequest c))
  ∧ (∀ (c : Nat) (s : State), (s.chan c).txIE = false ∨ (s.chan c).txHold ≠ none →
    txHandler c s = .fault (.handlerOutsideRequest c))
  ∧ (∀ (i : Instr) (s : State) (f : Fault), exec i s ≠ .fault f)
  ∧ ∀ (s : State) (f : Fault), step s ≠ .fault f

/-- 60_exceptions.md, R290, R300, R314: while the machine runs, a step at a scheduled `FG` is exec of the
command that the word at `pc` decodes to, and a step at a scheduled event word is exec of its event, each
in the state with that entry taken off. The third clause is the model's choice, not a rule of the spec
(DESIGN CHOICE, log entry 4): with no entry left the step is the free turn, taken with `draws` one higher. -/
def Obligations.StepRunsTheDecodedInstruction : Prop :=
  ∀ s : State, s.refused = false → s.cfg.valid = true →
    (∀ rest w i, s.schedule = .fg :: rest → s.prog[s.pc]? = some w → decodeProgramWord s.cfg w = .ok i →
      step s = exec i { s with schedule := rest })
    ∧ (∀ rest w i, s.schedule = .event w :: rest → decodeScheduleWord s.cfg w = .ok i →
      step s = exec i { s with schedule := rest })
    ∧ (∀ turn, s.schedule = [] → s.freeTurn = some turn →
      step s = takeTurn turn { s with draws := s.draws + 1 })

/-- 60_exceptions.md, R300, R310, R314, and 30_encoding.md R115: a step refuses, with the decoder's reason,
a word that does not decode, and refuses a scheduled `FG` after the program's end. -/
def Obligations.StepRefusesUndecodableWords : Prop :=
  ∀ s : State, s.refused = false → s.cfg.valid = true →
    (∀ rest w r, s.schedule = .fg :: rest → s.actions = [] → s.prog[s.pc]? = some w →
      decodeProgramWord s.cfg w = .error r → step s = .refused r)
    ∧ (∀ rest w r, s.schedule = .event w :: rest → decodeScheduleWord s.cfg w = .error r →
      step s = .refused r)
    ∧ (∀ rest, s.schedule = .fg :: rest → s.actions = [] → s.prog.length ≤ s.pc →
      step s = .refused .eventNotEnabled)

/-- 60_exceptions.md, R290, R291, R295: an unscheduled step takes one of the enabled turns, whichever the
free value picks, and the turns it chooses from are exactly the foreground's while it has not finished and
the enabled events of the block's channels; with none enabled the run has ended (log entry 4). -/
def Obligations.UnscheduledStepTakesAnEnabledTurn : Prop :=
  ∀ s : State, s.refused = false → s.cfg.valid = true → s.schedule = [] →
    ((s.turns (Config.freeByte s.draws) = [] ∧ step s = .refused .runEnded)
      ∨ ∃ turn ∈ s.turns (Config.freeByte s.draws), step s = takeTurn turn { s with draws := s.draws + 1 })
    ∧ ∀ b, (Turn.foreground ∈ s.turns b ↔ s.finished = false)
      ∧ ∀ i, Turn.event i ∈ s.turns b ↔
          ∃ c, c < s.cfg.channelCount ∧ (i = .evRxc c ∨ i = .evUdre c ∨ i = .lineRx c b ∨ i = .lineTx c)
            ∧ ∃ t, exec i s = .next t

/-- R44: `pc` advances by exactly 1 when the last action of a command has executed, and no step writes it
otherwise; with `pc` at the program's length and no action left the foreground has finished. -/
def Obligations.PcAdvancesOnceACommand : Prop :=
  (∀ (i : Instr) (s t : State), exec i s = .next t →
    t.pc = s.pc ∨ (t.pc = s.pc + 1 ∧ t.actions = [] ∧ i.isEvent = false))
  ∧ (∀ (s u : State) (a : Action) (rest : List Action), a.guard s = true → a.body s = .ok u →
    ∃ t, s.perform a rest = .next t ∧ t.actions = rest
      ∧ t.pc = (if rest = [] then s.pc + 1 else s.pc))
  ∧ ∀ s : State, s.pc = s.prog.length → s.actions = [] → s.finished = true

/-- R95: no step writes the program; the configuration is fixed as well (00_scope.md §4). -/
def Obligations.ProgramIsFixed : Prop :=
  ∀ s t : State, step s = .next t → t.prog = s.prog ∧ t.cfg = s.cfg

/-- 60_exceptions.md, R310, with R303: a step refuses for one of the ten reasons the rule lists, or, in
the model's own terms, because the machine has refused before (log entry 5) or the run has ended (log
entry 4). A refusal of the list sets `refused`, changes nothing else, and no agent has a step after it. A
run that has ended stays as it is: not refused, and with its observation. That the outcome carries the
reason is the model's choice (log entry 5). -/
def Obligations.RefusalStopsTheMachine : Prop :=
  ∀ s : State,
    (∀ r, step s = .refused r → r.stopsModel = true ∨ (r = .stopped ∧ s.refused = true)
      ∨ (r = .runEnded ∧ s.refused = false))
    ∧ (∀ r, step s = .refused r → r.stopsModel = true →
        s.after = { s with refused := true } ∧ step s.after = .refused .stopped)
    ∧ (s.refused = true → step s = .refused .stopped ∧ s.after = s)
    ∧ (step s = .refused .runEnded →
        s.after = s ∧ s.quiescent = true ∧ s.after.observation = some (s.results, s.ch))

/-- 00_scope.md, R6 to R11, and 70_reset_and_hazards.md R334: a configuration outside the admitted values
is refused before any step. That the bounds on FlowMark and the control pair hold in both builds is the
model's reading (log entry 7). -/
def Obligations.InvalidConfigurationIsRefused : Prop :=
  (∀ cfg : Config, cfg.valid = true ↔
    (1 ≤ cfg.channelCount ∧ cfg.channelCount ≤ 255) ∧ 2 ≤ cfg.rxCapacity ∧ 2 ≤ cfg.txCapacity
    ∧ (cfg.flowControl = true → 8 ≤ cfg.rxCapacity ∧ 8 ≤ cfg.txCapacity)
    ∧ (1 ≤ cfg.flowMark ∧ cfg.flowMark ≤ cfg.rxCapacity - 1) ∧ cfg.xonByte ≠ cfg.xoffByte)
  ∧ ∀ s : State, s.refused = false → s.cfg.valid = false → step s = .refused .configInvalid

-- Reset

/-- 70_reset_and_hazards.md, R330, R331: State.reset is a power-on state, and in every power-on state no
agent but the foreground has a step. 00_scope.md §4 (R6, R11; decisions D21, D31): the configuration at
reset is admitted and has the decided control bytes, whose values the spec takes from general knowledge
(PRESUMED, log entry 13), and the decided overrun policy. That reset has this one configuration is the
model's choice (DESIGN CHOICE, log entry 1). -/
def Obligations.PowerOnHasOnlyTheForeground : Prop :=
  State.reset.IsPowerOn ∧ State.reset.cfg.valid = true
  ∧ State.reset.cfg.xonByte = 0x11 ∧ State.reset.cfg.xoffByte = 0x13
  ∧ State.reset.cfg.rxOverrunPolicy = .dropNew
  ∧ ∀ s : State, s.IsPowerOn →
      (∀ i t, i.isEvent = true → exec i s ≠ .next t) ∧ ∀ b, ∀ turn ∈ s.turns b, turn = .foreground

/-- The invariant holds at reset (10_state.md §8 and 70_reset_and_hazards.md §1). -/
def Obligations.ResetSatisfiesTheInvariant : Prop := State.reset.Inv

/-- 10_state.md §8, the invariants of R48 with what keeps them (an admitted configuration, a peripheral at
rest on an inactive channel, a command in progress): every power-on state has them and every step, of
any agent, keeps them. -/
def Obligations.EveryStepKeepsTheInvariant : Prop :=
  (∀ s : State, s.IsPowerOn → s.cfg.valid = true → s.Inv)
  ∧ ∀ s t : State, s.Inv → step s = .next t → t.Inv

/-- 10_state.md §7 (R47, R147): in reachable states, what power-on leaves unspecified is never observed:
two machines that differ only there take the same step, with the same refusal or with next states that
again differ only there. -/
def Obligations.PowerOnValuesAreNeverObserved : Prop :=
  (∀ s t : State, s.IsPowerOn → t.IsPowerOn → s.cfg = t.cfg → s.prog = t.prog →
    s.schedule = t.schedule → s.draws = t.draws → s.Alike t)
  ∧ ∀ s t : State, s.Inv → t.Inv → s.Alike t → SameOutcome (step s) (step t)

-- Whole-machine rules

/-- 41_transmit.md §4 (the spec derives R169): in reachable states, the transmit handler and LINE_TX keep
the stream of bytes sent and about to be sent, a WRITE or a digit appends its byte to it, and no other
step touches the wire, the data register or the transmit buffer. -/
def Obligations.TransmittedBytesKeepTheirOrder : Prop :=
  ∀ (i : Instr) (s t : State) (c : Nat), s.Inv → c < s.cfg.channelCount → (s.chan c).active = true →
    exec i s = .next t →
    ((i = .evUdre c ∨ i = .lineTx c) → (t.chan c).sent s.cfg = (s.chan c).sent s.cfg)
    ∧ (∀ b rest, i.isEvent = false → (s.actions = .write c b :: rest ∨ s.actions = .digit c b :: rest) →
        (s.chan c).tx.isFull s.cfg.txCapacity = false →
        (t.chan c).sent s.cfg = (s.chan c).sent s.cfg ++ [b])
    ∧ (i ≠ .evUdre c → i ≠ .lineTx c →
        (i.isEvent = true ∨ ∀ b rest, s.actions ≠ .write c b :: rest ∧ s.actions ≠ .digit c b :: rest) →
        (t.chan c).txWire = (s.chan c).txWire ∧ (t.chan c).txHold = (s.chan c).txHold
        ∧ (t.chan c).tx.contents s.cfg.txCapacity = (s.chan c).tx.contents s.cfg.txCapacity)

/-- 42_receive.md §3 (the spec derives R207): in reachable states, the receive handler keeps the stream of
bytes received and unread, but for a byte dropped on a full buffer; LINE_RX appends to it, but for a
hardware overrun; READ and READB take its first byte and emit it; no other step touches it. -/
def Obligations.ReceivedBytesKeepTheirOrder : Prop :=
  ∀ (i : Instr) (s t : State) (c : Nat), s.Inv → c < s.cfg.channelCount →
    (s.chan c).active = true → (t.chan c).active = true → exec i s = .next t →
    (i = .evRxc c →
      (t.chan c).unread s.cfg = (if (s.chan c).rx.isFull s.cfg.rxCapacity
        then (s.chan c).rx.contents s.cfg.rxCapacity else (s.chan c).unread s.cfg))
    ∧ (∀ b, i = .lineRx c b → (t.chan c).rxArrived = (s.chan c).rxArrived ++ [b]
      ∧ ((s.chan c).rxHold = none → (t.chan c).unread s.cfg = (s.chan c).unread s.cfg ++ [b])
      ∧ ((s.chan c).rxHold ≠ none → s.cfg.rxOverrunPolicy = .dropNew →
          (t.chan c).unread s.cfg = (s.chan c).unread s.cfg)
      ∧ ((s.chan c).rxHold ≠ none → s.cfg.rxOverrunPolicy = .overwrite →
          (t.chan c).unread s.cfg = (s.chan c).rx.contents s.cfg.rxCapacity ++ [b]))
    ∧ (∀ rest, i.isEvent = false → (s.actions = .read c :: rest ∨ s.actions = .readb c :: rest) →
        (s.chan c).rx.isEmpty = false →
        ∃ b, (s.chan c).unread s.cfg = b :: (t.chan c).unread s.cfg ∧ t.results = s.results ++ [.byte b])
    ∧ (i ≠ .evRxc c → (∀ b, i ≠ .lineRx c b) →
        (i.isEvent = true ∨ ∀ rest, s.actions ≠ .read c :: rest ∧ s.actions ≠ .readb c :: rest) →
        (t.chan c).unread s.cfg = (s.chan c).unread s.cfg ∧ (t.chan c).rxArrived = (s.chan c).rxArrived)

/-- 20_memory.md, R87 and R88, the writers' columns: which agent's step can change each field that a
channel's two contexts share; `s.acts i p` is a foreground step whose action is of the kind `p`. -/
def Obligations.SharedFieldsHaveTheirWriters : Prop :=
  ∀ (i : Instr) (s t : State) (c : Nat) (x y : Channel), x = s.chan c → y = t.chan c → exec i s = .next t →
    (y.rx.write ≠ x.rx.write → i = .evRxc c ∨ s.acts i (Action.isLifecycle c))
    ∧ (y.rx.read ≠ x.rx.read → s.acts i (Action.isTake c) ∨ s.acts i (Action.isLifecycle c))
    ∧ (y.rx.buf ≠ x.rx.buf → i = .evRxc c ∨ s.acts i (Action.isTake c))
    ∧ (y.tx.write ≠ x.tx.write → s.acts i (Action.isSend c) ∨ s.acts i (Action.isLifecycle c))
    ∧ (y.tx.read ≠ x.tx.read → i = .evUdre c ∨ s.acts i (Action.isLifecycle c))
    ∧ (y.tx.buf ≠ x.tx.buf → i = .evUdre c ∨ s.acts i (Action.isSend c))
    ∧ (y.txIdle ≠ x.txIdle ∨ y.txIE ≠ x.txIE → i = .evRxc c ∨ i = .evUdre c ∨ s.acts i (Action.isSend c)
        ∨ s.acts i (Action.isTake c) ∨ s.acts i (Action.isFlowQueue c) ∨ s.acts i (Action.isLifecycle c))
    ∧ (y.pending ≠ x.pending → i = .evRxc c ∨ i = .evUdre c ∨ s.acts i (Action.isTake c)
        ∨ s.acts i (Action.isFlowQueue c) ∨ s.acts i (Action.isLifecycle c))
    ∧ (y.flowOn ≠ x.flowOn → i = .evRxc c ∨ s.acts i (Action.isTake c)
        ∨ s.acts i (Action.isFlowQueue c) ∨ s.acts i (Action.isLifecycle c))
    ∧ (y.rxCount ≠ x.rxCount → i = .evRxc c ∨ s.acts i (Action.isTake c) ∨ s.acts i (Action.isLifecycle c))

/-- 70_reset_and_hazards.md, R337 (the spec derives it): no other agent can empty the receive buffer, so
after a HASCHAR that emitted true the oldest byte held stays the oldest until the foreground reads. -/
def Obligations.OnlyTheForegroundEmptiesTheReceiveBuffer : Prop :=
  ∀ (i : Instr) (s t : State) (c : Nat), s.Inv → c < s.cfg.channelCount → i.isEvent = true →
    exec i s = .next t → (s.chan c).rx.isEmpty = false →
    (t.chan c).rx.isEmpty = false
    ∧ ((t.chan c).rx.contents s.cfg.rxCapacity).head? = ((s.chan c).rx.contents s.cfg.rxCapacity).head?

/-- 10_state.md, R37: in reachable states of the flow-control build the count of an active channel is below
the capacity, so no saturation takes effect. -/
def Obligations.CountStaysBelowTheCapacity : Prop :=
  ∀ (s : State) (c : Nat), s.Inv → c < s.cfg.channelCount → s.cfg.flowControl = true →
    (s.chan c).active = true →
    (s.chan c).rxCount ≤ s.cfg.rxCapacity - 1
    ∧ (s.chan c).rxCount = ((s.chan c).rx.contents s.cfg.rxCapacity).length

/-- 70_reset_and_hazards.md, R335 (the spec derives it): with `gie` false a wait whose guard is false is a
hang: whatever agents step, and however often, the guard stays false and the command stays where it is. -/
def Obligations.MaskedWaitsNeverEnd : Prop :=
  ∀ (n : Nat) (s t : State) (a : Action) (rest : List Action), s.gie = false → s.actions = a :: rest →
    a.guard s = false → Sys2Proof.core.run n s = .next t →
    t.actions = s.actions ∧ t.pc = s.pc ∧ t.gie = false ∧ a.guard t = false ∧ t.results = s.results

/-- 70_reset_and_hazards.md §7, R345 (the spec derives it), with the order of R169: from Draining with an empty
data register and n bytes to send, the control byte first, n handler invocations with a line step after
each and one invocation more make the engine Idle, with those bytes on the wire in order; before that it
is Draining. -/
def Obligations.DrainingTakesOneInvocationMore : Prop :=
  ∀ (n c : Nat) (s : State) (rest : List Entry), s.Inv → c < s.cfg.channelCount → s.gie = true →
    (s.chan c).active = true → (s.chan c).txIdle = false → (s.chan c).txHold = none →
    n = ((s.chan c).sent s.cfg).length - (s.chan c).txWire.length →
    s.schedule = drainSchedule c n ++ rest →
    (∀ k, k ≤ 2 * n → ∃ u, Sys2Proof.core.run k s = .next u ∧ (State.chan u c).txIdle = false)
    ∧ ∃ t, Sys2Proof.core.run (2 * n + 1) s = .next t ∧ (State.chan t c).txIdle = true
      ∧ (State.chan t c).txWire = (s.chan c).sent s.cfg

/-- 60_exceptions.md, R303, with 10_state.md §8: at a quiescent reachable state with `gie` set, every active
channel has sent everything and taken every arrived byte. -/
def Obligations.QuiescentChannelsAreDrained : Prop :=
  ∀ (s : State) (c : Nat), s.Inv → s.quiescent = true → s.gie = true → c < s.cfg.channelCount →
    (s.chan c).active = true →
    (s.chan c).txIdle = true ∧ (s.chan c).txHold = none ∧ (s.chan c).rxHold = none
    ∧ (s.chan c).sent s.cfg = (s.chan c).txWire

/-- 20_memory.md, R83: in the split form the high register receives `baud[15:8]` and the low one
`baud[7:0]`; in the single form one register receives the value. -/
def Obligations.BaudReachesThePeripheralWhole : Prop :=
  ∀ baud : Half,
    baudPort .single16 baud = .single baud
    ∧ ∃ high low, baudPort .splitPair baud = .split high low
      ∧ baud.toNat = high.toNat * 256 + low.toNat

/-- 30_encoding.md, R119: a channel is a decimal number 0 to 255; a byte or value is a decimal number, a
`0x` number or a quoted character below its field's limit; a number at or above the limit reads as nothing.
Each mnemonic takes exactly its operands, spells nothing unless they read, and the instruction built has
the channel and the number that were read, unchanged. The digits of a number read as that number. The last
clause says it of a line of text. The model's own, not R119's (log entry 12): `on` and `off` in lower case
only, mnemonics in capitals only, `0x` in lower case (DESIGN CHOICE), and the ASCII code a quoted character
stands for, below 128 (PRESUMED; the spec marks it as general knowledge, K1). -/
def Obligations.AssembledInstructionsFitTheirFields : Prop :=
  (∀ (o : Operand) (c : Nat), readChannel o = some c ↔
    ∃ cs, o = .plain cs ∧ readBase 10 cs = some c ∧ c < 256)
  ∧ (∀ (limit : Nat) (o : Operand) (n : Nat), readValue limit o = some n ↔
      (∃ cs, o = .plain cs ∧ readNumber cs = some n ∧ n < limit)
      ∨ ∃ ch : Char, o = .quoted ch ∧ ch.toNat = n ∧ n < 128 ∧ n < limit)
  ∧ (∀ n : Nat, readBase 10 (Nat.toDigits 10 n) = some n ∧ readNumber (Nat.toDigits 10 n) = some n
      ∧ readNumber ('0' :: 'x' :: Nat.toDigits 16 n) = some n)
  ∧ (∀ (cs : List Char) (n : Nat), readBase 10 cs = some n → 256 ≤ n → readChannel (.plain cs) = none)
  ∧ (∀ (limit : Nat) (cs : List Char) (n : Nat), readNumber cs = some n → limit ≤ n →
      readValue limit (.plain cs) = none)
  ∧ (∀ (o : Operand) (on : Bool), readFlag o = some on ↔ (on = true ∧ (o = .plain ['o', 'n'] ∨ o = .plain ['1']))
      ∨ (on = false ∧ (o = .plain ['o', 'f', 'f'] ∨ o = .plain ['0'])))
  ∧ (∀ i ∈ [Instr.chcount, .sei, .cli], ∀ ops j, buildInstr i ops = some j ↔ ops = [] ∧ j = i)
  ∧ (∀ f ∈ [Instr.close, .haschar, .read, .readb, .isrxfull, .isrxempty, .istxfull, .istxempty, .evRxc,
        .evUdre, .lineTx], ∀ a ops j,
      buildInstr (f a) ops = some j ↔ ∃ o c, ops = [o] ∧ readChannel o = some c ∧ j = f c)
  ∧ (∀ f ∈ [Instr.init, .wru16], ∀ a b ops j,
      buildInstr (f a b) ops = some j ↔ ∃ o p c, ∃ v : Half,
        ops = [o, p] ∧ readChannel o = some c ∧ readValue 65536 p = some v.toNat ∧ j = f c v)
  ∧ (∀ f ∈ [Instr.write, .lineRx], ∀ a b ops j,
      buildInstr (f a b) ops = some j ↔ ∃ o p c, ∃ v : Byte,
        ops = [o, p] ∧ readChannel o = some c ∧ readValue 256 p = some v.toNat ∧ j = f c v)
  ∧ (∀ a b ops j, buildInstr (.setflow a b) ops = some j ↔
      ∃ o p c on, ops = [o, p] ∧ readChannel o = some c ∧ readFlag p = some on ∧ j = .setflow c on)
  ∧ (∀ (cfg : Config), ∀ r ∈ opTable, ∀ ops,
      spell cfg r.mnemonic.toList ops = (buildInstr (r.build 0 0) ops).map (fun i => [i]))
  ∧ ∀ (cfg : Config) (line : List Char) (is : List Instr), assembleLine cfg line = some is →
      ∀ i ∈ is, i.wf = true
end

