-- ==== Sys2Proof/Laws/Encoding.lean ====
section
/-! SUPPORT. The three fields of a word built from its fields, and that no two rows of the opcode map
overlap (spec/30_encoding.md R110, R114). -/

namespace Sys2Proof

@[simp] theorem opField_fields (op : BitVec 8) (c : Nat) (imm : Half) : opField (fields op c imm) = op := by
  ext i hi
  simp only [opField, fields, BitVec.getElem_extractLsb', BitVec.getLsbD_append]
  have : ¬ (24 + i < 16) := by omega
  have h2 : ¬ (24 + i - 16 < 8) := by omega
  simp [this, h2, show 24 + i - 16 - 8 = i by omega, BitVec.getLsbD_eq_getElem hi]

@[simp] theorem chField_fields (op : BitVec 8) (c : Nat) (imm : Half) : chField (fields op c imm) = c % 256 := by
  have : (fields op c imm).extractLsb' 16 8 = BitVec.ofNat 8 c := by
    ext i hi
    simp only [fields, BitVec.getElem_extractLsb', BitVec.getLsbD_append]
    have : ¬ (16 + i < 16) := by omega
    simp [this, show 16 + i - 16 = i by omega, hi]
  rw [chField, this, BitVec.toNat_ofNat]

@[simp] theorem immField_fields (op : BitVec 8) (c : Nat) (imm : Half) : immField (fields op c imm) = imm := by
  ext i hi
  simp only [immField, fields, BitVec.getElem_extractLsb', BitVec.getLsbD_append]
  simp [BitVec.getLsbD_eq_getElem hi, show ¬ 16 ≤ i by omega]

@[simp] theorem immByte_byteImm (b : Byte) : immByte (byteImm b) = b := by
  ext i hi
  simp only [immByte, byteImm, BitVec.getElem_extractLsb', BitVec.getLsbD_append]
  simp [hi]

@[simp] theorem immFlag_flagImm (on : Bool) : immFlag (flagImm on) = on := by
  cases on <;> rfl

/-- No two rows of the opcode map overlap: their opcodes differ (R114). -/
theorem opTable_pairwise : opTable.Pairwise (fun r r' => r.op ≠ r'.op) := by
  simp [opTable]

/-- Each row's pattern holds its own opcode, and its mask covers the opcode field (R114). -/
theorem opTable_patterns : ∀ r ∈ opTable, opField r.pat = r.op ∧ opField r.mask = 0xFF := by
  simp [opTable, opField]

end Sys2Proof
end

