-- ==== Sys2Proof/Laws/State.lean ====
section
/-! SUPPORT. One lemma a field for every named update of the state, and what reading `ch[c]` gives after
one, so that no later proof unfolds a record update. -/

namespace Sys2Proof.Machine

-- setChan

@[simp] theorem State.setChan_cfg (s : State) (c : Nat) (x : Channel) : (s.setChan c x).cfg = s.cfg := rfl
@[simp] theorem State.setChan_ch (s : State) (c : Nat) (x : Channel) : (s.setChan c x).ch = s.ch.set c x := rfl
@[simp] theorem State.setChan_gie (s : State) (c : Nat) (x : Channel) : (s.setChan c x).gie = s.gie := rfl
@[simp] theorem State.setChan_prog (s : State) (c : Nat) (x : Channel) : (s.setChan c x).prog = s.prog := rfl
@[simp] theorem State.setChan_pc (s : State) (c : Nat) (x : Channel) : (s.setChan c x).pc = s.pc := rfl
@[simp] theorem State.setChan_actions (s : State) (c : Nat) (x : Channel) : (s.setChan c x).actions = s.actions := rfl
@[simp] theorem State.setChan_results (s : State) (c : Nat) (x : Channel) : (s.setChan c x).results = s.results := rfl
@[simp] theorem State.setChan_refused (s : State) (c : Nat) (x : Channel) : (s.setChan c x).refused = s.refused := rfl
@[simp] theorem State.setChan_schedule (s : State) (c : Nat) (x : Channel) : (s.setChan c x).schedule = s.schedule := rfl
@[simp] theorem State.setChan_draws (s : State) (c : Nat) (x : Channel) : (s.setChan c x).draws = s.draws := rfl

-- onChan

@[simp] theorem State.onChan_cfg (s : State) (c : Nat) (f : Channel → Channel) : (s.onChan c f).cfg = s.cfg := rfl
@[simp] theorem State.onChan_ch (s : State) (c : Nat) (f : Channel → Channel) : (s.onChan c f).ch = s.ch.set c (f (s.chan c)) := rfl
@[simp] theorem State.onChan_gie (s : State) (c : Nat) (f : Channel → Channel) : (s.onChan c f).gie = s.gie := rfl
@[simp] theorem State.onChan_prog (s : State) (c : Nat) (f : Channel → Channel) : (s.onChan c f).prog = s.prog := rfl
@[simp] theorem State.onChan_pc (s : State) (c : Nat) (f : Channel → Channel) : (s.onChan c f).pc = s.pc := rfl
@[simp] theorem State.onChan_actions (s : State) (c : Nat) (f : Channel → Channel) : (s.onChan c f).actions = s.actions := rfl
@[simp] theorem State.onChan_results (s : State) (c : Nat) (f : Channel → Channel) : (s.onChan c f).results = s.results := rfl
@[simp] theorem State.onChan_refused (s : State) (c : Nat) (f : Channel → Channel) : (s.onChan c f).refused = s.refused := rfl
@[simp] theorem State.onChan_schedule (s : State) (c : Nat) (f : Channel → Channel) : (s.onChan c f).schedule = s.schedule := rfl
@[simp] theorem State.onChan_draws (s : State) (c : Nat) (f : Channel → Channel) : (s.onChan c f).draws = s.draws := rfl

-- emit

@[simp] theorem State.emit_cfg (s : State) (v : Value) : (s.emit v).cfg = s.cfg := rfl
@[simp] theorem State.emit_ch (s : State) (v : Value) : (s.emit v).ch = s.ch := rfl
@[simp] theorem State.emit_gie (s : State) (v : Value) : (s.emit v).gie = s.gie := rfl
@[simp] theorem State.emit_prog (s : State) (v : Value) : (s.emit v).prog = s.prog := rfl
@[simp] theorem State.emit_pc (s : State) (v : Value) : (s.emit v).pc = s.pc := rfl
@[simp] theorem State.emit_actions (s : State) (v : Value) : (s.emit v).actions = s.actions := rfl
@[simp] theorem State.emit_results (s : State) (v : Value) : (s.emit v).results = s.results ++ [v] := rfl
@[simp] theorem State.emit_refused (s : State) (v : Value) : (s.emit v).refused = s.refused := rfl
@[simp] theorem State.emit_schedule (s : State) (v : Value) : (s.emit v).schedule = s.schedule := rfl
@[simp] theorem State.emit_draws (s : State) (v : Value) : (s.emit v).draws = s.draws := rfl

-- proceed

@[simp] theorem State.proceed_cfg (s : State) (rest : List Action) : (s.proceed rest).cfg = s.cfg := rfl
@[simp] theorem State.proceed_ch (s : State) (rest : List Action) : (s.proceed rest).ch = s.ch := rfl
@[simp] theorem State.proceed_gie (s : State) (rest : List Action) : (s.proceed rest).gie = s.gie := rfl
@[simp] theorem State.proceed_prog (s : State) (rest : List Action) : (s.proceed rest).prog = s.prog := rfl
@[simp] theorem State.proceed_pc (s : State) (rest : List Action) : (s.proceed rest).pc = if rest.isEmpty then s.pc + 1 else s.pc := rfl
@[simp] theorem State.proceed_actions (s : State) (rest : List Action) : (s.proceed rest).actions = rest := rfl
@[simp] theorem State.proceed_results (s : State) (rest : List Action) : (s.proceed rest).results = s.results := rfl
@[simp] theorem State.proceed_refused (s : State) (rest : List Action) : (s.proceed rest).refused = s.refused := rfl
@[simp] theorem State.proceed_schedule (s : State) (rest : List Action) : (s.proceed rest).schedule = s.schedule := rfl
@[simp] theorem State.proceed_draws (s : State) (rest : List Action) : (s.proceed rest).draws = s.draws := rfl

-- Reading a channel

@[simp] theorem State.chan_emit (s : State) (v : Value) (c : Nat) : (s.emit v).chan c = s.chan c := rfl

@[simp] theorem State.chan_proceed (s : State) (rest : List Action) (c : Nat) :
    (s.proceed rest).chan c = s.chan c := rfl

theorem State.chan_setChan_same (s : State) (c : Nat) (x : Channel) (h : c < s.ch.length) :
    (s.setChan c x).chan c = x := by
  simp [State.chan, List.getD, h]

theorem State.chan_setChan_other (s : State) (c d : Nat) (x : Channel) (h : d ≠ c) :
    (s.setChan c x).chan d = s.chan d := by
  simp [State.chan, List.getD, List.getElem?_set_ne (Ne.symm h)]

theorem State.chan_onChan_same (s : State) (c : Nat) (f : Channel → Channel) (h : c < s.ch.length) :
    (s.onChan c f).chan c = f (s.chan c) := s.chan_setChan_same c _ h

theorem State.chan_onChan_other (s : State) (c d : Nat) (f : Channel → Channel) (h : d ≠ c) :
    (s.onChan c f).chan d = s.chan d := s.chan_setChan_other c d _ h

/-- An update outside the array changes nothing. -/
theorem State.setChan_outside (s : State) (c : Nat) (x : Channel) (h : s.ch.length ≤ c) :
    s.setChan c x = s := by
  simp [State.setChan, List.set_eq_of_length_le h]

theorem State.chan_mem (s : State) (c : Nat) (h : c < s.ch.length) : s.chan c ∈ s.ch := by
  simp [State.chan, List.getD, h]

/-- Whatever an update does to `ch[c]`, every channel afterwards is the updated one or was there. -/
theorem State.mem_setChan (s : State) (c : Nat) (x y : Channel) (h : y ∈ (s.setChan c x).ch) :
    y = x ∨ y ∈ s.ch := (List.mem_or_eq_of_mem_set h).symm

end Sys2Proof.Machine
end

