-- ==== Sys2Proof/Laws/Foreground.lean ====
section
/-! SUPPORT. What one foreground step, one event and one handler can do, said once, so that proofs about
an instruction cite these and do not unfold the shared operations. -/

namespace Sys2Proof.Machine

-- One action

/-- All an action step that answers next can do: execute, or spin. -/
theorem State.perform_next {s t : State} {a : Action} {rest : List Action} (h : s.perform a rest = .next t) :
    (a.guard s = true ∧ ∃ u, a.body s = .ok u ∧ t = u.proceed rest) ∨ (a.guard s = false ∧ t = s) := by
  unfold State.perform at h
  cases hg : a.guard s with
  | false => simp only [hg, Bool.false_eq_true, if_false, Host.Outcome.next.injEq] at h; exact .inr ⟨rfl, h.symm⟩
  | true =>
    simp only [hg, if_true] at h
    cases hb : a.body s with
    | error r => simp [hb] at h
    | ok u => simp only [hb, Host.Outcome.next.injEq] at h; exact .inl ⟨rfl, u, rfl, h.symm⟩

theorem State.perform_fires {s u : State} {a : Action} {rest : List Action} (hg : a.guard s = true)
    (hb : a.body s = .ok u) : s.perform a rest = .next (u.proceed rest) := by
  simp [State.perform, hg, hb]

theorem State.perform_spins {s : State} {a : Action} {rest : List Action} (hg : a.guard s = false) :
    s.perform a rest = .next s := by
  simp [State.perform, hg]

theorem State.perform_no_fault (s : State) (a : Action) (rest : List Action) (r : Fault) :
    s.perform a rest ≠ .fault r := by
  unfold State.perform
  split
  · split <;> simp
  · simp

-- One command

/-- Inside a command its plan plays no part. -/
theorem State.command_inside {s : State} {a : Action} {rest : List Action} (plan : Except Refusal (List Action))
    (h : s.actions = a :: rest) : s.command plan = s.perform a rest := by
  simp [State.command, h]

theorem State.command_fetch {s : State} {own : List Action} (h : s.actions = []) :
    s.command (.ok own) = .next (s.proceed own) := by
  simp [State.command, h]

theorem State.command_refuse {s : State} {r : Refusal} (h : s.actions = []) :
    s.command (.error r) = .refused r := by
  simp [State.command, h]

/-- All a command's step that answers next can do: fetch, execute, or spin. -/
theorem State.command_next {s t : State} {plan : Except Refusal (List Action)} (h : s.command plan = .next t) :
    (s.actions = [] ∧ ∃ own, plan = .ok own ∧ t = s.proceed own) ∨
    (∃ a rest, s.actions = a :: rest ∧ a.guard s = true ∧ ∃ u, a.body s = .ok u ∧ t = u.proceed rest) ∨
    (s.actions ≠ [] ∧ t = s) := by
  cases ha : s.actions with
  | nil =>
    cases plan with
    | error r => simp [State.command, ha] at h
    | ok own => simp only [State.command, ha, Host.Outcome.next.injEq] at h; exact .inl ⟨rfl, own, rfl, h.symm⟩
  | cons a rest =>
    rw [State.command_inside plan ha] at h
    obtain ⟨hg, u, hb, rfl⟩ | ⟨-, rfl⟩ := State.perform_next h
    · exact .inr (.inl ⟨a, rest, rfl, hg, u, hb, rfl⟩)
    · exact .inr (.inr ⟨by simp, rfl⟩)

theorem State.prologue_valid {s : State} {c : Nat} (neutral own : List Action) (hc : c < s.cfg.channelCount)
    (ha : (s.chan c).active = true) : s.prologue c neutral own = .ok own := by
  simp [State.prologue, hc, ha]

theorem State.prologue_invalid {s : State} {c : Nat} (neutral own : List Action) (hc : s.cfg.channelCount ≤ c) :
    s.prologue c neutral own = .ok neutral := by
  simp [State.prologue, Nat.not_lt.mpr hc]

theorem State.prologue_inactive {s : State} {c : Nat} (neutral own : List Action) (hc : c < s.cfg.channelCount)
    (ha : (s.chan c).active = false) : s.prologue c neutral own = .error (.channelNotActive c) := by
  simp [State.prologue, hc, ha]

-- Events

/-- All an event that answers next can do: its condition held and its step ran. -/
theorem State.event_next {s t : State} {w : Word} {c : Nat} {enabled : Bool} {run : State → Result}
    (h : s.event w c enabled run = .next t) : c < s.cfg.channelCount ∧ enabled = true ∧ run s = .next t := by
  unfold State.event at h
  split at h
  · next hc =>
    cases enabled with
    | false => simp at h
    | true => exact ⟨hc, rfl, by simpa using h⟩
  · simp at h

theorem State.event_runs {s : State} {w : Word} {c : Nat} {enabled : Bool} (run : State → Result)
    (hc : c < s.cfg.channelCount) (he : enabled = true) : s.event w c enabled run = run s := by
  simp [State.event, hc, he]

/-- The transmit handler on its request. -/
theorem txHandler_on_request {s : State} {c : Nat} (h : (s.chan c).txReq = true) :
    txHandler c s = .next (s.onChan c (Channel.serveTx s.cfg)) := by
  simp only [Channel.txReq, Bool.and_eq_true] at h
  simp [txHandler, h.1.2, h.2]

/-- The receive handler on its request. -/
theorem rxHandler_on_request {s : State} {c : Nat} (h : (s.chan c).rxReq = true) :
    ∃ b, (s.chan c).rxHold = some b ∧ rxHandler c s = .next (s.onChan c (Channel.serveRx s.cfg b)) := by
  simp only [Channel.rxReq, Channel.rxc, Bool.and_eq_true, Option.isSome_iff_exists] at h
  obtain ⟨⟨-, hie⟩, b, hb⟩ := h
  exact ⟨b, hb, by simp [rxHandler, hb, hie]⟩

-- One inversion lemma for each event's meaning

theorem execEvRxc_next {s t : State} {c : Nat} (h : exec (.evRxc c) s = .next t) :
    c < s.cfg.channelCount ∧ s.gie = true ∧ (s.chan c).rxReq = true ∧
    ∃ b, (s.chan c).rxHold = some b ∧ t = s.onChan c (Channel.serveRx s.cfg b) := by
  obtain ⟨hc, he, hr⟩ := State.event_next (show s.event _ c _ _ = .next t from h)
  simp only [Bool.and_eq_true] at he
  obtain ⟨b, hb, e⟩ := rxHandler_on_request he.2
  rw [e] at hr
  cases hr
  exact ⟨hc, he.1, he.2, b, hb, rfl⟩

theorem execEvUdre_next {s t : State} {c : Nat} (h : exec (.evUdre c) s = .next t) :
    c < s.cfg.channelCount ∧ s.gie = true ∧ (s.chan c).txReq = true ∧ t = s.onChan c (Channel.serveTx s.cfg) := by
  obtain ⟨hc, he, hr⟩ := State.event_next (show s.event _ c _ _ = .next t from h)
  simp only [Bool.and_eq_true] at he
  rw [txHandler_on_request he.2] at hr
  cases hr
  exact ⟨hc, he.1, he.2, rfl⟩

theorem execLineRx_next {s t : State} {c : Nat} {b : Byte} (h : exec (.lineRx c b) s = .next t) :
    c < s.cfg.channelCount ∧ (s.chan c).lineRxReady = true ∧ t = s.onChan c (Channel.lineRx s.cfg b) := by
  simp only [exec, execLineRx] at h
  obtain ⟨hc, he, hr⟩ := State.event_next h
  cases hr
  exact ⟨hc, he, rfl⟩

theorem execLineTx_next {s t : State} {c : Nat} (h : exec (.lineTx c) s = .next t) :
    c < s.cfg.channelCount ∧ (s.chan c).lineTxReady = true ∧ t = s.onChan c Channel.lineTx := by
  simp only [exec, execLineTx] at h
  obtain ⟨hc, he, hr⟩ := State.event_next h
  cases hr
  exact ⟨hc, he, rfl⟩

end Sys2Proof.Machine
end

