-- ==== Sys2Proof/Laws/PerInstr.lean ====
section
/-! SUPPORT. Statements about every instruction as syntax, one lemma a constructor.
Family `Fields`: the word of a well-formed instruction holds its row's opcode and its channel
(spec/30_encoding.md R110, R111, R113). -/

namespace Sys2Proof.Laws

/-- R113: the opcode of an instruction's row. -/
def opcodeOf : Instr → BitVec 8
  | .chcount => 0x01
  | .init _ _ => 0x02
  | .close _ => 0x03
  | .setflow _ _ => 0x04
  | .haschar _ => 0x05
  | .read _ => 0x06
  | .readb _ => 0x07
  | .isrxfull _ => 0x08
  | .isrxempty _ => 0x09
  | .write _ _ => 0x0A
  | .wru16 _ _ => 0x0B
  | .istxfull _ => 0x0C
  | .istxempty _ => 0x0D
  | .sei => 0x0E
  | .cli => 0x0F
  | .evRxc _ => 0x80
  | .evUdre _ => 0x81
  | .lineRx _ _ => 0x82
  | .lineTx _ => 0x83

/-- The word of `i` holds the opcode of its row and its channel, 0 where it names none (R111). -/
def Fields.Statement (i : Instr) : Prop :=
  i.wf = true → opField (encode i) = opcodeOf i ∧ chField (encode i) = i.channel?.getD 0

/-- A channel that fits its field reads back as itself. -/
theorem Fields.of_channel {op : BitVec 8} {c : Nat} {imm : Half} (h : channelFits (some c) = true) :
    opField (fields op c imm) = op ∧ chField (fields op c imm) = c := by
  have hc : c < 256 := by simpa [channelFits] using h
  exact ⟨opField_fields op c imm, by rw [chField_fields, Nat.mod_eq_of_lt hc]⟩

theorem Fields.chcount : Fields.Statement .chcount := fun _ => ⟨opField_fields _ _ _, chField_fields _ _ _⟩
theorem Fields.init (c : Nat) (baud : Half) : Fields.Statement (.init c baud) := Fields.of_channel
theorem Fields.close (c : Nat) : Fields.Statement (.close c) := Fields.of_channel
theorem Fields.setflow (c : Nat) (on : Bool) : Fields.Statement (.setflow c on) := Fields.of_channel
theorem Fields.haschar (c : Nat) : Fields.Statement (.haschar c) := Fields.of_channel
theorem Fields.read (c : Nat) : Fields.Statement (.read c) := Fields.of_channel
theorem Fields.readb (c : Nat) : Fields.Statement (.readb c) := Fields.of_channel
theorem Fields.isrxfull (c : Nat) : Fields.Statement (.isrxfull c) := Fields.of_channel
theorem Fields.isrxempty (c : Nat) : Fields.Statement (.isrxempty c) := Fields.of_channel
theorem Fields.write (c : Nat) (b : Byte) : Fields.Statement (.write c b) := Fields.of_channel
theorem Fields.wru16 (c : Nat) (v : Half) : Fields.Statement (.wru16 c v) := Fields.of_channel
theorem Fields.istxfull (c : Nat) : Fields.Statement (.istxfull c) := Fields.of_channel
theorem Fields.istxempty (c : Nat) : Fields.Statement (.istxempty c) := Fields.of_channel
theorem Fields.sei : Fields.Statement .sei := fun _ => ⟨opField_fields _ _ _, chField_fields _ _ _⟩
theorem Fields.cli : Fields.Statement .cli := fun _ => ⟨opField_fields _ _ _, chField_fields _ _ _⟩
theorem Fields.evRxc (c : Nat) : Fields.Statement (.evRxc c) := Fields.of_channel
theorem Fields.evUdre (c : Nat) : Fields.Statement (.evUdre c) := Fields.of_channel
theorem Fields.lineRx (c : Nat) (b : Byte) : Fields.Statement (.lineRx c b) := Fields.of_channel
theorem Fields.lineTx (c : Nat) : Fields.Statement (.lineTx c) := Fields.of_channel

end Sys2Proof.Laws
end

