-- ==== Sys2Proof/Laws/Ring.lean ====
section
/-! SUPPORT. Storage arrays keep their canonical form, and what a push and a pop can do, said once. -/

namespace Sys2Proof.Machine

/-- Every memory operation keeps the canonical form. -/
theorem Memory.put_wf (n : Nat) (m : Memory) (i : Nat) (b : Byte) (h : Memory.wf n m = true) :
    Memory.wf n (Memory.put m i b) = true := by
  simpa [Memory.wf, Memory.put] using h

@[simp] theorem Memory.length_put (m : Memory) (i : Nat) (b : Byte) : (Memory.put m i b).length = m.length := by
  simp [Memory.put]

theorem Memory.get_put_same (m : Memory) (i : Nat) (b : Byte) (h : i < m.length) :
    Memory.get (Memory.put m i b) i = b := by
  simp [Memory.get, Memory.put, List.getD, h]

theorem Memory.get_put_other (m : Memory) (i j : Nat) (b : Byte) (h : j ≠ i) :
    Memory.get (Memory.put m i b) j = Memory.get m j := by
  simp [Memory.get, Memory.put, List.getD, List.getElem?_set_ne (Ne.symm h)]

/-- A storage array at reset has the canonical form. -/
theorem Ring.powerOn_wf (n : Nat) : Memory.wf n (Ring.powerOn n).buf = true := by
  simp [Memory.wf, Ring.powerOn]

theorem advance_lt {i C : Nat} (h : i < C) : advance i C < C := by
  unfold advance
  split <;> omega

/-- All a push can do. -/
theorem Ring.push_cases (C : Nat) (r : Ring) (b : Byte) :
    (r.isFull C = true ∧ r.push C b = (false, r)) ∨
    (r.isFull C = false ∧ r.push C b =
      (true, { buf := Memory.put r.buf r.write b, read := r.read, write := advance r.write C })) := by
  cases h : r.isFull C <;> simp [Ring.push, h]

/-- All a pop can do. -/
theorem Ring.pop_cases (C : Nat) (r : Ring) :
    (r.isEmpty = true ∧ r.pop C = none) ∨
    (r.isEmpty = false ∧ r.pop C = some (Memory.get r.buf r.read,
      { buf := Memory.put r.buf r.read 0, read := advance r.read C, write := r.write })) := by
  cases h : r.isEmpty <;> simp [Ring.pop, h]

theorem Ring.push_inRange {C : Nat} {r : Ring} (b : Byte) (h : r.InRange C) : (r.push C b).2.InRange C := by
  obtain ⟨hl, hr, hw⟩ := h
  obtain ⟨-, e⟩ | ⟨-, e⟩ := r.push_cases C b
  · rw [e]; exact ⟨hl, hr, hw⟩
  · rw [e]; exact ⟨by simpa using hl, hr, advance_lt hw⟩

theorem Ring.pop_inRange {C : Nat} {r r' : Ring} {b : Byte} (h : r.InRange C) (e : r.pop C = some (b, r')) :
    r'.InRange C := by
  obtain ⟨hl, hr, hw⟩ := h
  obtain ⟨-, e'⟩ | ⟨-, e'⟩ := r.pop_cases C
  · rw [e'] at e; cases e
  · rw [e'] at e; cases e; exact ⟨by simpa using hl, advance_lt hr, hw⟩

end Sys2Proof.Machine
end

