-- ==== Sys2Proof/Laws/Step.lean ====
section
/-! SUPPORT. The inversion lemmas of exec, of the foreground's step and of the machine's step: each says
once everything its subject can do when it answers next. -/

namespace Sys2Proof.Machine

/-- A command's fetch: the plan, or the refusal of R261 (or R118). -/
theorem exec_fetch_next {i : Instr} {s t : State} (hi : i.isEvent = false) (ha : s.actions = [])
    (h : exec i s = .next t) : t = s.proceed (plan s.cfg i) ∧ s.activeFor i = true := by
  cases i with
  | chcount | sei | cli =>
    cases (show s.command (.ok _) = .next t from h).symm.trans (State.command_fetch ha)
    exact ⟨rfl, rfl⟩
  | init c baud =>
    simp only [exec, execInit, State.initPrologue] at h
    by_cases hc : c < s.cfg.channelCount <;>
      simp only [hc, if_true, if_false, State.command_fetch ha, Host.Outcome.next.injEq] at h <;>
      exact ⟨by simp [plan, Instr.named, Instr.channel?, hc, ← h, ownActions, neutralActions], rfl⟩
  | setflow c on =>
    simp only [exec, execSetflow] at h
    split at h
    · simp only [State.prologue] at h
      by_cases hc : c < s.cfg.channelCount
      · cases hx : (s.chan c).active <;> simp [hc, hx, State.command, ha] at h
        exact ⟨by simp [plan, Instr.named, Instr.channel?, hc, ← h, ownActions],
          by simp [State.activeFor, Instr.channel?, hx]⟩
      · simp [hc, State.command, ha] at h
        exact ⟨by simp [plan, Instr.named, Instr.channel?, hc, ← h, neutralActions],
          by simp [State.activeFor, Instr.channel?, Nat.not_lt.mp hc]⟩
    · simp at h
  | evRxc | evUdre | lineRx | lineTx => simp [Instr.isEvent] at hi
  | close c | haschar c | read c | readb c | isrxfull c | isrxempty c | write c _ | wru16 c _
  | istxfull c | istxempty c =>
    simp only [exec, execClose, execHaschar, execRead, execReadb, execIsrxfull, execIsrxempty, execWrite,
      execWru16, execIstxfull, execIstxempty, State.prologue] at h
    by_cases hc : c < s.cfg.channelCount
    · cases hx : (s.chan c).active <;> simp [hc, hx, State.command, ha] at h
      exact ⟨by simp [plan, Instr.named, Instr.channel?, hc, ← h, ownActions],
        by simp [State.activeFor, Instr.channel?, hx]⟩
    · simp [hc, State.command, ha] at h
      exact ⟨by simp [plan, Instr.named, Instr.channel?, hc, ← h, neutralActions],
        by simp [State.activeFor, Instr.channel?, Nat.not_lt.mp hc]⟩

/-- Inside a command, whatever the command, exec runs the head action; SETFLOW only in the flow-control
build. -/
theorem exec_inside {i : Instr} {s : State} {a : Action} {rest : List Action} (hi : i.isEvent = false)
    (ha : s.actions = a :: rest) (hf : s.cfg.flowControl = true ∨ ∀ c on, i ≠ .setflow c on) :
    exec i s = s.perform a rest := by
  cases i with
  | setflow c on =>
    obtain hf | hf := hf
    · simp only [exec, execSetflow, hf, if_true, State.command_inside _ ha]
    · exact absurd rfl (hf c on)
  | evRxc | evUdre | lineRx | lineTx => simp [Instr.isEvent] at hi
  | chcount | sei | cli => exact State.command_inside (.ok _) ha
  | _ => exact State.command_inside _ ha

/-- All that exec of a command can do when it answers next: fetch, execute the head action, or spin. -/
theorem exec_command_next {i : Instr} {s t : State} (hi : i.isEvent = false) (h : exec i s = .next t) :
    (s.actions = [] ∧ t = s.proceed (plan s.cfg i) ∧ s.activeFor i = true) ∨
    (∃ a rest, s.actions = a :: rest ∧ a.guard s = true ∧ ∃ u, a.body s = .ok u ∧ t = u.proceed rest) ∨
    (∃ a rest, s.actions = a :: rest ∧ a.guard s = false ∧ t = s) := by
  cases ha : s.actions with
  | nil => exact .inl ⟨rfl, exec_fetch_next hi ha h⟩
  | cons a rest =>
    have hp : s.perform a rest = .next t := by
      by_cases hf : s.cfg.flowControl = true ∨ ∀ c on, i ≠ .setflow c on
      · rwa [exec_inside hi ha hf] at h
      · simp only [not_or, Bool.not_eq_true, not_forall, not_not] at hf
        obtain ⟨hf, c, on, rfl⟩ := hf
        simp [exec, execSetflow, hf] at h
    obtain ⟨hg, hu⟩ | ⟨hg, rfl⟩ := State.perform_next hp
    · exact .inr (.inl ⟨a, rest, rfl, hg, hu⟩)
    · exact .inr (.inr ⟨a, rest, rfl, hg, rfl⟩)

/-- All that exec of an event can do when it answers next: update one channel of the block. -/
theorem exec_event_next {i : Instr} {s t : State} (hi : i.isEvent = true) (h : exec i s = .next t) :
    ∃ c f, i.channel? = some c ∧ c < s.cfg.channelCount ∧ t = s.onChan c f := by
  cases i with
  | evRxc c => obtain ⟨hc, -, -, b, -, rfl⟩ := execEvRxc_next h; exact ⟨c, _, rfl, hc, rfl⟩
  | evUdre c => obtain ⟨hc, -, -, rfl⟩ := execEvUdre_next h; exact ⟨c, _, rfl, hc, rfl⟩
  | lineRx c b => obtain ⟨hc, -, rfl⟩ := execLineRx_next h; exact ⟨c, _, rfl, hc, rfl⟩
  | lineTx c => obtain ⟨hc, -, rfl⟩ := execLineTx_next h; exact ⟨c, _, rfl, hc, rfl⟩
  | _ => simp [Instr.isEvent] at hi

/-- All an action's body can change: one channel it names, the result log, the flag. -/
theorem Action.body_ok {a : Action} {s u : State} (h : a.body s = .ok u) :
    u.cfg = s.cfg ∧ u.prog = s.prog ∧ u.pc = s.pc ∧ u.actions = s.actions ∧ u.refused = s.refused ∧
    u.schedule = s.schedule ∧ u.draws = s.draws ∧
    (u.ch = s.ch ∨ ∃ c x, a.channel? = some c ∧ u.ch = s.ch.set c x) := by
  have hset : ∀ c (f : Channel → Channel), Except.ok (ε := Refusal) (s.onChan c f) = .ok u →
      a.channel? = some c → u.cfg = s.cfg ∧ u.prog = s.prog ∧ u.pc = s.pc ∧ u.actions = s.actions ∧
        u.refused = s.refused ∧ u.schedule = s.schedule ∧ u.draws = s.draws ∧
        (u.ch = s.ch ∨ ∃ c x, a.channel? = some c ∧ u.ch = s.ch.set c x) := by
    intro c f e hc
    cases e
    exact ⟨rfl, rfl, rfl, rfl, rfl, rfl, rfl, .inr ⟨c, _, hc, rfl⟩⟩
  have htake : ∀ c, Except.ok (ε := Refusal) (takeByte c s) = .ok u →
      a.channel? = some c → u.cfg = s.cfg ∧ u.prog = s.prog ∧ u.pc = s.pc ∧ u.actions = s.actions ∧
        u.refused = s.refused ∧ u.schedule = s.schedule ∧ u.draws = s.draws ∧
        (u.ch = s.ch ∨ ∃ c x, a.channel? = some c ∧ u.ch = s.ch.set c x) := by
    intro c e hc
    cases e
    unfold takeByte
    split
    · exact ⟨rfl, rfl, rfl, rfl, rfl, rfl, rfl, .inl rfl⟩
    · exact ⟨rfl, rfl, rfl, rfl, rfl, rfl, rfl, .inr ⟨c, _, hc, rfl⟩⟩
  cases a with
  | init c baud =>
    simp only [Action.body, initBody] at h
    split at h
    · cases h
    · exact hset c _ h rfl
  | close c => exact hset c _ h rfl
  | flowQueue c on => exact hset c _ h rfl
  | write c b => exact hset c _ h rfl
  | digit c d => exact hset c _ h rfl
  | read c => exact htake c h rfl
  | readb c => exact htake c h rfl
  | _ => cases h; exact ⟨rfl, rfl, rfl, rfl, rfl, rfl, rfl, .inl rfl⟩

/-- A program word decodes to a command, and to SETFLOW only in the flow-control build. -/
theorem decodeProgramWord_command {cfg : Config} {w : Word} {i : Instr} (h : decodeProgramWord cfg w = .ok i) :
    i.isEvent = false ∧ (cfg.flowControl = true ∨ ∀ c on, i ≠ .setflow c on) := by
  unfold decodeProgramWord at h
  split at h
  · cases h
  · next r hr =>
    have hm : r ∈ opTable := List.mem_of_find?_eq_some hr
    split at h
    · cases h
    · next hev =>
      split at h
      · cases h
      · next hfl =>
        unfold OpRow.operands at h
        split at h
        · cases h
          revert hev hfl
          simp only [opTable, List.cons_append, List.nil_append, List.mem_cons, List.not_mem_nil, or_false] at hm
          rcases hm with rfl | rfl | rfl | rfl | rfl | rfl | rfl | rfl | rfl | rfl | rfl | rfl | rfl | rfl |
            rfl | rfl | rfl | rfl | rfl <;> intro hev hfl <;> simp_all [Instr.isEvent]
        · cases h

/-- All the foreground's step can do when it answers next: an action of the current command, or the fetch
of the command at `pc`. -/
theorem foregroundStep_next {s t : State} (h : foregroundStep s = .next t) :
    (∃ a rest, s.actions = a :: rest ∧ s.perform a rest = .next t) ∨
    (s.actions = [] ∧ ∃ w i, s.prog[s.pc]? = some w ∧ decodeProgramWord s.cfg w = .ok i ∧
      t = s.proceed (plan s.cfg i) ∧ s.activeFor i = true) := by
  unfold foregroundStep at h
  split at h
  · next a rest ha => exact .inl ⟨a, rest, ha, h⟩
  · next ha =>
    split at h
    · cases h
    · next w hw =>
      split at h
      · cases h
      · next i hi => exact .inr ⟨ha, w, i, hw, hi, exec_fetch_next (decodeProgramWord_command hi).1 ha h⟩

/-- Inside a command and at its fetch, the foreground's step is exec of the command at `pc`. -/
theorem foregroundStep_exec {s : State} {w : Word} {i : Instr} (hw : s.prog[s.pc]? = some w)
    (hi : decodeProgramWord s.cfg w = .ok i) : foregroundStep s = exec i s := by
  obtain ⟨hev, hfl⟩ := decodeProgramWord_command hi
  cases ha : s.actions with
  | nil => simp [foregroundStep, ha, hw, hi]
  | cons a rest => simp [foregroundStep, ha, exec_inside hev ha hfl]

/-- The state a turn is taken in differs from the state before only in its schedule and its counter. -/
theorem State.nextTurn_ok {s u : State} {t : Turn} (h : s.nextTurn = .ok (t, u)) :
    ∃ sch n, u = { s with schedule := sch, draws := n } := by
  unfold State.nextTurn at h
  split at h
  · next e rest he =>
    split at h
    · cases h; exact ⟨rest, s.draws, rfl⟩
    · cases h
  · next hs =>
    split at h
    · cases h; exact ⟨s.schedule, s.draws + 1, rfl⟩
    · cases h

/-- All a step can do when it answers next: take one turn, with the machine running. -/
theorem step_next {s t : State} (h : step s = .next t) :
    s.refused = false ∧ s.cfg.valid = true ∧
    ∃ turn u, s.nextTurn = .ok (turn, u) ∧ takeTurn turn u = .next t := by
  unfold step nextStep at h
  split at h
  · cases h
  · next hr =>
    split at h
    · next hv =>
      split at h
      · next turn u hn => exact ⟨by simpa using hr, hv, turn, u, hn, h⟩
      · cases h
    · cases h

/-- R310: a refusal of the rule's list sets `refused` and changes nothing else. -/
theorem State.after_refusal {s : State} {r : Refusal} (h : step s = .refused r) (hr : r.stopsModel = true) :
    s.after = { s with refused := true } := by
  simp [State.after, h, hr]

/-- Where no agent has a step the state stays as it is. -/
theorem State.after_no_step {s : State} {r : Refusal} (h : step s = .refused r) (hr : r.stopsModel = false) :
    s.after = s := by
  simp [State.after, h, hr]

/-- R310: a machine that has refused has no step. -/
theorem step_refused {s : State} (h : s.refused = true) : step s = .refused .stopped := by
  simp [step, nextStep, h]

end Sys2Proof.Machine
end

