-- ==== Sys2Proof/Tests/Slice0.lean ====
section
/-! SUPPORT. The model's own tests. Expected values are taken from spec/95_test_vectors.md, from
spec/30_encoding.md and by hand from the rules named; the last part shows, for every statement with
hypotheses, concrete states and operands that meet them all. -/

namespace Sys2Proof.Tests

open Sys2Proof.Machine

-- Helpers

/-- The next state of an outcome. -/
def nextOf : Result → Option State
  | .next t => some t
  | .fault _ => none
  | .refused _ => none

/-- The reason of a refusal. -/
def refusalOf : Result → Option Refusal
  | .next _ => none
  | .fault _ => none
  | .refused r => some r

/-- The reason of a decoder's refusal. -/
def errorOf : Except Refusal Instr → Option Refusal
  | .ok _ => none
  | .error r => some r

/-- The instruction of a decoder's answer. -/
def okOf : Except Refusal Instr → Option Instr
  | .ok i => some i
  | .error _ => none

/-- 95_test_vectors.md, configuration A. -/
def cfgA : Config :=
  { Config.atReset with channelCount := 2, rxCapacity := 8, txCapacity := 8, flowControl := false }

/-- 95_test_vectors.md, configuration B. -/
def cfgB : Config := { Config.atReset with channelCount := 1 }

/-- 95_test_vectors.md, configuration C; FlowMark is not used without flow control. -/
def cfgC : Config :=
  { cfgA with channelCount := 1, rxCapacity := 4, txCapacity := 4, flowMark := 1 }

/-- A channel right after INIT. -/
def opened (cfg : Config) : Channel := Channel.opened cfg 103 (Channel.powerOn cfg)

/-- A machine of configuration `cfg` whose channel 0 is `x`, with `actions` left and interrupts enabled. -/
def machine (cfg : Config) (x : Channel) (actions : List Action) : State :=
  { State.powerOn cfg [] [] with
    ch := x :: List.replicate (cfg.channelCount - 1) (Channel.powerOn cfg), gie := true, actions := actions }

/-- A Draining channel of configuration B with XOFF waiting in its slot. -/
def controlWaiting : Channel :=
  { opened cfgB with txIdle := false, txIE := true, pending := some 0x13, flowOn := false }

/-- A Draining channel of configuration B with one byte in its transmit buffer. -/
def dataWaiting : Channel :=
  { opened cfgB with txIdle := false, txIE := true, tx := ⟨[0x48, 0, 0, 0, 0, 0, 0, 0], 0, 1⟩ }

/-- A Draining channel of configuration B whose last byte is in `txHold`. -/
def byteInHold : Channel := { opened cfgB with txIdle := false, txIE := true, txHold := some 0x48 }

/-- An Idle channel of configuration B with one byte received and another in `rxHold`. -/
def bytesReceived : Channel :=
  { opened cfgB with rx := ⟨0x41 :: List.replicate 15 0, 0, 1⟩, rxCount := 1, rxHold := some 0x42 }

/-- Channel 0 after `exec i` on `machine cfg x actions`. -/
def after (cfg : Config) (x : Channel) (actions : List Action) (i : Instr) : Option Channel :=
  (nextOf (exec i (machine cfg x actions))).map (fun t => t.chan 0)

/-- The result log after `exec i` on `machine cfg x actions`. -/
def log (cfg : Config) (x : Channel) (actions : List Action) (i : Instr) : Option (List Value) :=
  (nextOf (exec i (machine cfg x actions))).map (fun t => t.results)

-- Well-formedness: an operand that does not fit its field (R111)

theorem test_wf_refuses_channel_256 : Instr.wf (.read 256) = false ∧ Instr.wf (.write 300 0) = false
    ∧ Instr.wf (.lineTx 256) = false := by decide

theorem test_wf_accepts_channel_255 : Instr.wf (.read 255) = true ∧ Instr.wf .chcount = true := by decide

-- Decoding, one word for each constructor, written out from the patterns of R114

theorem test_decode_chcount : decode 0b00000001000000000000000000000000 = .ok .chcount := rfl
theorem test_decode_init : decode 0b00000010000000010001001000110100 = .ok (.init 1 0x1234) := rfl
theorem test_decode_close : decode 0b00000011000000010000000000000000 = .ok (.close 1) := rfl
theorem test_decode_setflow : decode 0b00000100000000000000000000000001 = .ok (.setflow 0 true) := rfl
theorem test_decode_haschar : decode 0b00000101000001000000000000000000 = .ok (.haschar 4) := rfl
theorem test_decode_read : decode 0b00000110100000000000000000000000 = .ok (.read 128) := rfl
theorem test_decode_readb : decode 0b00000111000000110000000000000000 = .ok (.readb 3) := rfl
theorem test_decode_isrxfull : decode 0b00001000000001010000000000000000 = .ok (.isrxfull 5) := rfl
theorem test_decode_isrxempty : decode 0b00001001000001100000000000000000 = .ok (.isrxempty 6) := rfl
theorem test_decode_write : decode 0b00001010000000100000000001001000 = .ok (.write 2 0x48) := rfl
theorem test_decode_wru16 : decode 0b00001011000000001111111111111111 = .ok (.wru16 0 65535) := rfl
theorem test_decode_istxfull : decode 0b00001100000000010000000000000000 = .ok (.istxfull 1) := rfl
theorem test_decode_istxempty : decode 0b00001101111111110000000000000000 = .ok (.istxempty 255) := rfl
theorem test_decode_sei : decode 0b00001110000000000000000000000000 = .ok .sei := rfl
theorem test_decode_cli : decode 0b00001111000000000000000000000000 = .ok .cli := rfl
theorem test_decode_evRxc : decode 0b10000000000000010000000000000000 = .ok (.evRxc 1) := rfl
theorem test_decode_evUdre : decode 0b10000001000000100000000000000000 = .ok (.evUdre 2) := rfl
theorem test_decode_lineRx : decode 0b10000010000000010000000001000001 = .ok (.lineRx 1 0x41) := rfl
theorem test_decode_lineTx : decode 0b10000011000001000000000000000000 = .ok (.lineTx 4) := rfl

/-- R120: the worked encodings. -/
theorem test_encode_worked :
    encode .chcount = 0x01000000 ∧ encode (.init 0 103) = 0x02000067 ∧ encode (.init 1 0x1234) = 0x02011234
    ∧ encode (.close 1) = 0x03010000 ∧ encode (.setflow 0 true) = 0x04000001
    ∧ encode (.setflow 2 false) = 0x04020000 ∧ encode (.write 0 0x48) = 0x0A000048
    ∧ encode (.wru16 0 65535) = 0x0B00FFFF ∧ encode (.readb 3) = 0x07030000 ∧ encode .sei = 0x0E000000
    ∧ encode (.lineRx 0 0x41) = 0x82000041 := by decide

/-- 95_test_vectors.md V1: words refused in a program. -/
theorem test_program_word_refusals :
    errorOf (decodeProgramWord cfgA 0x01000005) = some (.reservedFieldNonZero 0x01000005)
    ∧ errorOf (decodeProgramWord cfgA 0x01010000) = some (.reservedFieldNonZero 0x01010000)
    ∧ errorOf (decodeProgramWord cfgA 0x04000001) = some (.featureAbsent 0x04000001)
    ∧ errorOf (decodeProgramWord cfgA 0x04000002) = some (.featureAbsent 0x04000002)
    ∧ errorOf (decodeProgramWord cfgB 0x04000003) = some (.reservedFieldNonZero 0x04000003)
    ∧ errorOf (decodeProgramWord cfgA 0x0A000148) = some (.reservedFieldNonZero 0x0A000148)
    ∧ errorOf (decodeProgramWord cfgA 0x7F000000) = some (.illegalOpcode 0x7F000000)
    ∧ errorOf (decodeProgramWord cfgA 0x80000000) = some (.eventInProgram 0x80000000) := by decide

/-- 95_test_vectors.md V1: words in a schedule. -/
theorem test_schedule_words :
    okOf (decodeScheduleWord cfgA 0x80000000) = some (.evRxc 0)
    ∧ okOf (decodeScheduleWord cfgA 0x82010041) = some (.lineRx 1 0x41)
    ∧ errorOf (decodeScheduleWord cfgA 0x06000000) = some (.commandInSchedule 0x06000000)
    ∧ errorOf (decodeScheduleWord cfgA 0x83050000) = some (.noSuchChannel 0x83050000)
    ∧ errorOf (decodeScheduleWord cfgA 0x84000000) = some (.illegalOpcode 0x84000000) := by decide

theorem test_decodeTableWord : decodeTableWord 32 0x0A000048 = some (.write 0 0x48)
    ∧ decodeTableWord 32 0x83000000 = some (.lineTx 0) ∧ decodeTableWord 32 0x10000000 = none := by decide

-- The assembler (R119, R121)

theorem test_assemble_operands :
    assemble cfgB ["INIT 0, 103".toList, "SETFLOW 2, off".toList, "WRITE 0, 'H'".toList,
      "LINE_RX 0, 0x41".toList] = some [0x02000067, 0x04020000, 0x0A000048, 0x82000041] := by decide

theorem test_assemble_wrstr :
    assemble cfgB ["WRSTR 0, \"Hi\"".toList] = some [0x0A000048, 0x0A000069]
    ∧ assemble { cfgB with nullStringToken := [0x3F] } ["WRSTR 0, NULL".toList] = some [0x0A00003F]
    ∧ assemble cfgB ["WRSTR 0, \"\"".toList] = some [] := by decide

theorem test_assemble_errors : assemble cfgB ["WRITE 0, 256".toList] = none
    ∧ assemble cfgB ["READ 256".toList] = none ∧ assemble cfgB ["SEI 0".toList] = none := by decide

-- Ring primitives (95_test_vectors.md V2, S3; 40_ringbuffer.md R143, R144)

theorem test_ring_capacity_two :
    Ring.push 2 ⟨[9, 9], 0, 0⟩ 0x55 = (true, ⟨[0x55, 9], 0, 1⟩)
    ∧ Ring.push 2 ⟨[0x55, 9], 0, 1⟩ 0x66 = (false, ⟨[0x55, 9], 0, 1⟩)
    ∧ Ring.pop 2 ⟨[0x55, 9], 0, 1⟩ = some (0x55, ⟨[0, 9], 1, 1⟩)
    ∧ Ring.pop 2 ⟨[0, 9], 1, 1⟩ = none
    ∧ Ring.push 2 ⟨[0, 9], 1, 1⟩ 0x77 = (true, ⟨[0, 0x77], 1, 0⟩) := by decide

theorem test_ring_occupancy : Ring.occupancy 8 ⟨[], 6, 2⟩ = 4 ∧ Ring.occupancy 8 ⟨[], 2, 6⟩ = 4
    ∧ Ring.occupancy 8 ⟨[], 5, 4⟩ = 7 ∧ advance 7 8 = 0 ∧ advance 0 8 = 1 := by decide

/-- S3 step 2: two bytes held across the wrap. -/
theorem test_ring_contents : Ring.contents 4 ⟨[0x42, 9, 9, 0x41], 3, 1⟩ = [0x41, 0x42] := by decide

-- Decimal digits (95_test_vectors.md V3)

theorem test_dec : dec 0 = [0x30] ∧ dec 9 = [0x39] ∧ dec 10 = [0x31, 0x30]
    ∧ dec 60000 = [0x36, 0x30, 0x30, 0x30, 0x30] ∧ dec 65535 = [0x36, 0x35, 0x35, 0x33, 0x35] := by decide

/-- R83: the split form of 0x1234. -/
theorem test_baud_split : baudPort .splitPair 0x1234 = .split 0x12 0x34 := by decide

-- The transmit family (R162 to R170)

/-- R162's example. -/
theorem test_write_stores_and_kicks :
    (after cfgA (opened cfgA) [.write 0 0x48] (.write 0 0x48)).map
      (fun x => (Memory.get x.tx.buf 0, x.tx.write, x.txIdle, x.txIE)) = some (0x48, 1, false, true) := by decide

/-- V4: with the ring full the foreground spins. -/
theorem test_write_spins_when_full :
    nextOf (exec (.write 0 0x41) (machine cfgA { opened cfgA with tx := ⟨List.replicate 8 7, 0, 7⟩ }
      [.write 0 0x41])) = some (machine cfgA { opened cfgA with tx := ⟨List.replicate 8 7, 0, 7⟩ }
      [.write 0 0x41]) := by decide

/-- R163's example: four digits are fetched. -/
theorem test_wru16_fetches_its_digits :
    (nextOf (exec (.wru16 0 1234) (machine cfgC (opened cfgC) []))).map (fun t => (t.actions, t.pc))
      = some ([.digit 0 0x31, .digit 0 0x32, .digit 0 0x33, .digit 0 0x34], 0) := by decide

/-- P5 entry 6: the fourth digit wraps. -/
theorem test_wru16_digit_wraps :
    (nextOf (exec (.wru16 0 1234) (machine cfgC { opened cfgC with tx := ⟨[0, 0x32, 0x33, 0], 1, 3⟩ }
      [.digit 0 0x34]))).map (fun t => ((t.chan 0).tx, t.actions, t.pc))
      = some (⟨[0, 0x32, 0x33, 0x34], 1, 0⟩, [], 1) := by decide

/-- R167's example. -/
theorem test_istxfull_three_of_four :
    log cfgC { opened cfgC with tx := ⟨[1, 2, 3, 0], 0, 3⟩ } [.istxfull 0] (.istxfull 0)
      = some [.bool true] := by decide

/-- S1 entry 4. -/
theorem test_istxempty_two_queued :
    log cfgA { opened cfgA with tx := ⟨List.replicate 8 7, 0, 2⟩ } [.istxempty 0] (.istxempty 0)
      = some [.bool false] := by decide

/-- V5 T1: the control byte first, the ring unchanged. -/
theorem test_evUdre_control_first :
    (after cfgB { controlWaiting with tx := ⟨List.replicate 8 0x48, 0, 1⟩ } [] (.evUdre 0)).map
      (fun x => (x.txHold, x.pending, x.tx.read, x.txIdle)) = some (some 0x13, none, 0, false) := by decide

/-- V5 T4: the pop wraps and clears its slot. -/
theorem test_evUdre_wraps :
    (after cfgB { opened cfgB with txIdle := false, txIE := true, tx := ⟨List.replicate 8 0x5A, 7, 0⟩ } []
        (.evUdre 0)).map (fun x => (x.txHold, Memory.get x.tx.buf 7, x.tx.read, x.tx.isEmpty))
      = some (some 0x5A, 0, 0, true) := by decide

/-- S1 entry 8. -/
theorem test_lineTx_moves_the_byte :
    (after cfgA { opened cfgA with txIdle := false, txIE := true, txHold := some 0x48 } [] (.lineTx 0)).map
      (fun x => (x.txWire, x.txHold)) = some ([0x48], none) := by decide

/-- V10: with `txHold` empty LINE_TX is not enabled. -/
theorem test_lineTx_needs_a_byte :
    refusalOf (exec (.lineTx 0) (machine cfgA (opened cfgA) [])) = some .eventNotEnabled := by decide

-- The receive family (R200 to R206)

/-- V6 R2: at the mark the byte is stored and XOFF is queued. -/
theorem test_evRxc_at_the_mark :
    (after cfgB { opened cfgB with rx := ⟨List.replicate 16 7, 0, 10⟩, rxCount := 10, rxHold := some 0x4B } []
        (.evRxc 0)).map (fun x => (x.rxCount, x.pending, x.flowOn, x.txIdle, x.txIE))
      = some (11, some 0x13, false, false, true) := by decide

/-- V6 R4: full, flow On: the byte is dropped and XOFF is queued. -/
theorem test_evRxc_drops_when_full :
    (after cfgB { opened cfgB with rx := ⟨List.replicate 16 7, 0, 15⟩, rxCount := 15, rxHold := some 0x4B } []
        (.evRxc 0)).map (fun x => (x.rxCount, x.rx.write, x.rxHold, x.pending))
      = some (15, 15, none, some 0x13) := by decide

/-- V10: with `rxHold` full DropNew keeps the older byte. -/
theorem test_lineRx_overrun :
    (after cfgB { opened cfgB with rxHold := some 0x41 } [] (.lineRx 0 0x42)).map
      (fun x => (x.rxHold, x.rxArrived)) = some (some 0x41, [0x42]) := by decide

/-- V10: Overwrite keeps the newer byte. -/
theorem test_lineRx_overwrite :
    (after { cfgB with rxOverrunPolicy := .overwrite } { opened cfgB with rxHold := some 0x41 } []
      (.lineRx 0 0x42)).map (fun x => (x.rxHold, x.rxArrived)) = some (some 0x42, [0x42]) := by decide

/-- R202's example. -/
theorem test_haschar_one_held :
    log cfgA { opened cfgA with rx := ⟨List.replicate 8 7, 0, 1⟩ } [.haschar 0] (.haschar 0)
      = some [.bool true] := by decide

/-- R203's example. -/
theorem test_isrxempty_after_init :
    log cfgA (opened cfgA) [.isrxempty 0] (.isrxempty 0) = some [.bool true] := by decide

/-- S2: seven bytes of eight slots are full. -/
theorem test_isrxfull_seven_of_eight :
    log cfgA { opened cfgA with rx := ⟨List.replicate 8 7, 0, 7⟩ } [.isrxfull 0] (.isrxfull 0)
      = some [.bool true] := by decide

/-- V7 D3: the read that reaches the low mark queues XON. -/
theorem test_read_turns_flow_on :
    (after cfgB { opened cfgB with rx := ⟨List.replicate 16 0x41, 0, 6⟩, rxCount := 6, flowOn := false }
        [.read 0] (.read 0)).map (fun x => (x.rxCount, x.pending, x.flowOn, x.txIE, Memory.get x.rx.buf 0))
      = some (5, some 0x11, true, true, 0) := by decide

/-- V7 D1: an empty READ emits 0x00. -/
theorem test_read_empty : log cfgB (opened cfgB) [.read 0] (.read 0) = some [.byte 0] := by decide

/-- P2: READB emits the byte held. -/
theorem test_readb_emits :
    log cfgA { opened cfgA with rx := ⟨List.replicate 8 0x41, 0, 2⟩ } [.readb 0] (.readb 0)
      = some [.byte 0x41] := by decide

/-- V7 D7: READB spins on an empty ring. -/
theorem test_readb_spins :
    nextOf (exec (.readb 0) (machine cfgB (opened cfgB) [.readb 0]))
      = some (machine cfgB (opened cfgB) [.readb 0]) := by decide

-- Flow control (R236)

/-- V8 F1: the first action queues XOFF; the command is not complete. -/
theorem test_setflow_off_queues :
    (nextOf (exec (.setflow 0 false) (machine cfgB (opened cfgB) [.flowQueue 0 false, .flowServed 0]))).map
      (fun t => ((t.chan 0).pending, (t.chan 0).flowOn, (t.chan 0).txIdle, t.actions, t.pc))
      = some (some 0x13, false, false, [.flowServed 0], 0) := by decide

/-- P4 entry 4: the completion wait spins while the byte is pending. -/
theorem test_setflow_waits :
    (nextOf (exec (.setflow 0 false) (machine cfgB { opened cfgB with pending := some 0x13 }
      [.flowServed 0]))).map (fun t => (t.actions, t.pc)) = some ([.flowServed 0], 0) := by decide

-- The channel multiplexer (R260 to R271)

/-- R262: INIT opens the channel. -/
theorem test_init_opens :
    (after cfgB (Channel.powerOn cfgB) [.init 0 103] (.init 0 103)).map
      (fun x => (x.active, x.baud, x.charSize, x.rxIE, x.txIE)) = some (true, 103, 8, true, false) := by decide

/-- V9: INIT twice. -/
theorem test_init_twice :
    refusalOf (exec (.init 0 1) (machine cfgA (opened cfgA) [.init 0 1])) = some (.reinitActive 0) := by decide

/-- V9: CLOSE discards three unread bytes. -/
theorem test_close_discards :
    (after cfgA { opened cfgA with rx := ⟨List.replicate 8 7, 0, 3⟩ } [.close 0] (.close 0)).map
      (fun x => (x.active, x.rx.read, x.rx.write, x.rxEn, x.baud)) = some (false, 0, 0, false, 103) := by decide

/-- P1: CLOSE spins while the engine drains. -/
theorem test_close_waits :
    (nextOf (exec (.close 0) (machine cfgA { opened cfgA with txIdle := false, txIE := true }
      [.close 0]))).map (fun t => ((t.chan 0).active, t.actions)) = some (true, [.close 0]) := by decide

theorem test_chcount : log cfgA (Channel.powerOn cfgA) [.chcount] .chcount = some [.nat 2] := by decide

theorem test_sei_cli :
    (nextOf (exec .sei { machine cfgA (opened cfgA) [.sei] with gie := false })).map (fun t => (t.gie, t.pc))
      = some (true, 1)
    ∧ (nextOf (exec .cli (machine cfgA (opened cfgA) [.cli]))).map (fun t => t.gie) = some false := by decide

/-- P6: a command on a channel before INIT. -/
theorem test_write_before_init :
    refusalOf (exec (.write 0 0x41) (machine cfgA (Channel.powerOn cfgA) [])) = some (.channelNotActive 0) := by
  decide

/-- V7 D8: READB on a channel the block does not have does not spin. -/
theorem test_readb_invalid :
    (nextOf (exec (.readb 5) (machine cfgA (opened cfgA) []))).map (fun t => t.actions)
      = some [.emitZero] := by decide

-- The step

/-- The word placed for the next step is fetched and run: INIT 0, 103 right after reset. -/
theorem test_fetch_after_reset :
    (nextOf (step (State.reset.withFetchWord 32 0x02000067))).map (fun t => (t.actions, t.pc))
      = some ([.init 0 103], 0) := by decide

/-- An event word placed for the next step is run: LINE_RX on an inactive channel is not enabled. -/
theorem test_event_after_reset :
    refusalOf (step (State.reset.withFetchWord 32 0x82000041)) = some .eventNotEnabled := by decide

-- Witnesses: for every statement with hypotheses, states and operands that meet them, clause by clause

/-- A machine of configuration B between commands meets the invariant as soon as its channel does. -/
theorem machine_inv {x : Channel} (h : x.Inv cfgB) : (machine cfgB x []).Inv where
  config := (show cfgB.valid = true by decide)
  count := rfl
  channels := fun y hy => by
    simp only [machine, cfgB, Nat.sub_self, List.replicate_zero, List.mem_cons, List.not_mem_nil, or_false] at hy
    exact hy ▸ h
  pcRange := Nat.le_refl 0
  command := rfl
  running := rfl

theorem opened_inv : (opened cfgB).Inv cfgB :=
  ⟨by decide, by decide, fun _ => ⟨by decide, by decide, by decide, by decide, by decide⟩,
    fun h => absurd h (by decide)⟩

theorem controlWaiting_inv : controlWaiting.Inv cfgB :=
  ⟨by decide, by decide, fun _ => ⟨by decide, by decide, by decide, by decide, by decide⟩,
    fun h => absurd h (by decide)⟩

theorem dataWaiting_inv : dataWaiting.Inv cfgB :=
  ⟨by decide, by decide, fun _ => ⟨by decide, by decide, by decide, by decide, by decide⟩,
    fun h => absurd h (by decide)⟩

theorem byteInHold_inv : byteInHold.Inv cfgB :=
  ⟨by decide, by decide, fun _ => ⟨by decide, by decide, by decide, by decide, by decide⟩,
    fun h => absurd h (by decide)⟩

theorem bytesReceived_inv : bytesReceived.Inv cfgB :=
  ⟨by decide, by decide, fun _ => ⟨by decide, by decide, by decide, by decide, by decide⟩,
    fun h => absurd h (by decide)⟩

theorem witness_DecodeOfEncodeIsTheInstruction : Instr.wf (.write 255 0xFF) = true
    ∧ Instr.wf (.init 255 0xFFFF) = true ∧ Instr.wf .cli = true := by decide

theorem witness_EncodeOfDecodeIsTheWord : decode 0x82FF00FF = .ok (.lineRx 255 0xFF) := rfl

/-- One word for each clause, at the edges of the opcode ranges. -/
theorem witness_WordsDecodeByTheChecksInOrder :
    (¬ isCommandOp (opField 0x10000000) ∧ ¬ isEventOp (opField 0x10000000))
    ∧ (¬ isCommandOp (opField 0x84000000) ∧ ¬ isEventOp (opField 0x84000000))
    ∧ (isEventOp (opField 0x80000000) ∧ isEventOp (opField 0x83000000))
    ∧ (isCommandOp (opField 0x04000001) ∧ opField 0x04000001 = 0x04 ∧ cfgA.flowControl = false)
    ∧ (isCommandOp (opField 0x0F000001) ∧ ¬ ReservedZero 0x0F000001)
    ∧ (isCommandOp (opField 0x01000000) ∧ ReservedZero 0x01000000)
    ∧ (¬ ReservedZero 0x80010001 ∧ chField 0x80010001 < cfgA.channelCount)
    ∧ (ReservedZero 0x83020000 ∧ cfgA.channelCount ≤ chField 0x83020000)
    ∧ (¬ ReservedZero 0x82020100 ∧ cfgA.channelCount ≤ chField 0x82020100)
    ∧ (ReservedZero 0x820100FF ∧ chField 0x820100FF < cfgA.channelCount) :=
  ⟨by decide, by decide, by decide, by decide, by decide, by decide, by decide, by decide, by decide, by decide⟩

theorem witness_SetflowExistsOnlyWithFlowControl : cfgA.flowControl = false ∧ opField 0x04000002 = 0x04
    ∧ cfgB.flowControl = true := by decide

theorem witness_WrstrIsOneWriteForEachByte : (0 : Byte) ∉ [(0x48 : Byte), 0x69]
    ∧ readChannel (.plain "255".toList) = some 255 ∧ readText (.text "Hi".toList) = some (some [0x48, 0x69])
    ∧ readText (.plain "NULL".toList) = some none := by decide

theorem witness_OccupancyDecidesEmptyAndFull : 2 ≤ 2 ∧ Ring.InRange 2 ⟨[0, 0], 1, 0⟩
    ∧ Ring.InRange 8 ⟨List.replicate 8 0, 0, 7⟩ := by decide

theorem witness_PushStoresAtWriteUnlessFull :
    (Ring.InRange 2 ⟨[0, 0], 0, 1⟩ ∧ Ring.isFull 2 ⟨[0, 0], 0, 1⟩ = true)
    ∧ (Ring.InRange 2 ⟨[0, 0], 1, 1⟩ ∧ Ring.isFull 2 ⟨[0, 0], 1, 1⟩ = false) := by decide

theorem witness_PopReadsAndClearsTheSlot :
    (Ring.InRange 2 ⟨[5, 6], 1, 0⟩ ∧ Ring.pop 2 ⟨[5, 6], 1, 0⟩ = some (6, ⟨[5, 0], 0, 0⟩))
    ∧ Ring.isEmpty ⟨[5, 6], 1, 1⟩ = true := by decide

theorem witness_CapacityLaw : Ring.InRange 4 ⟨[1, 2, 3, 4], 3, 1⟩
    ∧ [(9 : Byte)].length = 4 - 1 - Ring.occupancy 4 ⟨[1, 2, 3, 4], 3, 1⟩ := by decide

theorem witness_FifoLaw : 2 ≤ 4 ∧ Ring.InRange 4 ⟨[0, 0, 0, 0], 3, 3⟩ := by decide

theorem witness_KickStartsDraining :
    Channel.OpenInv cfgB (opened cfgB) ∧ (opened cfgB).active = true ∧ (opened cfgB).txIdle = true :=
  ⟨opened_inv.opened (by decide), by decide⟩

theorem witness_WriteCompletes :
    (∃ s : State, s = machine cfgB (opened cfgB) [] ∧ s.actions = [] ∧ 0 < s.cfg.channelCount
      ∧ (s.chan 0).active = true)
    ∧ (∃ s : State, s = machine cfgB (opened cfgB) [.write 0 1] ∧ s.actions = [.write 0 1]
      ∧ (s.chan 0).tx.isFull s.cfg.txCapacity = false)
    ∧ (∃ s : State, s = machine cfgB { opened cfgB with tx := ⟨List.replicate 8 7, 1, 0⟩ } [.write 0 1]
      ∧ s.actions = [.write 0 1] ∧ (s.chan 0).tx.isFull s.cfg.txCapacity = true) :=
  ⟨⟨_, rfl, by decide⟩, ⟨_, rfl, by decide⟩, ⟨_, rfl, by decide⟩⟩

theorem witness_Wru16Completes :
    (∃ s : State, s = machine cfgB (opened cfgB) [] ∧ s.actions = [] ∧ 0 < s.cfg.channelCount
      ∧ (s.chan 0).active = true)
    ∧ (∃ s : State, s = machine cfgB (opened cfgB) [.digit 0 0x31] ∧ s.actions = .digit 0 0x31 :: []
      ∧ (s.chan 0).tx.isFull s.cfg.txCapacity = false)
    ∧ (∃ s : State, s = machine cfgB { opened cfgB with tx := ⟨List.replicate 8 7, 1, 0⟩ } [.digit 0 0x31]
      ∧ s.actions = .digit 0 0x31 :: [] ∧ (s.chan 0).tx.isFull s.cfg.txCapacity = true) :=
  ⟨⟨_, rfl, by decide⟩, ⟨_, rfl, by decide⟩, ⟨_, rfl, by decide⟩⟩

theorem witness_DecIsTheDecimalRendering : (dec 0).head? = some 0x30 ∧ (0x30 : Byte) ∈ dec 100 := by decide

theorem witness_QueriesEmitTheirPredicate :
    (∃ s : State, s = machine cfgB (opened cfgB) [] ∧ s.actions = [] ∧ 0 < s.cfg.channelCount
      ∧ (s.chan 0).active = true)
    ∧ (machine cfgB (opened cfgB) [.istxfull 0]).actions = [.istxfull 0]
    ∧ (machine cfgB (opened cfgB) [.istxempty 0]).actions = [.istxempty 0]
    ∧ (machine cfgB (opened cfgB) [.haschar 0]).actions = [.haschar 0]
    ∧ (machine cfgB (opened cfgB) [.isrxempty 0]).actions = [.isrxempty 0]
    ∧ (machine cfgB (opened cfgB) [.isrxfull 0]).actions = [.isrxfull 0] :=
  ⟨⟨_, rfl, by decide⟩, by decide⟩

/-- The hypotheses of the three clauses on a channel: control byte, data byte, nothing to send. -/
theorem witness_TransmitHandlerCompletes :
    (controlWaiting.active = true ∧ controlWaiting.txIE = true ∧ controlWaiting.txHold = none
      ∧ cfgB.flowControl = true ∧ controlWaiting.pending = some 0x13)
    ∧ (dataWaiting.active = true ∧ dataWaiting.txIE = true ∧ dataWaiting.txHold = none
      ∧ dataWaiting.pending = none ∧ dataWaiting.tx.read ≠ dataWaiting.tx.write)
    ∧ (∃ x : Channel, x = { opened cfgA with txIdle := false, txIE := true } ∧ x.active = true
      ∧ x.txIE = true ∧ x.txHold = none ∧ cfgA.flowControl = false ∧ x.tx.read = x.tx.write)
    ∧ (machine cfgB dataWaiting []).gie = true ∧ 0 < (machine cfgB dataWaiting []).cfg.channelCount :=
  ⟨by decide, by decide, ⟨_, rfl, by decide⟩, by decide⟩

theorem witness_LineTxCompletes :
    (byteInHold.active = true ∧ byteInHold.txEn = true ∧ byteInHold.txHold = some 0x48)
    ∧ (Channel.powerOn cfgB).active = false ∧ (opened cfgB).txHold = none
    ∧ Channel.txEn { opened cfgB with txEn := false } = false := by decide

/-- A byte to store below the mark, one at the mark, and one to drop. -/
theorem witness_ReceiveHandlerCompletes :
    (∃ s : State, ∃ x y : Channel, s = machine cfgB bytesReceived [] ∧ x = s.chan 0 ∧ s.gie = true
      ∧ x.active = true ∧ x.rxIE = true ∧ x.rxHold = some 0x42
      ∧ y = { x with rxHold := none, rx := ⟨0x41 :: 0x42 :: List.replicate 14 0, 0, 2⟩, rxCount := 2 }
      ∧ ¬ (s.cfg.flowControl = true ∧ y.flowOn = true ∧ s.cfg.rxCapacity - s.cfg.flowMark ≤ y.rxCount))
    ∧ (∃ s : State, s = machine cfgB { bytesReceived with rx := ⟨List.replicate 16 7, 5, 15⟩, rxCount := 10 } []
      ∧ s.cfg.flowControl = true ∧ (s.chan 0).flowOn = true
      ∧ s.cfg.rxCapacity - s.cfg.flowMark ≤ (s.chan 0).rxCount + 1)
    ∧ (∃ s : State, s = machine cfgA { opened cfgA with rx := ⟨List.replicate 8 7, 1, 0⟩, rxHold := some 9 } []
      ∧ (s.chan 0).rxHold = some 9 ∧ (s.chan 0).rx.isFull s.cfg.rxCapacity = true) :=
  ⟨⟨_, _, _, rfl, rfl, by decide, by decide, by decide, by decide, rfl, by decide⟩, ⟨_, rfl, by decide⟩,
    ⟨_, rfl, by decide⟩⟩

theorem witness_LineRxCompletes :
    ((opened cfgB).active = true ∧ (opened cfgB).rxEn = true ∧ (opened cfgB).rxHold = none)
    ∧ (bytesReceived.rxEn = true ∧ bytesReceived.rxHold = some 0x42 ∧ cfgB.rxOverrunPolicy = .dropNew)
    ∧ Config.rxOverrunPolicy { cfgB with rxOverrunPolicy := .overwrite } = .overwrite
    ∧ (Channel.powerOn cfgB).rxEn = false ∧ (Channel.powerOn cfgB).active = false := by decide

/-- Fetch, empty, a read that turns flow On (at the low mark), and one that does not. -/
theorem witness_ReadCompletes :
    ((machine cfgB (opened cfgB) [.read 0]).actions = [.read 0] ∧ (opened cfgB).rx.read = (opened cfgB).rx.write)
    ∧ (bytesReceived.rx.read ≠ bytesReceived.rx.write ∧ bytesReceived.flowOn = true)
    ∧ (∃ x : Channel, x = { opened cfgB with rx := ⟨List.replicate 16 7, 0, 6⟩, rxCount := 6, flowOn := false }
      ∧ x.rx.read ≠ x.rx.write ∧ cfgB.flowControl = true ∧ x.flowOn = false ∧ x.rxCount - 1 ≤ cfgB.flowMark) :=
  ⟨by decide, by decide, ⟨_, rfl, by decide⟩⟩

theorem witness_ReadbCompletes :
    ((machine cfgB (opened cfgB) [.readb 0]).actions = [.readb 0] ∧ (opened cfgB).rx.read = (opened cfgB).rx.write)
    ∧ (bytesReceived.rx.read ≠ bytesReceived.rx.write ∧ bytesReceived.flowOn = true)
    ∧ (∃ x : Channel, x = { opened cfgB with rx := ⟨List.replicate 16 7, 0, 6⟩, rxCount := 6, flowOn := false }
      ∧ x.rx.read ≠ x.rx.write ∧ cfgB.flowControl = true ∧ x.flowOn = false ∧ x.rxCount - 1 ≤ cfgB.flowMark) :=
  ⟨by decide, by decide, ⟨_, rfl, by decide⟩⟩

theorem witness_SetflowCompletes :
    cfgB.flowControl = true ∧ (machine cfgB (opened cfgB) []).actions = [] ∧ (opened cfgB).active = true
    ∧ ((machine cfgB (opened cfgB) [.flowQueue 0 true, .flowServed 0]).actions = [.flowQueue 0 true, .flowServed 0]
      ∧ (opened cfgB).pending = none)
    ∧ ((machine cfgB controlWaiting [.flowServed 0]).actions = [.flowServed 0]
      ∧ controlWaiting.pending ≠ none) := by decide

/-- V6 R2 (at the mark) and R1 (below it). -/
theorem witness_FlowOffExactlyAtTheHighMark :
    (∃ s t : State, s = machine cfgB { bytesReceived with rx := ⟨List.replicate 16 7, 5, 15⟩, rxCount := 10 } []
      ∧ s.ch.length = s.cfg.channelCount ∧ exec (.evRxc 0) s = .next t
      ∧ (s.chan 0).flowOn = true ∧ s.cfg.rxCapacity - s.cfg.flowMark ≤ (t.chan 0).rxCount)
    ∧ (∃ s t : State, s = machine cfgB bytesReceived [] ∧ exec (.evRxc 0) s = .next t
      ∧ ¬ (s.cfg.rxCapacity - s.cfg.flowMark ≤ (t.chan 0).rxCount)) :=
  ⟨⟨_, _, rfl, by decide, rfl, by decide⟩, ⟨_, _, rfl, rfl, by decide⟩⟩

theorem witness_FlowOnExactlyAtTheLowMark :
    (∃ s t : State, s = machine cfgB { opened cfgB with
          rx := ⟨List.replicate 16 7, 0, 6⟩, rxCount := 6, flowOn := false } [.read 0]
      ∧ s.actions = [.read 0] ∧ exec (.read 0) s = .next t ∧ (s.chan 0).rx.isEmpty = false
      ∧ (s.chan 0).flowOn = false ∧ (s.chan 0).rxCount - 1 ≤ s.cfg.flowMark)
    ∧ (∃ s t : State, s = machine cfgB bytesReceived [.readb 0] ∧ s.actions = [.readb 0]
      ∧ exec (.readb 0) s = .next t ∧ (s.chan 0).flowOn = true) :=
  ⟨⟨_, _, rfl, rfl, rfl, by decide⟩, ⟨_, _, rfl, rfl, rfl, by decide⟩⟩

theorem witness_PendingSlotTakesOnlyControlBytes :
    ∃ s t : State, s = machine cfgB (opened cfgB) [.flowQueue 0 false, .flowServed 0]
      ∧ exec (.setflow 0 false) s = .next t ∧ (t.chan 0).pending = some 0x13 :=
  ⟨_, _, rfl, rfl, rfl⟩

/-- An arrival at the high mark with flow On, and a read at the low mark with flow Off. -/
theorem witness_FlowControlHysteresis :
    (cfgB.flowControl = true ∧ cfgB.low + 1 < cfgB.high)
    ∧ (∃ s t : State, s = machine cfgB { bytesReceived with rx := ⟨List.replicate 16 7, 5, 15⟩, rxCount := 10 } []
      ∧ (s.chan 0).active = true ∧ (s.chan 0).flowOn = true ∧ (s.chan 0).rxCount < s.cfg.high
      ∧ exec (.evRxc 0) s = .next t ∧ (t.chan 0).active = true ∧ (t.chan 0).flowOn = false)
    ∧ (∃ s t : State, s = machine cfgB { opened cfgB with
          rx := ⟨List.replicate 16 7, 0, 6⟩, rxCount := 6, flowOn := false } [.read 0]
      ∧ (s.chan 0).active = true ∧ s.cfg.low < (s.chan 0).rxCount ∧ exec (.read 0) s = .next t
      ∧ (t.chan 0).active = true ∧ (t.chan 0).flowOn = true) :=
  ⟨by decide, ⟨_, _, rfl, by decide, by decide, by decide, rfl, by decide⟩,
    ⟨_, _, rfl, by decide, by decide, rfl, by decide⟩⟩

theorem witness_InvalidChannelIsANeutralNoOp :
    ∃ s : State, s = machine cfgB (opened cfgB) [] ∧ s.actions = [] ∧ s.cfg.channelCount ≤ 1
      ∧ s.cfg.flowControl = true := ⟨_, rfl, by decide⟩

theorem witness_InactiveChannelIsRefused :
    ∃ s : State, s = machine cfgB (Channel.powerOn cfgB) [] ∧ Instr.isEvent (.setflow 0 true) = false
      ∧ s.actions = [] ∧ s.cfg.flowControl = true ∧ 0 < s.cfg.channelCount ∧ (s.chan 0).active = false :=
  ⟨_, rfl, by decide⟩

theorem witness_InitCompletes :
    (machine cfgB (Channel.powerOn cfgB) [.init 0 1]).actions = [.init 0 1]
    ∧ (Channel.powerOn cfgB).active = false ∧ (opened cfgB).active = true
    ∧ 0 < (machine cfgB (opened cfgB) []).cfg.channelCount := by decide

theorem witness_CloseCompletes :
    (machine cfgB (opened cfgB) [.close 0]).actions = [.close 0] ∧ (opened cfgB).txIdle = true
    ∧ dataWaiting.txIdle = false ∧ dataWaiting.active = true := by decide

theorem witness_ChcountCompletes : State.reset.actions = []
    ∧ (machine cfgB (opened cfgB) [.chcount]).actions = [.chcount] := by decide

theorem witness_SeiAndCliComplete : State.reset.actions = []
    ∧ (machine cfgB (opened cfgB) [.sei]).actions = [.sei]
    ∧ (machine cfgB (opened cfgB) [.cli]).actions = [.cli]
    ∧ (∃ t : State, State.reset.gie = false ∧ State.reset.actions.head? ≠ some .sei
      ∧ exec .sei State.reset = .next t) :=
  ⟨rfl, rfl, rfl, ⟨_, rfl, by decide, rfl⟩⟩

theorem witness_GlobalFlagHasTwoWriters :
    State.reset.gie = false ∧ State.reset.IsPowerOn
    ∧ (∃ s t : State, s = machine cfgB (opened cfgB) [.cli] ∧ exec .cli s = .next t ∧ t.gie ≠ s.gie) :=
  ⟨by decide, by decide, ⟨_, _, rfl, rfl, by decide⟩⟩

theorem witness_ChannelsAreIsolated :
    Instr.channel? (.write 0 1) ≠ some 1 ∧ (∀ a ∈ [Action.write 0 1], a.channel? ≠ some 1)
    ∧ (∃ t : State, exec (.write 0 1) (machine cfgA (opened cfgA) [.write 0 1]) = .next t) :=
  ⟨by decide, by decide, ⟨_, rfl⟩⟩

theorem witness_EventsRunExactlyWhenEnabled :
    (∃ t, exec (.evRxc 0) (machine cfgB bytesReceived []) = .next t)
    ∧ (∃ t, exec (.evUdre 0) (machine cfgB dataWaiting []) = .next t)
    ∧ (∃ t, exec (.lineTx 0) (machine cfgB byteInHold []) = .next t)
    ∧ (∃ t, exec (.lineRx 0 5) (machine cfgB (opened cfgB) []) = .next t)
    ∧ exec (.evUdre 0) (machine cfgB byteInHold []) = .refused .eventNotEnabled
    ∧ exec (.evUdre 1) (machine cfgB byteInHold []) = .refused (.noSuchChannel 0x81010000) :=
  ⟨⟨_, rfl⟩, ⟨_, rfl⟩, ⟨_, rfl⟩, ⟨_, rfl⟩, rfl, rfl⟩

/-- A request that LINE_RX raises, one that LINE_TX raises and one that a kick raises. -/
theorem witness_HandlersClearTheirRequest :
    (∃ s t : State, s = machine cfgB (opened cfgB) [] ∧ exec (.lineRx 0 5) s = .next t
      ∧ (s.chan 0).rxReq = false ∧ (t.chan 0).rxReq = true)
    ∧ (∃ s t : State, s = machine cfgB byteInHold [] ∧ exec (.lineTx 0) s = .next t
      ∧ (s.chan 0).txReq = false ∧ (t.chan 0).txReq = true)
    ∧ (∃ s t : State, s = machine cfgB (opened cfgB) [.write 0 1] ∧ exec (.write 0 1) s = .next t
      ∧ (s.chan 0).txReq = false ∧ (t.chan 0).txReq = true) :=
  ⟨⟨_, _, rfl, rfl, by decide⟩, ⟨_, _, rfl, rfl, by decide⟩, ⟨_, _, rfl, rfl, by decide⟩⟩

theorem witness_NoStepFaults :
    ((machine cfgB (opened cfgB) []).chan 0).rxHold = none
    ∧ ((machine cfgB byteInHold []).chan 0).txHold ≠ none := by decide

/-- A scheduled FG, a scheduled event and an unscheduled state. -/
theorem witness_StepRunsTheDecodedInstruction :
    (∃ s : State, s = State.powerOn cfgB [0x02000067] [.fg] ∧ s.refused = false ∧ s.cfg.valid = true
      ∧ s.schedule = .fg :: [] ∧ s.prog[s.pc]? = some 0x02000067
      ∧ decodeProgramWord s.cfg 0x02000067 = .ok (.init 0 103))
    ∧ (∃ s : State, s = { machine cfgB (opened cfgB) [] with schedule := [.event 0x82000041] }
      ∧ s.schedule = .event 0x82000041 :: [] ∧ decodeScheduleWord s.cfg 0x82000041 = .ok (.lineRx 0 0x41))
    ∧ (∃ s : State, s = State.powerOn cfgB [0x02000067] [] ∧ s.schedule = [] ∧ s.freeTurn = some .foreground) :=
  ⟨⟨_, rfl, rfl, rfl, rfl, rfl, rfl⟩, ⟨_, rfl, rfl, rfl⟩, ⟨_, rfl, rfl, by
    show ([Turn.foreground] : List Turn)[Config.freeChoice 0 % 1]? = _
    rw [Nat.mod_one]; rfl⟩⟩

theorem witness_StepRefusesUndecodableWords :
    (∃ s : State, s = State.powerOn cfgB [0x00000000] [.fg] ∧ s.schedule = .fg :: [] ∧ s.actions = []
      ∧ s.prog[s.pc]? = some 0x00000000 ∧ decodeProgramWord s.cfg 0 = .error (.illegalOpcode 0))
    ∧ decodeScheduleWord cfgB 0x06000000 = .error (.commandInSchedule 0x06000000)
    ∧ (State.powerOn cfgB [] [.fg]).prog.length ≤ (State.powerOn cfgB [] [.fg]).pc :=
  ⟨⟨_, rfl, rfl, rfl, rfl, rfl⟩, rfl, by decide⟩

theorem witness_UnscheduledStepTakesAnEnabledTurn :
    State.reset.refused = false ∧ State.reset.cfg.valid = true ∧ State.reset.schedule = []
    ∧ Turn.event (.evRxc 0) ∈ (machine cfgB bytesReceived []).turns 0 := by decide

theorem witness_PcAdvancesOnceACommand :
    (∃ s t : State, s = machine cfgB (opened cfgB) [.sei] ∧ exec .sei s = .next t ∧ t.pc = s.pc + 1)
    ∧ Action.guard .sei State.reset = true ∧ State.reset.pc = State.reset.prog.length :=
  ⟨⟨_, _, rfl, rfl, by decide⟩, by decide⟩

theorem witness_ProgramIsFixed : ∃ t, step (State.powerOn cfgB [0x02000067] [.fg]) = .next t := ⟨_, rfl⟩

/-- Nothing is enabled at reset, whatever the free values. -/
theorem reset_runEnded : step State.reset = .refused .runEnded := rfl

theorem witness_RefusalStopsTheMachine :
    step (State.powerOn cfgB [0x0A000041] [.fg]) = .refused (.channelNotActive 0)
    ∧ Refusal.stopsModel (.channelNotActive 0) = true
    ∧ State.refused { State.reset with refused := true } = true
    ∧ step State.reset = .refused .runEnded := ⟨rfl, rfl, rfl, reset_runEnded⟩

/-- R303: a run that has ended is not refused and has its observation. -/
theorem test_end_of_run_is_observed :
    State.reset.after = State.reset ∧ State.reset.after.observation = some ([], State.reset.ch) := by
  rw [State.after_no_step reset_runEnded rfl]
  exact ⟨rfl, by decide⟩

theorem witness_InvalidConfigurationIsRefused :
    Config.valid { cfgB with rxCapacity := 7 } = false ∧ Config.valid { cfgB with flowMark := 16 } = false
    ∧ Config.valid { cfgB with flowMark := 15 } = true := by decide

theorem witness_PowerOnHasOnlyTheForeground : State.reset.IsPowerOn ∧ Instr.isEvent (.lineRx 0 1) = true := by
  decide

theorem witness_EveryStepKeepsTheInvariant :
    (State.reset.IsPowerOn ∧ State.reset.cfg.valid = true)
    ∧ ∃ s t : State, s = { machine cfgB bytesReceived [] with schedule := [.event 0x80000000] } ∧ s.Inv
      ∧ step s = .next t :=
  ⟨by decide, ⟨_, _, rfl, ⟨by decide, rfl, (machine_inv bytesReceived_inv).channels, Nat.le_refl 0, rfl, rfl⟩,
    rfl⟩⟩

/-- Two channels at power-on that differ in an unspecified value. -/
theorem powerOn_alike : (Channel.powerOn cfgB).Alike cfgB { Channel.powerOn cfgB with txIdle := true } :=
  ⟨rfl, by decide, by decide, by decide, by decide, by decide, by decide, by decide⟩

/-- Two power-on states that differ in an unspecified value; they are alike and meet the invariant. -/
theorem witness_PowerOnValuesAreNeverObserved :
    ∃ s t : State, s = machine cfgB (Channel.powerOn cfgB) []
      ∧ t = machine cfgB { Channel.powerOn cfgB with txIdle := true } [] ∧ s ≠ t
      ∧ ({ s with gie := false } : State).IsPowerOn ∧ ({ t with gie := false } : State).IsPowerOn
      ∧ s.cfg = t.cfg ∧ s.prog = t.prog ∧ s.schedule = t.schedule ∧ s.draws = t.draws
      ∧ s.Inv ∧ t.Inv ∧ s.Alike t :=
  ⟨_, _, rfl, rfl, by decide, by decide, by decide, rfl, rfl, rfl, rfl,
    machine_inv ⟨by decide, by decide, fun h => absurd h (by decide), fun _ => ⟨by decide, by decide⟩⟩,
    machine_inv ⟨by decide, by decide, fun h => absurd h (by decide), fun _ => ⟨by decide, by decide⟩⟩,
    ⟨rfl, rfl, fun c hc => by
      have h0 : c = 0 := Nat.lt_one_iff.mp hc
      subst h0; exact powerOn_alike, rfl, ⟨rfl, rfl, rfl, rfl, rfl⟩, ⟨rfl, rfl⟩⟩⟩

/-- The handler, a WRITE, and a step that sends nothing. -/
theorem witness_TransmittedBytesKeepTheirOrder :
    ((machine cfgB dataWaiting []).Inv ∧ ∃ t, exec (.evUdre 0) (machine cfgB dataWaiting []) = .next t)
    ∧ (∃ s t : State, s = { machine cfgB (opened cfgB) [.write 0 1] with prog := [0x0A000001] } ∧ s.Inv
      ∧ exec (.write 0 1) s = .next t ∧ s.actions = .write 0 1 :: []
      ∧ (s.chan 0).tx.isFull s.cfg.txCapacity = false)
    ∧ ∃ t, exec (.evRxc 0) (machine cfgB bytesReceived []) = .next t :=
  ⟨⟨machine_inv dataWaiting_inv, ⟨_, rfl⟩⟩,
    ⟨_, _, rfl, ⟨by decide, rfl, (machine_inv opened_inv).channels, by decide, by decide, rfl⟩, rfl, rfl,
      by decide⟩, ⟨_, rfl⟩⟩

theorem witness_ReceivedBytesKeepTheirOrder :
    ((machine cfgB bytesReceived []).Inv ∧ ∃ t, exec (.evRxc 0) (machine cfgB bytesReceived []) = .next t
      ∧ (t.chan 0).active = true)
    ∧ (∃ t, exec (.lineRx 0 7) (machine cfgB bytesReceived []) = .next t ∧ (t.chan 0).active = true)
    ∧ (∃ s t : State, s = { machine cfgB bytesReceived [.read 0] with prog := [0x06000000] } ∧ s.Inv
      ∧ exec (.read 0) s = .next t ∧ s.actions = .read 0 :: [] ∧ (s.chan 0).rx.isEmpty = false
      ∧ (t.chan 0).active = true)
    ∧ (∃ t, exec (.lineRx 0 7) (machine { cfgB with rxOverrunPolicy := .overwrite } bytesReceived []) = .next t)
    ∧ (∃ t, exec .sei (machine cfgB bytesReceived []) = .next t) :=
  ⟨⟨machine_inv bytesReceived_inv, ⟨_, rfl, by decide⟩⟩, ⟨_, rfl, by decide⟩,
    ⟨_, _, rfl, ⟨by decide, rfl, (machine_inv bytesReceived_inv).channels, by decide, by decide, rfl⟩, rfl, rfl,
      by decide, by decide⟩, ⟨_, rfl⟩, ⟨_, rfl⟩⟩

/-- A step of each writer, with fields that it changes. -/
theorem witness_SharedFieldsHaveTheirWriters :
    (∃ s t : State, s = machine cfgB bytesReceived [] ∧ exec (.evRxc 0) s = .next t
      ∧ (t.chan 0).rx.write ≠ (s.chan 0).rx.write ∧ (t.chan 0).rx.buf ≠ (s.chan 0).rx.buf
      ∧ (t.chan 0).rxCount ≠ (s.chan 0).rxCount)
    ∧ (∃ s t : State, s = machine cfgB bytesReceived [.read 0] ∧ exec (.read 0) s = .next t
      ∧ (t.chan 0).rx.read ≠ (s.chan 0).rx.read)
    ∧ (∃ s t : State, s = machine cfgB (opened cfgB) [.write 0 1] ∧ exec (.write 0 1) s = .next t
      ∧ (t.chan 0).tx.write ≠ (s.chan 0).tx.write ∧ (t.chan 0).tx.buf ≠ (s.chan 0).tx.buf
      ∧ (t.chan 0).txIdle ≠ (s.chan 0).txIdle)
    ∧ (∃ s t : State, s = machine cfgB dataWaiting [] ∧ exec (.evUdre 0) s = .next t
      ∧ (t.chan 0).tx.read ≠ (s.chan 0).tx.read)
    ∧ (∃ s t : State, s = machine cfgB (opened cfgB) [.flowQueue 0 false, .flowServed 0]
      ∧ exec (.setflow 0 false) s = .next t ∧ (t.chan 0).pending ≠ (s.chan 0).pending
      ∧ (t.chan 0).flowOn ≠ (s.chan 0).flowOn) :=
  ⟨⟨_, _, rfl, rfl, by decide⟩, ⟨_, _, rfl, rfl, by decide⟩, ⟨_, _, rfl, rfl, by decide⟩,
    ⟨_, _, rfl, rfl, by decide⟩, ⟨_, _, rfl, rfl, by decide⟩⟩

theorem witness_OnlyTheForegroundEmptiesTheReceiveBuffer :
    (machine cfgB bytesReceived []).Inv ∧ Instr.isEvent (.evRxc 0) = true
    ∧ bytesReceived.rx.isEmpty = false ∧ ∃ t, exec (.evRxc 0) (machine cfgB bytesReceived []) = .next t :=
  ⟨machine_inv bytesReceived_inv, by decide, by decide, ⟨_, rfl⟩⟩

theorem witness_CountStaysBelowTheCapacity :
    (machine cfgB bytesReceived []).Inv ∧ cfgB.flowControl = true ∧ bytesReceived.active = true :=
  ⟨machine_inv bytesReceived_inv, by decide⟩

/-- Every wait with its guard false, and a run of one step. -/
theorem witness_MaskedWaitsNeverEnd :
    (∃ s t : State, s = { machine cfgB (opened cfgB) [.readb 0] with gie := false, schedule := [.fg] }
      ∧ s.gie = false ∧ s.actions = .readb 0 :: [] ∧ Action.guard (.readb 0) s = false
      ∧ Sys2Proof.core.run 1 s = .next t)
    ∧ Action.guard (.write 0 1) (machine cfgB { opened cfgB with tx := ⟨List.replicate 8 7, 1, 0⟩ } []) = false
    ∧ Action.guard (.digit 0 1) (machine cfgB { opened cfgB with tx := ⟨List.replicate 8 7, 1, 0⟩ } []) = false
    ∧ Action.guard (.flowQueue 0 true) (machine cfgB controlWaiting []) = false
    ∧ Action.guard (.flowServed 0) (machine cfgB controlWaiting []) = false
    ∧ Action.guard (.close 0) (machine cfgB dataWaiting []) = false :=
  ⟨⟨_, _, rfl, rfl, rfl, rfl, rfl⟩, by decide⟩

theorem witness_DrainingTakesOneInvocationMore :
    ∃ s : State, s = { machine cfgB dataWaiting [] with schedule := drainSchedule 0 1 } ∧ s.Inv
      ∧ 0 < s.cfg.channelCount ∧ s.gie = true ∧ (s.chan 0).active = true ∧ (s.chan 0).txIdle = false
      ∧ (s.chan 0).txHold = none ∧ 1 = ((s.chan 0).sent s.cfg).length - (s.chan 0).txWire.length
      ∧ s.schedule = drainSchedule 0 1 ++ [] :=
  ⟨_, rfl, ⟨by decide, rfl, (machine_inv dataWaiting_inv).channels, Nat.le_refl 0, rfl, rfl⟩, by decide,
    rfl, by decide, by decide, by decide, by decide, (List.append_nil _).symm⟩

theorem witness_QuiescentChannelsAreDrained :
    (machine cfgB (opened cfgB) []).Inv ∧ (machine cfgB (opened cfgB) []).quiescent = true
    ∧ (machine cfgB (opened cfgB) []).gie = true ∧ (opened cfgB).active = true :=
  ⟨machine_inv opened_inv, by decide⟩

theorem witness_AssembledInstructionsFitTheirFields :
    assembleLine cfgB "WRITE 255, 'H'".toList = some [.write 255 0x48]
    ∧ readBase 10 "256".toList = some 256 ∧ readNumber "0xFFFF".toList = some 65535
    ∧ readNumber "65536".toList = some 65536 ∧ ('H'.toNat = 0x48 ∧ 0x48 < 128) := by decide

end Sys2Proof.Tests
end

section
/-! PROOFS. What one step can do to one channel, to the global flag and to the program counter, each said
once, and the obligations about `10_state.md` that follow from it. -/

namespace Sys2Proof.Machine

-- One channel

/-- The updates of a channel by the body of an action, with what the body knows when it makes them. -/
inductive Action.Update (cfg : Config) : Action → Channel → Channel → Prop where
  | init (c : Nat) (baud : Half) {x : Channel} (h : x.active = false) :
      Update cfg (.init c baud) x (x.opened cfg baud)
  | close (c : Nat) (x : Channel) : Update cfg (.close c) x (x.closed cfg)
  | flowOn (c : Nat) (x : Channel) : Update cfg (.flowQueue c true) x (x.goOn cfg)
  | flowOff (c : Nat) (x : Channel) : Update cfg (.flowQueue c false) x (x.goOff cfg)
  | read (c : Nat) {x : Channel} {b : Byte} {rx : Ring} (h : x.rx.pop cfg.rxCapacity = some (b, rx)) :
      Update cfg (.read c) x (x.took cfg rx)
  | readb (c : Nat) {x : Channel} {b : Byte} {rx : Ring} (h : x.rx.pop cfg.rxCapacity = some (b, rx)) :
      Update cfg (.readb c) x (x.took cfg rx)
  | write (c : Nat) (b : Byte) (x : Channel) : Update cfg (.write c b) x (x.send cfg b)
  | digit (c : Nat) (d : Byte) (x : Channel) : Update cfg (.digit c d) x (x.send cfg d)

/-- The updates of a channel by an event, with the condition under which the event runs. -/
inductive EventUpdate (cfg : Config) : Instr → Channel → Channel → Prop where
  | evRxc (c : Nat) {x : Channel} {b : Byte} (h : x.rxReq = true) (hb : x.rxHold = some b) :
      EventUpdate cfg (.evRxc c) x (x.serveRx cfg b)
  | evUdre (c : Nat) {x : Channel} (h : x.txReq = true) : EventUpdate cfg (.evUdre c) x (x.serveTx cfg)
  | lineRx (c : Nat) (b : Byte) {x : Channel} (h : x.lineRxReady = true) :
      EventUpdate cfg (.lineRx c b) x (x.lineRx cfg b)
  | lineTx (c : Nat) {x : Channel} (h : x.lineTxReady = true) : EventUpdate cfg (.lineTx c) x x.lineTx

/-- After an update of channel `c`, channel `d` is as before, or it is `c` and updated. -/
theorem State.chan_onChan_cases (s : State) (c d : Nat) (f : Channel → Channel) :
    (s.onChan c f).chan d = s.chan d ∨ (c = d ∧ (s.onChan c f).chan d = f (s.chan d)) := by
  by_cases hd : d = c
  · subst hd
    by_cases hlen : d < s.ch.length
    · exact .inr ⟨rfl, s.chan_onChan_same d f hlen⟩
    · have hsame : s.onChan d f = s := s.setChan_outside d _ (Nat.not_lt.mp hlen)
      exact .inl (by rw [hsame])
  · exact .inl (s.chan_onChan_other c d f hd)

/-- All READ's and READB's body can do: emit 0 and change nothing else, or pop a byte and emit it. -/
theorem takeByte_cases (c : Nat) (s : State) :
    takeByte c s = s.emit (.byte 0) ∨
    ∃ b rx, (s.chan c).rx.pop s.cfg.rxCapacity = some (b, rx) ∧
      takeByte c s = (s.onChan c (Channel.took s.cfg rx)).emit (.byte b) := by
  unfold takeByte
  split
  · exact .inl rfl
  · next b rx h => exact .inr ⟨b, rx, h, rfl⟩

/-- An update `f` of the channel `c` that `who` names reaches channel `d` only if `who` names `d`, and then
relates `d` before and after as it relates `c`. -/
theorem State.onChan_reaches {R : Channel → Channel → Prop} {who : Option Nat} {s : State} {c : Nat}
    {f : Channel → Channel} (hc : who = some c) (h : R (s.chan c) (f (s.chan c))) (d : Nat) :
    (s.onChan c f).chan d = s.chan d ∨ (who = some d ∧ R (s.chan d) ((s.onChan c f).chan d)) := by
  obtain hsame | ⟨rfl, hd⟩ := s.chan_onChan_cases c d f
  · exact .inl hsame
  · exact .inr ⟨hc, hd ▸ h⟩

/-- READ's and READB's body reaches a channel only as `Channel.took` of the channel it names. -/
theorem takeByte_reaches {R : Channel → Channel → Prop} {who : Option Nat} {s : State} {c : Nat}
    (hc : who = some c) (h : ∀ b rx, (s.chan c).rx.pop s.cfg.rxCapacity = some (b, rx) →
      R (s.chan c) ((s.chan c).took s.cfg rx)) (d : Nat) :
    (takeByte c s).chan d = s.chan d ∨ (who = some d ∧ R (s.chan d) ((takeByte c s).chan d)) := by
  obtain e | ⟨b, rx, hpop, e⟩ := takeByte_cases c s
  · exact .inl (by rw [e, State.chan_emit])
  · rw [e, State.chan_emit]
    exact State.onChan_reaches hc (h b rx hpop) d

/-- All an action's body can do to a channel: nothing, or the action's update of the channel it names. -/
theorem Action.body_chan {a : Action} {s u : State} (h : a.body s = .ok u) (d : Nat) :
    u.chan d = s.chan d ∨ (a.channel? = some d ∧ a.Update s.cfg (s.chan d) (u.chan d)) := by
  have hupdate := @State.onChan_reaches (a.Update s.cfg) a.channel? s
  cases a with
  | init c baud =>
    simp only [Action.body, initBody] at h
    split at h
    · cases h
    · next hx => cases h; exact hupdate rfl (.init c baud (by simpa using hx)) d
  | close c => cases h; exact hupdate rfl (.close c _) d
  | flowQueue c on =>
    cases h
    cases on
    · exact hupdate rfl (.flowOff c _) d
    · exact hupdate rfl (.flowOn c _) d
  | read c => cases h; exact takeByte_reaches rfl (fun _ _ => Action.Update.read c) d
  | readb c => cases h; exact takeByte_reaches rfl (fun _ _ => Action.Update.readb c) d
  | write c b => cases h; exact hupdate rfl (.write c b _) d
  | digit c b => cases h; exact hupdate rfl (.digit c b _) d
  | _ => cases h; exact .inl rfl

/-- All an event can do to a channel: nothing, or its update of the channel it names. -/
theorem exec_event_chan {i : Instr} {s t : State} (hi : i.isEvent = true) (h : exec i s = .next t) (d : Nat) :
    t.chan d = s.chan d ∨ (i.channel? = some d ∧ EventUpdate s.cfg i (s.chan d) (t.chan d)) := by
  have hupdate := @State.onChan_reaches (EventUpdate s.cfg i) i.channel? s
  cases i with
  | evRxc c => obtain ⟨-, -, hr, b, hb, rfl⟩ := execEvRxc_next h; exact hupdate rfl (.evRxc c hr hb) d
  | evUdre c => obtain ⟨-, -, hr, rfl⟩ := execEvUdre_next h; exact hupdate rfl (.evUdre c hr) d
  | lineRx c b => obtain ⟨-, hr, rfl⟩ := execLineRx_next h; exact hupdate rfl (.lineRx c b hr) d
  | lineTx c => obtain ⟨-, hr, rfl⟩ := execLineTx_next h; exact hupdate rfl (.lineTx c hr) d
  | _ => simp [Instr.isEvent] at hi

/-- All an instruction can do to a channel: nothing, the update of the event, or the update of the current
command's head action, executed. -/
theorem exec_chan {i : Instr} {s t : State} (h : exec i s = .next t) (d : Nat) :
    t.chan d = s.chan d ∨
    (i.isEvent = true ∧ i.channel? = some d ∧ EventUpdate s.cfg i (s.chan d) (t.chan d)) ∨
    (i.isEvent = false ∧ ∃ a rest, s.actions = a :: rest ∧ a.guard s = true ∧ a.channel? = some d ∧
      a.Update s.cfg (s.chan d) (t.chan d)) := by
  cases hi : i.isEvent with
  | true => exact (exec_event_chan hi h d).imp_right fun hu => .inl ⟨rfl, hu⟩
  | false =>
    obtain ⟨-, rfl, -⟩ | ⟨a, rest, ha, hg, u, hb, rfl⟩ | ⟨-, -, -, -, rfl⟩ := exec_command_next hi h
    · exact .inl rfl
    · exact (Action.body_chan hb d).imp_right fun hu => .inr ⟨rfl, a, rest, ha, hg, hu⟩
    · exact .inl rfl

-- The pending slot

@[simp] theorem Channel.kick_pending (x : Channel) : x.kick.pending = x.pending := by
  unfold Channel.kick
  split <;> rfl

@[simp] theorem Channel.goOff_pending (cfg : Config) (x : Channel) :
    (x.goOff cfg).pending = some cfg.xoffByte := Channel.kick_pending _

@[simp] theorem Channel.goOn_pending (cfg : Config) (x : Channel) :
    (x.goOn cfg).pending = some cfg.xonByte := Channel.kick_pending _

@[simp] theorem Channel.send_pending (cfg : Config) (b : Byte) (x : Channel) :
    (x.send cfg b).pending = x.pending := Channel.kick_pending _

@[simp] theorem Channel.lineRx_pending (cfg : Config) (b : Byte) (x : Channel) :
    (x.lineRx cfg b).pending = x.pending := by
  unfold Channel.lineRx
  split
  · rfl
  · split <;> rfl

@[simp] theorem Channel.lineTx_pending (x : Channel) : x.lineTx.pending = x.pending := rfl

/-- The transmit handler sends the pending byte and empties the slot, or leaves the slot (R170). -/
theorem Channel.serveTx_pending (cfg : Config) (x : Channel) :
    (x.serveTx cfg).pending = none ∨ (x.serveTx cfg).pending = x.pending := by
  unfold Channel.serveTx
  split
  · exact .inl rfl
  · split <;> exact .inr rfl

/-- The receive handler leaves the slot, or queues XOFF in it (R232, R233). -/
theorem Channel.serveRx_pending (cfg : Config) (b : Byte) (x : Channel) :
    (x.serveRx cfg b).pending = x.pending ∨ (x.serveRx cfg b).pending = some cfg.xoffByte := by
  have htest : ∀ z : Channel, z.pending = x.pending →
      (if z.wantsOff cfg then z.goOff cfg else z).pending = x.pending ∨
      (if z.wantsOff cfg then z.goOff cfg else z).pending = some cfg.xoffByte := by
    intro z hz
    split
    · exact .inr (z.goOff_pending cfg)
    · exact .inl hz
  cases hf : cfg.flowControl with
  | false => exact .inl (by simp [Channel.serveRx, hf])
  | true =>
    simp only [Channel.serveRx, hf, if_true]
    exact htest _ (by split <;> rfl)

/-- A successful pop leaves the slot, or queues XON in it (R234, R235). -/
theorem Channel.took_pending (cfg : Config) (rx : Ring) (x : Channel) :
    (x.took cfg rx).pending = x.pending ∨ (x.took cfg rx).pending = some cfg.xonByte := by
  cases hf : cfg.flowControl with
  | false => exact .inl (by simp [Channel.took, hf])
  | true =>
    simp only [Channel.took, hf, if_true]
    split
    · exact .inr (Channel.goOn_pending cfg _)
    · exact .inl rfl

/-- INIT empties the slot in the flow-control build and leaves it in the other (R262). -/
theorem Channel.opened_pending (cfg : Config) (baud : Half) (x : Channel) :
    (x.opened cfg baud).pending = if cfg.flowControl then none else x.pending := by
  cases hf : cfg.flowControl <;> simp [Channel.opened, hf]

/-- CLOSE empties the slot in the flow-control build and leaves it in the other (R264). -/
theorem Channel.closed_pending (cfg : Config) (x : Channel) :
    (x.closed cfg).pending = if cfg.flowControl then none else x.pending := by
  cases hf : cfg.flowControl <;> simp [Channel.closed, hf]

/-- From `x` to `y` the slot was emptied, left, or given a control byte (R36). -/
def Channel.SlotStep (cfg : Config) (x y : Channel) : Prop :=
  y.pending = none ∨ y.pending = x.pending ∨ y.pending = some cfg.xonByte ∨ y.pending = some cfg.xoffByte

theorem Action.Update.slotStep {cfg : Config} {a : Action} {x y : Channel} (h : a.Update cfg x y) :
    x.SlotStep cfg y := by
  have htook : ∀ rx, x.SlotStep cfg (x.took cfg rx) := fun rx =>
    (x.took_pending cfg rx).elim (fun e => .inr (.inl e)) (fun e => .inr (.inr (.inl e)))
  cases h with
  | init c baud =>
    cases hf : cfg.flowControl
    · exact .inr (.inl (by simp [Channel.opened_pending, hf]))
    · exact .inl (by simp [Channel.opened_pending, hf])
  | close =>
    cases hf : cfg.flowControl
    · exact .inr (.inl (by simp [Channel.closed_pending, hf]))
    · exact .inl (by simp [Channel.closed_pending, hf])
  | flowOn => exact .inr (.inr (.inl (x.goOn_pending cfg)))
  | flowOff => exact .inr (.inr (.inr (x.goOff_pending cfg)))
  | read | readb => exact htook _
  | write _ b | digit _ b => exact .inr (.inl (x.send_pending cfg b))

theorem EventUpdate.slotStep {cfg : Config} {i : Instr} {x y : Channel} (h : EventUpdate cfg i x y) :
    x.SlotStep cfg y := by
  cases h with
  | evRxc => exact (x.serveRx_pending cfg _).elim (fun e => .inr (.inl e)) (fun e => .inr (.inr (.inr e)))
  | evUdre => exact (x.serveTx_pending cfg).elim .inl (fun e => .inr (.inl e))
  | lineRx _ b => exact .inr (.inl (x.lineRx_pending cfg b))
  | lineTx => exact .inr (.inl x.lineTx_pending)

theorem exec_slotStep {i : Instr} {s t : State} (h : exec i s = .next t) (c : Nat) :
    (s.chan c).SlotStep s.cfg (t.chan c) := by
  obtain hsame | ⟨-, -, hu⟩ | ⟨-, a, rest, -, -, -, hu⟩ := exec_chan h c
  · exact .inr (.inl (by rw [hsame]))
  · exact hu.slotStep
  · exact hu.slotStep

/-- Settles O27: every update of a channel empties the slot, leaves it, or puts a control byte in it. -/
theorem pendingSlotTakesOnlyControlBytes : Obligations.PendingSlotTakesOnlyControlBytes := by
  intro i s t c b h hb
  obtain e | e | e | e := exec_slotStep h c <;> rw [e] at hb
  · cases hb
  · exact .inr (.inr hb)
  · cases hb; exact .inl rfl
  · cases hb; exact .inr (.inl rfl)

-- The global flag

@[simp] theorem takeByte_gie (c : Nat) (s : State) : (takeByte c s).gie = s.gie := by
  obtain e | ⟨b, rx, -, e⟩ := takeByte_cases c s
  · rw [e, State.emit_gie]
  · rw [e, State.emit_gie, State.onChan_gie]

/-- All an action's body can do to the flag: SEI sets it, CLI clears it, the others leave it. -/
theorem Action.body_gie {a : Action} {s u : State} (h : a.body s = .ok u) :
    u.gie = s.gie ∨ (a = .sei ∧ u.gie = true) ∨ (a = .cli ∧ u.gie = false) := by
  cases a with
  | sei => cases h; exact .inr (.inl ⟨rfl, rfl⟩)
  | cli => cases h; exact .inr (.inr ⟨rfl, rfl⟩)
  | init c baud =>
    simp only [Action.body, initBody] at h
    split at h
    · cases h
    · cases h; exact .inl rfl
  | read c | readb c => cases h; exact .inl (takeByte_gie c s)
  | _ => cases h; exact .inl rfl

/-- Settles O35: an event and a fetch leave the flag, and of the actions only SEI's and CLI's write it. -/
theorem globalFlagHasTwoWriters : Obligations.GlobalFlagHasTwoWriters := by
  refine ⟨fun s c hg => ⟨fun t h => ?_, fun t h => ?_⟩, fun i s t h hne => ?_, fun s ⟨_, _, hg, _⟩ => hg, rfl⟩
  · obtain ⟨-, hgie, -⟩ := execEvRxc_next h
    exact absurd hgie (by simp [hg])
  · obtain ⟨-, hgie, -⟩ := execEvUdre_next h
    exact absurd hgie (by simp [hg])
  · cases hi : i.isEvent with
    | true =>
      obtain ⟨c, f, -, -, rfl⟩ := exec_event_next hi h
      exact absurd rfl hne
    | false =>
      obtain ⟨-, rfl, -⟩ | ⟨a, rest, ha, -, u, hb, rfl⟩ | ⟨-, -, -, -, rfl⟩ := exec_command_next hi h
      · exact absurd rfl hne
      · obtain e | ⟨rfl, e⟩ | ⟨rfl, e⟩ := Action.body_gie hb
        · exact absurd e hne
        · exact ⟨rfl, .inl ⟨e, by simp [ha]⟩⟩
        · exact ⟨rfl, .inr ⟨e, by simp [ha]⟩⟩
      · exact absurd rfl hne

-- The program counter

/-- All `proceed` can do to the program counter: leave it, or advance it by 1 with no action left. -/
theorem State.proceed_pc_cases (s : State) (rest : List Action) :
    (s.proceed rest).pc = s.pc ∨ ((s.proceed rest).pc = s.pc + 1 ∧ rest = []) := by
  cases rest with
  | nil => exact .inr ⟨rfl, rfl⟩
  | cons a rest => exact .inl rfl

theorem Action.body_pc {a : Action} {s u : State} (h : a.body s = .ok u) : u.pc = s.pc := by
  obtain ⟨-, -, hpc, -⟩ := Action.body_ok h
  exact hpc

/-- All an instruction can do to the program counter: leave it, or, as a command, advance it by 1 with no
action left. -/
theorem exec_pc {i : Instr} {s t : State} (h : exec i s = .next t) :
    t.pc = s.pc ∨ (t.pc = s.pc + 1 ∧ t.actions = [] ∧ i.isEvent = false) := by
  cases hi : i.isEvent with
  | true =>
    obtain ⟨c, f, -, -, rfl⟩ := exec_event_next hi h
    exact .inl rfl
  | false =>
    obtain ⟨-, rfl, -⟩ | ⟨a, rest, -, -, u, hb, rfl⟩ | ⟨-, -, -, -, rfl⟩ := exec_command_next hi h
    · exact (s.proceed_pc_cases _).imp_right fun ⟨hpc, hr⟩ => ⟨hpc, hr, rfl⟩
    · rw [← Action.body_pc hb]
      exact (u.proceed_pc_cases rest).imp_right fun ⟨hpc, hr⟩ => ⟨hpc, hr, rfl⟩
    · exact .inl rfl

/-- R300: after the last command, with no action left, the foreground has finished. -/
theorem State.finished_at_end {s : State} (hpc : s.pc = s.prog.length) (ha : s.actions = []) :
    s.finished = true := by
  simp [State.finished, hpc, ha]

/-- Settles O43: only `proceed` writes the program counter, after a fetch or an executed action. -/
theorem pcAdvancesOnceACommand : Obligations.PcAdvancesOnceACommand := by
  refine ⟨fun i s t => exec_pc, fun s u a rest hg hb => ?_, fun s => State.finished_at_end⟩
  exact ⟨u.proceed rest, State.perform_fires hg hb, rfl, by simp [Action.body_pc hb]⟩

end Sys2Proof.Machine
end

section
/-! PROOFS. No action, instruction or turn writes the program or the configuration, and the obligation
about `20_memory.md` that follows. -/

namespace Sys2Proof.Machine

/-- `t` has the program and the configuration of `s` (R95). -/
def State.SameProgram (s t : State) : Prop := t.prog = s.prog ∧ t.cfg = s.cfg

theorem State.SameProgram.refl (s : State) : s.SameProgram s := ⟨rfl, rfl⟩

theorem State.sameProgram_proceed (s : State) (rest : List Action) : s.SameProgram (s.proceed rest) :=
  ⟨s.proceed_prog rest, s.proceed_cfg rest⟩

theorem State.sameProgram_onChan (s : State) (c : Nat) (f : Channel → Channel) :
    s.SameProgram (s.onChan c f) :=
  ⟨s.onChan_prog c f, s.onChan_cfg c f⟩

/-- An executed action, its body and the advance after it, keeps the program. -/
theorem Action.body_proceed_sameProgram {a : Action} {s u : State} (h : a.body s = .ok u)
    (rest : List Action) : s.SameProgram (u.proceed rest) := by
  obtain ⟨hcfg, hprog, -⟩ := Action.body_ok h
  exact ⟨(u.proceed_prog rest).trans hprog, (u.proceed_cfg rest).trans hcfg⟩

theorem State.perform_sameProgram {s t : State} {a : Action} {rest : List Action}
    (h : s.perform a rest = .next t) : s.SameProgram t := by
  obtain ⟨-, u, hb, rfl⟩ | ⟨-, rfl⟩ := State.perform_next h
  · exact Action.body_proceed_sameProgram hb rest
  · exact .refl t

theorem exec_sameProgram {i : Instr} {s t : State} (h : exec i s = .next t) : s.SameProgram t := by
  cases hi : i.isEvent with
  | true =>
    obtain ⟨c, f, -, -, rfl⟩ := exec_event_next hi h
    exact s.sameProgram_onChan c f
  | false =>
    obtain ⟨-, rfl, -⟩ | ⟨a, rest, -, -, u, hb, rfl⟩ | ⟨-, -, -, -, rfl⟩ := exec_command_next hi h
    · exact s.sameProgram_proceed _
    · exact Action.body_proceed_sameProgram hb rest
    · exact .refl t

theorem foregroundStep_sameProgram {s t : State} (h : foregroundStep s = .next t) : s.SameProgram t := by
  obtain ⟨a, rest, -, hp⟩ | ⟨-, w, i, -, -, rfl, -⟩ := foregroundStep_next h
  · exact State.perform_sameProgram hp
  · exact s.sameProgram_proceed _

theorem takeTurn_sameProgram {turn : Turn} {s t : State} (h : takeTurn turn s = .next t) :
    s.SameProgram t := by
  cases turn with
  | foreground => exact foregroundStep_sameProgram h
  | event i => exact exec_sameProgram h

/-- Settles O44: choosing the turn writes only the schedule and the counter of the draws, and no turn
writes the program or the configuration. -/
theorem programIsFixed : Obligations.ProgramIsFixed := by
  intro s t h
  obtain ⟨-, -, turn, u, hn, ht⟩ := step_next h
  obtain ⟨schedule, draws, rfl⟩ := State.nextTurn_ok hn
  obtain ⟨hprog, hcfg⟩ := takeTurn_sameProgram ht
  exact ⟨hprog, hcfg⟩

end Sys2Proof.Machine
end

section
/-! PROOFS. Which opcodes have no row, what a program word of SETFLOW's opcode decodes to, what WRSTR
spells, and the obligations about `30_encoding.md` that follow from them. -/

namespace Sys2Proof

open Sys2Proof.Machine (Operand readChannel readText spell)

-- The illegal opcodes

/-- R113: the opcodes of the map are 0x01 to 0x0F, the commands, and 0x80 to 0x83, the events. -/
theorem opTable_opcodes : opTable.map (fun r => r.op.toNat) = List.range' 0x01 15 ++ List.range' 0x80 4 := rfl

/-- R116: the opcodes outside the map, as ranges. -/
theorem opRow?_eq_none_iff (op : BitVec 8) :
    opRow? op = none ↔ op = 0x00 ∨ (0x10 ≤ op.toNat ∧ op.toNat ≤ 0x7F) ∨ 0x84 ≤ op.toNat := by
  have hrows : opRow? op = none ↔ op.toNat ∉ opTable.map (fun r => r.op.toNat) := by
    simp [opRow?, BitVec.toNat_inj]
  have hzero : op = 0x00 ↔ op.toNat = 0 := BitVec.toNat_inj.symm
  rw [hrows, hzero, opTable_opcodes, List.mem_append, List.mem_range'_1, List.mem_range'_1]
  omega

/-- The only refusal of a row's operands is that of its reserved bits (R115, R117). -/
theorem OpRow.operands_ne_illegalOpcode (r : OpRow) (w : Word) :
    r.operands w ≠ .error (.illegalOpcode w) := by
  unfold OpRow.operands
  split
  · exact nofun
  · exact nofun

theorem decodeProgramWord_illegalOpcode_iff (cfg : Config) (w : Word) :
    decodeProgramWord cfg w = .error (.illegalOpcode w) ↔ opRow? (opField w) = none := by
  cases hrow : opRow? (opField w) with
  | none => simp [decodeProgramWord, hrow]
  | some r =>
    simp only [decodeProgramWord, hrow, reduceCtorEq, iff_false]
    split
    · exact nofun
    · split
      · exact nofun
      · exact r.operands_ne_illegalOpcode w

theorem decodeScheduleWord_illegalOpcode_iff (cfg : Config) (w : Word) :
    decodeScheduleWord cfg w = .error (.illegalOpcode w) ↔ opRow? (opField w) = none := by
  cases hrow : opRow? (opField w) with
  | none => simp [decodeScheduleWord, hrow]
  | some r =>
    simp only [decodeScheduleWord, hrow, reduceCtorEq, iff_false]
    split
    · split
      · next e he => exact he ▸ r.operands_ne_illegalOpcode w
      · split <;> exact nofun
    · exact nofun

/-- Settles O5: either decoder reports an illegal opcode exactly when the opcode has no row. -/
theorem illegalOpcodesAreRefused : Obligations.IllegalOpcodesAreRefused := fun cfg w =>
  ⟨(decodeProgramWord_illegalOpcode_iff cfg w).trans (opRow?_eq_none_iff _),
    (decodeScheduleWord_illegalOpcode_iff cfg w).trans (opRow?_eq_none_iff _)⟩

-- SETFLOW

/-- The fields of a word are masked one by one, so a row's reserved bits are checked field by field. -/
theorem fields_and_fields (op op' : BitVec 8) (c c' : Nat) (imm imm' : Half) :
    fields op c imm &&& fields op' c' imm' = fields (op &&& op') (c &&& c') (imm &&& imm') := by
  have hch := BitVec.and_append (x₁ := op) (x₂ := op') (y₁ := BitVec.ofNat 8 c) (y₂ := BitVec.ofNat 8 c')
  rw [← BitVec.ofNat_and] at hch
  exact BitVec.and_append.trans (congrArg (· ++ (imm &&& imm')) hch)

/-- A word whose reserved bits are its row's decodes to the instruction that the row builds (R115). -/
theorem decode_of_row {w : Word} {r : OpRow} (hrow : opRow? (opField w) = some r)
    (hreserved : w &&& r.mask = r.pat) : decode w = .ok (r.build (chField w) (immField w)) := by
  simp [decode, hrow, OpRow.operands, hreserved]

/-- R118: a program word of SETFLOW's opcode is decoded in the flow-control build only. -/
theorem decodeProgramWord_setflow_op {w : Word} (cfg : Config) (h : opField w = 0x04) :
    decodeProgramWord cfg w = if cfg.flowControl then decode w else .error (.featureAbsent w) := by
  cases hf : cfg.flowControl <;> simp [decodeProgramWord, decode, h, hf, opRow?, opTable]

theorem encode_setflow_reserved (c : Nat) (on : Bool) :
    encode (.setflow c on) &&& 0xFF00FFFE = 0x04000000 := by
  have hmask : (0xFF00FFFE : Word) = fields 0xFF 0 0xFFFE := rfl
  have himm : flagImm on &&& 0xFFFE = 0 := by cases on <;> rfl
  rw [hmask, encode, fields_and_fields, himm, Nat.and_zero]
  rfl

theorem opField_encode_setflow (c : Nat) (on : Bool) : opField (encode (.setflow c on)) = 0x04 :=
  opField_fields _ _ _

theorem decode_encode_setflow {c : Nat} (on : Bool) (h : c < 256) :
    decode (encode (.setflow c on)) = .ok (.setflow c on) := by
  have hrow : opRow? (opField (encode (.setflow c on))) =
      some ⟨0x04, "SETFLOW", 0x04000000, 0xFF00FFFE, false, fun c imm => .setflow c (immFlag imm)⟩ := by
    rw [opField_encode_setflow]
    rfl
  rw [decode_of_row hrow (encode_setflow_reserved c on)]
  simp [encode, Nat.mod_eq_of_lt h]

/-- Settles O6: the program decoder tests the build before it decodes a word of SETFLOW's opcode, and the
word of `SETFLOW c, on` decodes to it. -/
theorem setflowExistsOnlyWithFlowControl : Obligations.SetflowExistsOnlyWithFlowControl := by
  refine fun cfg c on hc => ⟨fun hf w hw => ?_, fun hf => ?_⟩
  · simp [decodeProgramWord_setflow_op cfg hw, hf]
  · simp [decodeProgramWord_setflow_op cfg (opField_encode_setflow c on), hf, decode_encode_setflow on hc]

-- WRSTR

theorem wrstr_text (cfg : Config) (c : Nat) {text : List Byte} (h : 0 ∉ text) :
    wrstr cfg c (some text) = some (text.map (.write c)) := by
  have hbytes : stringBytes cfg (some text) = some text := if_neg (by simpa using h)
  rw [wrstr, hbytes]
  rfl

theorem wrstr_null (cfg : Config) (c : Nat) :
    wrstr cfg c none = some (cfg.nullStringToken.map (.write c)) := rfl

/-- The assembler expands WRSTR by its two operands (R119, R121). -/
theorem spell_wrstr {o p : Operand} {c : Nat} {arg : Option (List Byte)} (cfg : Config)
    (ho : readChannel o = some c) (hp : readText p = some arg) :
    spell cfg "WRSTR".toList [o, p] = wrstr cfg c arg := by
  simp [spell, ho, hp]

/-- Settles O7: the text and the null argument by the expansion, the empty text as a text without 0x00. -/
theorem wrstrIsOneWriteForEachByte : Obligations.WrstrIsOneWriteForEachByte := fun cfg c _ =>
  ⟨wrstr_text cfg c, wrstr_null cfg c, wrstr_text cfg c List.not_mem_nil, fun _ _ _ => spell_wrstr cfg⟩

end Sys2Proof
end

section
/-! PROOFS. The two outcomes of a push and of a pop as equations, and the obligations about R143 and R144
of `40_ringbuffer.md` that follow from them. -/

namespace Sys2Proof.Machine

-- A push

theorem Ring.push_of_full {C : Nat} {r : Ring} (b : Byte) (h : r.isFull C = true) :
    r.push C b = (false, r) := by
  simp [Ring.push, h]

theorem Ring.push_of_not_full {C : Nat} {r : Ring} (b : Byte) (h : r.isFull C = false) :
    r.push C b = (true, ⟨Memory.put r.buf r.write b, r.read, advance r.write C⟩) := by
  simp [Ring.push, h]

theorem Ring.push_stored_iff (C : Nat) (r : Ring) (b : Byte) :
    (r.push C b).1 = true ↔ r.isFull C = false := by
  obtain ⟨hfull, e⟩ | ⟨hfull, e⟩ := r.push_cases C b <;> simp [e, hfull]

@[simp] theorem Ring.push_read (C : Nat) (r : Ring) (b : Byte) : (r.push C b).2.read = r.read := by
  obtain ⟨-, e⟩ | ⟨-, e⟩ := r.push_cases C b <;> rw [e]

/-- Settles O9: a full ring answers false as it is, any other has the byte put at `write`, a slot in range. -/
theorem pushStoresAtWriteUnlessFull : Obligations.PushStoresAtWriteUnlessFull := by
  refine ⟨fun C r b ⟨hlen, _, hwrite⟩ => ⟨r.push_stored_iff C b, fun hfull => ?_, fun hfull => ?_,
    r.push_read C b⟩, fun _ _ _ _ => ⟨rfl, rfl⟩⟩
  · rw [Ring.push_of_full b hfull]
  · rw [Ring.push_of_not_full b hfull]
    exact ⟨Memory.get_put_same _ _ b (hlen ▸ hwrite), fun i hi => Memory.get_put_other _ _ i b hi,
      (Memory.length_put _ _ b).trans hlen, rfl⟩

-- A pop

theorem Ring.pop_eq_none_iff (C : Nat) (r : Ring) : r.pop C = none ↔ r.isEmpty = true := by
  obtain ⟨hempty, e⟩ | ⟨hempty, e⟩ := r.pop_cases C <;> simp [e, hempty]

theorem Ring.pop_eq_some {C : Nat} {r r' : Ring} {b : Byte} (h : r.pop C = some (b, r')) :
    b = Memory.get r.buf r.read ∧ r' = ⟨Memory.put r.buf r.read 0, advance r.read C, r.write⟩ := by
  obtain ⟨-, e⟩ | ⟨-, e⟩ := r.pop_cases C
  · cases e ▸ h
  · cases e ▸ h
    exact ⟨rfl, rfl⟩

/-- Settles O10: a pop that answers has 0x00 put at `read`, a slot in range. -/
theorem popReadsAndClearsTheSlot : Obligations.PopReadsAndClearsTheSlot := by
  refine ⟨fun C r ⟨hlen, hread, _⟩ => ⟨r.pop_eq_none_iff C, fun b r' hpop => ?_⟩,
    fun _ _ _ => ⟨rfl, by simp [Ring.occupancy]⟩⟩
  obtain ⟨hb, rfl⟩ := Ring.pop_eq_some hpop
  exact ⟨hb, Memory.get_put_same _ _ 0 (hlen ▸ hread), fun i hi => Memory.get_put_other _ _ i 0 hi,
    (Memory.length_put _ _ 0).trans hlen, rfl, rfl⟩

end Sys2Proof.Machine
end

section
/-! PROOFS. The kick and the two flow transitions as equations, what the receive handler and a successful
pop do in the flow-control build, and the obligations about R233 and R235 of `43_flow_control.md` that
follow from them. -/

namespace Sys2Proof.Machine

-- The kick and the flow transitions

/-- R166: out of either engine state the kick ends in Draining, and it enables the interrupt only when it
starts the engine. -/
theorem Channel.kick_eq (x : Channel) :
    x.kick = { x with txIdle := false, txIE := x.txIE || x.txIdle } := by
  obtain ⟨_, _, _ | _⟩ := x
  · simp [Channel.kick]
  · simp [Channel.kick]

theorem Channel.goOff_eq (cfg : Config) (x : Channel) : x.goOff cfg =
    { x with pending := some cfg.xoffByte, flowOn := false, txIdle := false, txIE := x.txIE || x.txIdle } :=
  Channel.kick_eq _

theorem Channel.goOn_eq (cfg : Config) (x : Channel) : x.goOn cfg =
    { x with pending := some cfg.xonByte, flowOn := true, txIdle := false, txIE := x.txIE || x.txIdle } :=
  Channel.kick_eq _

theorem Channel.wantsOff_iff (cfg : Config) (x : Channel) :
    x.wantsOff cfg = true ↔ x.flowOn = true ∧ cfg.high ≤ x.rxCount := by
  simp [Channel.wantsOff]

theorem Channel.wantsOn_iff (cfg : Config) (x : Channel) :
    x.wantsOn cfg = true ↔ x.flowOn = false ∧ x.rxCount ≤ cfg.low := by
  simp [Channel.wantsOn]

-- The receive handler

/-- The channel after the push attempt of the receive handler and before its flow-off test (R200). -/
def Channel.received (cfg : Config) (b : Byte) (x : Channel) : Channel :=
  { x with
    rxHold := none
    rx := (x.rx.push cfg.rxCapacity b).2
    rxCount := x.rxCount + (if x.rx.isFull cfg.rxCapacity then 0 else 1) }

theorem Channel.serveRx_eq {cfg : Config} (b : Byte) (x : Channel) (hf : cfg.flowControl = true) :
    x.serveRx cfg b = if (x.received cfg b).wantsOff cfg then (x.received cfg b).goOff cfg
      else x.received cfg b := by
  obtain ⟨hfull, e⟩ | ⟨hfull, e⟩ := x.rx.push_cases cfg.rxCapacity b <;>
    simp [Channel.serveRx, Channel.received, hf, hfull, e]

/-- All the receive handler can do in the flow-control build: receive and go Off, or only receive. -/
theorem Channel.serveRx_cases {cfg : Config} (b : Byte) (x : Channel) (hf : cfg.flowControl = true) :
    ((x.flowOn = true ∧ cfg.high ≤ (x.received cfg b).rxCount) ∧
      x.serveRx cfg b = (x.received cfg b).goOff cfg) ∨
    (¬ (x.flowOn = true ∧ cfg.high ≤ (x.received cfg b).rxCount) ∧
      x.serveRx cfg b = x.received cfg b) := by
  have htest := (x.received cfg b).wantsOff_iff cfg
  rw [x.serveRx_eq b hf]
  split
  · next hoff => exact .inl ⟨htest.mp hoff, rfl⟩
  · next hoff => exact .inr ⟨fun h => hoff (htest.mpr h), rfl⟩

/-- Settles O25: the handler tests the count that its push attempt leaves, and going Off keeps the count. -/
theorem flowOffExactlyAtTheHighMark : Obligations.FlowOffExactlyAtTheHighMark := by
  intro s t c hlen hf h
  obtain ⟨hc, -, -, b, -, rfl⟩ := execEvRxc_next h
  rw [s.chan_onChan_same c _ (hlen ▸ hc)]
  obtain ⟨hoff, e⟩ | ⟨hoff, e⟩ := (s.chan c).serveRx_cases b hf
  · rw [e, Channel.goOff_eq]
    exact ⟨rfl, fun _ => ⟨rfl, rfl, rfl, rfl⟩, fun hn => absurd hoff hn⟩
  · rw [e]
    exact ⟨rfl, fun hp => absurd hp hoff, fun _ => ⟨rfl, rfl, rfl, rfl⟩⟩

-- READ and READB

/-- The channel after a successful pop and before its flow-on test (R204). -/
def Channel.popped (rx : Ring) (x : Channel) : Channel := { x with rx := rx, rxCount := x.rxCount - 1 }

/-- All a successful pop can do in the flow-control build: pop and go On, or only pop. -/
theorem Channel.took_cases {cfg : Config} (rx : Ring) (x : Channel) (hf : cfg.flowControl = true) :
    ((x.flowOn = false ∧ x.rxCount - 1 ≤ cfg.low) ∧ x.took cfg rx = (x.popped rx).goOn cfg) ∨
    (¬ (x.flowOn = false ∧ x.rxCount - 1 ≤ cfg.low) ∧ x.took cfg rx = x.popped rx) := by
  have htest := (x.popped rx).wantsOn_iff cfg
  have htook : x.took cfg rx = if (x.popped rx).wantsOn cfg then (x.popped rx).goOn cfg else x.popped rx :=
    if_pos hf
  rw [htook]
  split
  · next hon => exact .inl ⟨htest.mp hon, rfl⟩
  · next hon => exact .inr ⟨fun h => hon (htest.mpr h), rfl⟩

/-- READ's and READB's body leaves a channel whose receive buffer is empty, and takes a byte from any
other. -/
theorem takeByte_chan {s : State} {c : Nat} (hc : c < s.ch.length) :
    ((s.chan c).rx.isEmpty = true ∧ (takeByte c s).chan c = s.chan c) ∨
    ((s.chan c).rx.isEmpty = false ∧ ∃ rx, (takeByte c s).chan c = (s.chan c).took s.cfg rx) := by
  obtain ⟨hempty, e⟩ | ⟨hempty, e⟩ := (s.chan c).rx.pop_cases s.cfg.rxCapacity
  · exact .inl ⟨hempty, by simp [takeByte, e]⟩
  · exact .inr ⟨hempty, _, by simp only [takeByte, e, State.chan_emit]; exact s.chan_onChan_same c _ hc⟩

/-- An action that takes a byte, and spins only on an empty receive buffer, does one or the other. -/
theorem State.perform_take_next {a : Action} {s t : State} {c : Nat} (hbody : a.body s = .ok (takeByte c s))
    (hspin : a.guard s = false → (s.chan c).rx.isEmpty = true) (h : s.perform a [] = .next t) :
    t = (takeByte c s).proceed [] ∨ ((s.chan c).rx.isEmpty = true ∧ t = s) := by
  obtain ⟨-, u, hu, rfl⟩ | ⟨hg, rfl⟩ := State.perform_next h
  · cases hbody.symm.trans hu
    exact .inl rfl
  · exact .inr ⟨hspin hg, rfl⟩

/-- READ's and READB's action does to its channel what the body does: READB spins where the body would
find the receive buffer empty (R204, R205). -/
theorem exec_take_chan {i : Instr} {s t : State} {c : Nat} (hc : c < s.ch.length)
    (hi : i = .read c ∧ s.actions = [.read c] ∨ i = .readb c ∧ s.actions = [.readb c])
    (h : exec i s = .next t) :
    ((s.chan c).rx.isEmpty = true ∧ t.chan c = s.chan c) ∨
    ((s.chan c).rx.isEmpty = false ∧ ∃ rx, t.chan c = (s.chan c).took s.cfg rx) := by
  have hstep : t = (takeByte c s).proceed [] ∨ ((s.chan c).rx.isEmpty = true ∧ t = s) := by
    obtain ⟨rfl, ha⟩ | ⟨rfl, ha⟩ := hi
    · rw [exec_inside rfl ha (.inr (by simp))] at h
      exact State.perform_take_next rfl (by simp [Action.guard]) h
    · rw [exec_inside rfl ha (.inr (by simp))] at h
      exact State.perform_take_next rfl (by simp [Action.guard, readbGuard]) h
  obtain rfl | ⟨hempty, rfl⟩ := hstep
  · exact takeByte_chan hc
  · exact .inl ⟨hempty, rfl⟩

/-- Settles O26: an empty buffer leaves the channel; else the pop tests the count after the decrement. -/
theorem flowOnExactlyAtTheLowMark : Obligations.FlowOnExactlyAtTheLowMark := by
  intro s t c i hlen hc hf hi h
  obtain ⟨hempty, e⟩ | ⟨hempty, rx, e⟩ := exec_take_chan (hlen ▸ hc) hi h
  · rw [e]
    exact ⟨fun ⟨hne, _⟩ => absurd (hempty.symm.trans hne) nofun, fun _ => ⟨rfl, rfl, rfl, rfl⟩⟩
  · obtain ⟨hon, e'⟩ | ⟨hon, e'⟩ := (s.chan c).took_cases rx hf
    · rw [e, e', Channel.goOn_eq]
      exact ⟨fun _ => ⟨rfl, rfl, rfl, rfl⟩, fun hn => absurd ⟨hempty, hon⟩ hn⟩
    · rw [e, e']
      exact ⟨fun ⟨_, hp⟩ => absurd hp hon, fun _ => ⟨rfl, rfl, rfl, rfl⟩⟩

end Sys2Proof.Machine
end

section
/-! PROOFS. What a command's fetch finds on a channel the block does not have and on an inactive one, the
commands that name no channel, and the obligations about `44_channel_mux.md` that follow. -/

namespace Sys2Proof.Machine

-- The channel prologue

/-- R260, R261: a command with a channel operand, but INIT, runs behind the prologue of its channel; SETFLOW
only in the flow-control build. -/
theorem exec_eq_prologue {i : Instr} {s : State} {c : Nat} (hi : i.isEvent = false) (hc : i.channel? = some c)
    (hinit : ∀ baud, i ≠ .init c baud) (hf : s.cfg.flowControl = true ∨ ∀ on, i ≠ .setflow c on) :
    exec i s = s.command (s.prologue c (neutralActions i) (ownActions i)) := by
  cases i with
  | init d baud => cases hc; exact absurd rfl (hinit baud)
  | setflow d on =>
    cases hc
    obtain hf | hf := hf
    · exact if_pos hf
    · exact absurd rfl (hf on)
  | evRxc | evUdre | lineRx | lineTx => cases hi
  | chcount | sei | cli => cases hc
  | _ => cases hc; rfl

theorem State.initPrologue_invalid {s : State} {c : Nat} (own : List Action) (hc : s.cfg.channelCount ≤ c) :
    s.initPrologue c own = .ok [] := if_neg (Nat.not_lt.mpr hc)

/-- R260: on a channel the block does not have, the fetch of every command, INIT included, finds the neutral
action list. -/
theorem exec_fetch_invalid {i : Instr} {s : State} {c : Nat} (hi : i.isEvent = false) (hc : i.channel? = some c)
    (hf : s.cfg.flowControl = true ∨ ∀ on, i ≠ .setflow c on) (ha : s.actions = [])
    (hcount : s.cfg.channelCount ≤ c) : exec i s = .next (s.proceed (neutralActions i)) := by
  by_cases hinit : ∃ baud, i = .init c baud
  · obtain ⟨baud, rfl⟩ := hinit
    rw [exec, execInit, State.initPrologue_invalid _ hcount, State.command_fetch ha]
    rfl
  · rw [exec_eq_prologue hi hc (fun baud e => hinit ⟨baud, e⟩) hf, State.prologue_invalid _ _ hcount,
      State.command_fetch ha]

/-- A command whose one action is left and whose guard holds executes it and completes. -/
theorem exec_last_action {i : Instr} {s u : State} {a : Action} (hi : i.isEvent = false)
    (hf : ∀ c on, i ≠ .setflow c on) (ha : s.actions = [a]) (hg : a.guard s = true) (hb : a.body s = .ok u) :
    exec i s = .next (u.proceed []) :=
  (exec_inside hi ha (.inr hf)).trans (State.perform_fires hg hb)

/-- Between commands, completing a command only advances the program counter (R44). -/
theorem State.proceed_nil {s : State} (ha : s.actions = []) : s.proceed [] = { s with pc := s.pc + 1 } := by
  simp [State.proceed, ha]

/-- R260: a command whose neutral list is empty completes at its fetch. -/
theorem exec_invalid_completes {i : Instr} {s : State} {c : Nat} (hi : i.isEvent = false)
    (hc : i.channel? = some c) (hf : s.cfg.flowControl = true ∨ ∀ on, i ≠ .setflow c on)
    (hn : neutralActions i = []) (ha : s.actions = []) (hcount : s.cfg.channelCount ≤ c) :
    exec i s = .next { s with pc := s.pc + 1 } := by
  rw [exec_fetch_invalid hi hc hf ha hcount, hn, State.proceed_nil ha]

/-- R260: a command whose neutral list is one action that emits `v`, and never spins, is fetched as that
action and completes with it. -/
theorem exec_invalid_emits {i : Instr} {s : State} {c : Nat} {a : Action} {v : Value} (hi : i.isEvent = false)
    (hc : i.channel? = some c) (hf : ∀ d on, i ≠ .setflow d on) (hn : neutralActions i = [a])
    (hg : ∀ u, a.guard u = true) (hb : ∀ u, a.body u = .ok (u.emit v)) (ha : s.actions = [])
    (hcount : s.cfg.channelCount ≤ c) :
    ∃ t, exec i s = .next t ∧ exec i t = .next { s with results := s.results ++ [v], pc := s.pc + 1 } := by
  refine ⟨s.proceed [a], hn ▸ exec_fetch_invalid hi hc (.inr (hf c)) ha hcount, ?_⟩
  rw [exec_last_action hi hf rfl (hg _) (hb _)]
  exact congrArg _ (State.proceed_nil (s := s.emit v) ha)

/-- Settles O29: the fetch finds the neutral list, which holds one action that emits the neutral value for
a query, READ and READB, and is empty for the other commands. -/
theorem invalidChannelIsANeutralNoOp : Obligations.InvalidChannelIsANeutralNoOp := by
  intro s c ha hcount
  refine ⟨fun i hi => ?_, fun i hi => ?_,
    fun _ => exec_invalid_completes rfl rfl (.inr nofun) rfl ha hcount,
    exec_invalid_completes rfl rfl (.inr nofun) rfl ha hcount,
    fun _ hf => exec_invalid_completes rfl rfl (.inl hf) rfl ha hcount,
    fun _ => exec_invalid_completes rfl rfl (.inr nofun) rfl ha hcount,
    fun _ => exec_invalid_completes rfl rfl (.inr nofun) rfl ha hcount⟩
  · simp only [List.mem_cons, List.not_mem_nil, or_false] at hi
    obtain rfl | rfl | rfl | rfl | rfl := hi <;>
      exact exec_invalid_emits rfl rfl nofun rfl (fun _ => rfl) (fun _ => rfl) ha hcount
  · simp only [List.mem_cons, List.not_mem_nil, or_false] at hi
    obtain rfl | rfl := hi <;>
      exact exec_invalid_emits rfl rfl nofun rfl (fun _ => rfl) (fun _ => rfl) ha hcount

/-- Settles O30: between commands the prologue's refusal is the outcome of the fetch. -/
theorem inactiveChannelIsRefused : Obligations.InactiveChannelIsRefused := by
  intro s i c hi hc hinit hf ha hcount hactive
  rw [exec_eq_prologue hi hc hinit hf, State.prologue_inactive _ _ hcount hactive, State.command_refuse ha]

-- The commands that name no channel

/-- Settles O33: the plan of CHCOUNT asks for no channel, and its one action emits the count. -/
theorem chcountCompletes : Obligations.ChcountCompletes :=
  ⟨rfl, fun _ => ⟨State.command_fetch, fun ha => exec_last_action (i := .chcount) rfl nofun ha rfl rfl⟩⟩

/-- R270: with the flag clear, only SEI's action can set it. -/
theorem exec_gie_stays_clear {i : Instr} {s t : State} (hg : s.gie = false)
    (hsei : s.actions.head? ≠ some .sei) (h : exec i s = .next t) : t.gie = false := by
  obtain ⟨-, hwriters, -⟩ := globalFlagHasTwoWriters
  by_contra hset
  obtain ⟨-, ⟨-, hhead⟩ | ⟨hclear, -⟩⟩ := hwriters i s t h (fun e => hset (e.trans hg))
  · exact hsei hhead
  · exact hset hclear

/-- Settles O34: each command is one action, which writes the flag; the gating of the handlers and the
flag's writers are those of R41. -/
theorem seiAndCliComplete : Obligations.SeiAndCliComplete := by
  refine ⟨rfl, rfl, fun s => ⟨fun hg => ⟨fun c t => ?_, fun i t => exec_gie_stays_clear hg⟩, fun ha => ?_,
    fun ha => ?_, fun ha => ?_⟩⟩
  · obtain ⟨hgated, -⟩ := globalFlagHasTwoWriters
    obtain ⟨hrx, htx⟩ := hgated s c hg
    exact ⟨hrx t, htx t⟩
  · exact ⟨State.command_fetch ha, State.command_fetch ha⟩
  · exact exec_last_action (i := .sei) rfl nofun ha rfl rfl
  · exact exec_last_action (i := .cli) rfl nofun ha rfl rfl

end Sys2Proof.Machine
end

section
/-! PROOFS. When an event is refused, when each line has a step and what the step makes of its channel, and
the obligations about R305 and R306 of `60_exceptions.md` that follow from them. -/

namespace Sys2Proof.Machine

/-- R314: an event of an existing channel whose condition does not hold is refused. -/
theorem State.event_refuses {s : State} {w : Word} {c : Nat} {enabled : Bool} (run : State → Result)
    (hc : c < s.cfg.channelCount) (he : enabled = false) :
    s.event w c enabled run = .refused .eventNotEnabled := by
  simp [State.event, hc, he]

-- The transmit line

theorem Channel.lineTxReady_eq_false_iff (x : Channel) :
    x.lineTxReady = false ↔ x.active = false ∨ x.txEn = false ∨ x.txHold = none := by
  simp [Channel.lineTxReady, Bool.and_eq_false_iff, -Bool.and_eq_false_imp, or_assoc]

theorem Channel.lineTxReady_of_full {x : Channel} {b : Byte} (ha : x.active = true) (hen : x.txEn = true)
    (hb : x.txHold = some b) : x.lineTxReady = true := by
  simp [Channel.lineTxReady, ha, hen, hb]

theorem Channel.lineTx_of_full {x : Channel} {b : Byte} (hb : x.txHold = some b) :
    x.lineTx = { x with txWire := x.txWire ++ [b], txHold := none } := by
  simp [Channel.lineTx, hb]

/-- R291: with the channel active and the data register empty, the transmit request is its enable. -/
theorem Channel.txReq_of_empty {x : Channel} (ha : x.active = true) (hb : x.txHold = none) :
    x.txReq = x.txIE := by
  simp [Channel.txReq, Channel.dre, ha, hb]

theorem exec_lineTx_ready {s : State} {c : Nat} (hc : c < s.cfg.channelCount)
    (hr : (s.chan c).lineTxReady = true) : exec (.lineTx c) s = .next (s.setChan c (s.chan c).lineTx) := by
  rw [exec, execLineTx, State.event_runs _ hc hr]
  rfl

theorem exec_lineTx_not_ready {s : State} {c : Nat} (hc : c < s.cfg.channelCount)
    (hr : (s.chan c).lineTxReady = false) : exec (.lineTx c) s = .refused .eventNotEnabled := by
  rw [exec, execLineTx, State.event_refuses _ hc hr]

/-- Settles O19: a byte in `txHold` makes the enabled line of an active channel ready, and its step leaves
`txHold` empty. -/
theorem lineTxCompletes : Obligations.LineTxCompletes := by
  rintro s c x rfl hc
  refine ⟨fun b ha hen hb => ⟨?_, Channel.txReq_of_empty ha rfl⟩, fun hoff => ?_⟩
  · rw [exec_lineTx_ready hc (Channel.lineTxReady_of_full ha hen hb), Channel.lineTx_of_full hb]
    rfl
  · exact exec_lineTx_not_ready hc ((s.chan c).lineTxReady_eq_false_iff.mpr hoff)

-- The receive line

theorem Channel.lineRxReady_iff (x : Channel) :
    x.lineRxReady = true ↔ x.active = true ∧ x.rxEn = true := by
  simp [Channel.lineRxReady]

theorem Channel.lineRxReady_eq_false_iff (x : Channel) :
    x.lineRxReady = false ↔ x.active = false ∨ x.rxEn = false :=
  Bool.and_eq_false_iff

/-- R306: an empty data register takes the byte, and so does a full one under Overwrite. -/
theorem Channel.lineRx_takes {cfg : Config} (b : Byte) {x : Channel}
    (h : x.rxHold = none ∨ cfg.rxOverrunPolicy = .overwrite) :
    x.lineRx cfg b = { x with rxArrived := x.rxArrived ++ [b], rxHold := some b } := by
  cases hold : x.rxHold with
  | none => simp [Channel.lineRx, hold]
  | some old =>
    have hpolicy : cfg.rxOverrunPolicy = .overwrite := h.resolve_left (by simp [hold])
    simp [Channel.lineRx, hold, hpolicy]

/-- R306: a full data register keeps its byte under DropNew. -/
theorem Channel.lineRx_drops {cfg : Config} (b : Byte) {x : Channel} {old : Byte}
    (hold : x.rxHold = some old) (hpolicy : cfg.rxOverrunPolicy = .dropNew) :
    x.lineRx cfg b = { x with rxArrived := x.rxArrived ++ [b] } := by
  simp [Channel.lineRx, hold, hpolicy]

/-- R291: with the channel active and the data register full, the receive request is its enable. -/
theorem Channel.rxReq_of_full {x : Channel} {b : Byte} (ha : x.active = true) (hb : x.rxHold = some b) :
    x.rxReq = x.rxIE := by
  simp [Channel.rxReq, Channel.rxc, ha, hb]

theorem exec_lineRx_ready {s : State} {c : Nat} (b : Byte) (hc : c < s.cfg.channelCount)
    (hr : (s.chan c).lineRxReady = true) :
    exec (.lineRx c b) s = .next (s.setChan c ((s.chan c).lineRx s.cfg b)) := by
  rw [exec, execLineRx, State.event_runs _ hc hr]
  rfl

theorem exec_lineRx_not_ready {s : State} {c : Nat} (b : Byte) (hc : c < s.cfg.channelCount)
    (hr : (s.chan c).lineRxReady = false) : exec (.lineRx c b) s = .refused .eventNotEnabled := by
  rw [exec, execLineRx, State.event_refuses _ hc hr]

/-- Settles O21: the line is ready exactly on an active channel with its receiver enabled, and `rxHold` takes
the byte unless it is full under DropNew. -/
theorem lineRxCompletes : Obligations.LineRxCompletes := by
  rintro s c b x rfl hc
  refine ⟨fun ha hen => ?_, fun hoff => ?_⟩
  · have hexec := exec_lineRx_ready b hc ((s.chan c).lineRxReady_iff.mpr ⟨ha, hen⟩)
    refine ⟨fun hold => ⟨?_, Channel.rxReq_of_full ha rfl⟩, fun _ _ hpolicy => ?_, fun _ hold hpolicy => ?_⟩
    · rw [hexec, Channel.lineRx_takes b (.inl hold)]
      rfl
    · rw [hexec, Channel.lineRx_takes b (.inr hpolicy)]
      rfl
    · rw [hexec, Channel.lineRx_drops b hold hpolicy]
      rfl
  · exact exec_lineRx_not_ready b hc ((s.chan c).lineRxReady_eq_false_iff.mpr hoff)

end Sys2Proof.Machine
end

section
/-! PROOFS. A word taken apart into its three fields, a row's reserved bits as conditions on them, and the
obligations about the encoding of `30_encoding.md` that follow. -/

namespace Sys2Proof

open Sys2Proof.Machine (isCommandOp isEventOp ReservedZero)

-- The three fields of a word

theorem chField_lt (w : Word) : chField w < 256 := BitVec.isLt _

/-- R110: a word is its three fields. -/
theorem fields_eta (w : Word) : fields (opField w) (chField w) (immField w) = w := by
  have hch : BitVec.ofNat 8 (chField w) = w.extractLsb' 16 8 :=
    BitVec.eq_of_toNat_eq (Nat.mod_eq_of_lt (chField_lt w))
  apply BitVec.eq_of_getLsbD_eq
  intro i hi
  simp only [fields, hch, opField, immField, BitVec.getLsbD_append, BitVec.getLsbD_extractLsb']
  by_cases himm : i < 16
  · simp [himm]
  · by_cases hop : i < 24
    · simp [himm, show i - 16 < 8 by omega, show 16 + (i - 16) = i by omega]
    · simp [himm, show ¬ i - 16 < 8 by omega, show i - 16 - 8 < 8 by omega,
        show 24 + (i - 16 - 8) = i by omega]

/-- Words are equal when their fields are. -/
theorem fields_inj {op op' : BitVec 8} {c c' : Nat} {imm imm' : Half} (hc : c < 256) (hc' : c' < 256) :
    fields op c imm = fields op' c' imm' ↔ op = op' ∧ c = c' ∧ imm = imm' := by
  refine ⟨fun h => ⟨?_, ?_, ?_⟩, ?_⟩
  · simpa using congrArg opField h
  · simpa [Nat.mod_eq_of_lt, hc, hc'] using congrArg chField h
  · simpa using congrArg immField h
  · rintro ⟨rfl, rfl, rfl⟩
    rfl

/-- The bits of a vector from `k` on are zero exactly when its value is below `2 ^ k`. -/
theorem and_allOnes_shiftLeft_eq_zero_iff {n : Nat} (k : Nat) (x : BitVec n) :
    x &&& (BitVec.allOnes n <<< k) = 0 ↔ x.toNat < 2 ^ k := by
  refine ⟨fun h => Nat.lt_pow_two_of_testBit _ fun i hk => ?_, fun h => BitVec.eq_of_getLsbD_eq fun i hi => ?_⟩
  · by_cases hi : i < n
    · have hbit : (x &&& (BitVec.allOnes n <<< k)).getLsbD i = false := by simp [h]
      have hmask : (BitVec.allOnes n <<< k).getLsbD i = true := by
        simp [hi, Nat.not_lt.mpr hk]
      rwa [BitVec.getLsbD_and, hmask, Bool.and_true] at hbit
    · exact BitVec.getLsbD_of_ge x i (Nat.not_lt.mp hi)
  · by_cases hk : i < k
    · simp [hk]
    · have hlt : x.toNat < 2 ^ i := h.trans_le (Nat.pow_le_pow_right (by decide) (Nat.not_lt.mp hk))
      simp [BitVec.getLsbD, Nat.testBit_lt_two_pow hlt]

/-- R112: `imm` holds a byte operand when its high half is zero. -/
theorem byteImm_immByte {imm : Half} (h : imm.toNat < 256) : byteImm (immByte imm) = imm := by
  apply BitVec.eq_of_toNat_eq
  rw [byteImm, immByte, BitVec.toNat_append (0 : BitVec 8)]
  simp [Nat.mod_eq_of_lt h]

/-- R112: `imm` holds a flag operand when all its bits but bit 0 are zero. -/
theorem flagImm_immFlag {imm : Half} (h : imm.toNat < 2) : flagImm (immFlag imm) = imm := by
  obtain h0 | h1 : imm.toNat = 0 ∨ imm.toNat = 1 := by omega
  · rw [show imm = 0 from BitVec.eq_of_toNat_eq h0]
    rfl
  · rw [show imm = 1 from BitVec.eq_of_toNat_eq h1]
    rfl

-- The rows

/-- In a list on which `f` is injective, a search by `f` of an element finds that element. -/
theorem find?_of_nodup_map {α β : Type} [BEq β] [LawfulBEq β] {l : List α} {f : α → β} (hl : (l.map f).Nodup) {x : α}
    (hx : x ∈ l) : l.find? (fun y => f y == f x) = some x := by
  obtain ⟨y, hy⟩ : ∃ y, l.find? (fun y => f y == f x) = some y :=
    Option.isSome_iff_exists.mp (List.find?_isSome.mpr ⟨x, hx, beq_self_eq_true (f x)⟩)
  have hfy : f y = f x := by simpa using List.find?_some hy
  rw [hy, List.inj_on_of_nodup_map hl (List.mem_of_find?_eq_some hy) hx hfy]

/-- R113: an opcode finds the one row of the map that has it. -/
theorem opRow?_eq_some_iff {op : BitVec 8} {r : OpRow} : opRow? op = some r ↔ r ∈ opTable ∧ r.op = op := by
  refine ⟨fun h => ⟨List.mem_of_find?_eq_some h, by simpa using List.find?_some h⟩, ?_⟩
  rintro ⟨hmem, rfl⟩
  exact find?_of_nodup_map (f := OpRow.op) (List.pairwise_map.mpr opTable_pairwise) hmem

theorem opTable_pat : ∀ r ∈ opTable, r.pat = fields r.op 0 0 := by
  simp [opTable, fields]

/-- R114, R117: a word matches its row's pattern when the bits of `ch` and `imm` that the row's mask covers
are zero. -/
theorem and_mask_eq_pat_iff {r : OpRow} (hr : r ∈ opTable) {w : Word} (hop : opField w = r.op) :
    w &&& r.mask = r.pat ↔ chField w &&& chField r.mask = 0 ∧ immField w &&& immField r.mask = 0 := by
  obtain ⟨-, hmask⟩ := opTable_patterns r hr
  have hch : chField w &&& chField r.mask < 256 := Nat.and_le_left.trans_lt (chField_lt w)
  have hone : r.op &&& 0xFF = r.op := BitVec.and_allOnes
  have hsplit : w &&& r.mask = fields r.op (chField w &&& chField r.mask) (immField w &&& immField r.mask) := by
    conv_lhs => rw [← fields_eta w, ← fields_eta r.mask, fields_and_fields, hop, hmask, hone]
  rw [hsplit, opTable_pat r hr, fields_inj hch (by decide)]
  exact and_iff_right rfl

/-- R111, R112: what each row reserves: `ch` and `imm`, `imm`, all of `imm` but bit 0, the high half of
`imm`, or nothing. -/
theorem opTable_reserved : ∀ r ∈ opTable,
    (r.op ∈ [0x01, 0x0E, 0x0F] ∧ chField r.mask = 0xFF ∧ immField r.mask = 0xFFFF)
    ∨ (r.op ∈ [0x03, 0x05, 0x06, 0x07, 0x08, 0x09, 0x0C, 0x0D, 0x80, 0x81, 0x83]
      ∧ chField r.mask = 0 ∧ immField r.mask = 0xFFFF)
    ∨ (r.op ∈ [0x04] ∧ chField r.mask = 0 ∧ immField r.mask = 0xFFFE)
    ∨ (r.op ∈ [0x0A, 0x82] ∧ chField r.mask = 0 ∧ immField r.mask = 0xFF00)
    ∨ (r.op ∈ [0x02, 0x0B] ∧ chField r.mask = 0 ∧ immField r.mask = 0) := by
  simp [opTable, chField, immField]

theorem immAll_reserved_iff (imm : Half) : imm &&& 0xFFFF#16 = 0#16 ↔ imm = 0#16 := by
  rw [show imm &&& 0xFFFF#16 = imm from BitVec.and_allOnes]

theorem immFlag_reserved_iff (imm : Half) : imm &&& 0xFFFE#16 = 0#16 ↔ imm.toNat < 2 :=
  and_allOnes_shiftLeft_eq_zero_iff 1 imm

theorem immByte_reserved_iff (imm : Half) : imm &&& 0xFF00#16 = 0#16 ↔ imm.toNat < 256 :=
  and_allOnes_shiftLeft_eq_zero_iff 8 imm

theorem chField_reserved_iff (w : Word) : chField w &&& 0xFF = 0 ↔ chField w = 0 := by
  rw [Nat.and_two_pow_sub_one_eq_mod (n := 8), Nat.mod_eq_of_lt (chField_lt w)]

/-- R111, R112, R117: the bits a row's mask covers are the reserved bits of its opcode. -/
theorem reservedZero_iff {r : OpRow} (hr : r ∈ opTable) {w : Word} (hop : opField w = r.op) :
    w &&& r.mask = r.pat ↔ ReservedZero w := by
  rw [and_mask_eq_pat_iff hr hop, ReservedZero, hop]
  obtain ⟨hrow, hch, himm⟩ | ⟨hrow, hch, himm⟩ | ⟨hrow, hch, himm⟩ | ⟨hrow, hch, himm⟩ | ⟨hrow, hch, himm⟩ :=
    opTable_reserved r hr
  all_goals
    rw [hch, himm]
    generalize r.op = op at hrow
    fin_cases hrow <;>
      simp [immAll_reserved_iff, immFlag_reserved_iff, immByte_reserved_iff, chField_reserved_iff]

/-- R112: the operands that a row builds of a channel and an `imm` whose reserved bits are zero spell both
again. -/
theorem encode_build : ∀ r ∈ opTable, ∀ w, opField w = r.op → ReservedZero w →
    encode (r.build (chField w) (immField w)) = fields r.op (chField w) (immField w) := by
  simp +contextual [opTable, encode, ReservedZero, byteImm_immByte, flagImm_immFlag]

theorem build_wf : ∀ r ∈ opTable, ∀ c imm, c < 256 → (r.build c imm).wf = true := by
  simp +contextual [opTable, Instr.wf, Instr.channel?, channelFits]

theorem build_isEvent : ∀ r ∈ opTable, ∀ c imm, (r.build c imm).isEvent = r.event := by
  simp [opTable, Instr.isEvent]

/-- A row reads a word as the instruction it builds, or refuses its reserved bits (R115). -/
theorem OpRow.operands_cases {r : OpRow} (hr : r ∈ opTable) {w : Word} (hop : r.op = opField w) :
    (ReservedZero w ∧ r.operands w = .ok (r.build (chField w) (immField w))
      ∧ encode (r.build (chField w) (immField w)) = w) ∨
    (¬ ReservedZero w ∧ r.operands w = .error (.reservedFieldNonZero w)) := by
  have hres := reservedZero_iff hr hop.symm
  by_cases h : ReservedZero w
  · exact .inl ⟨h, if_pos (hres.mpr h), (encode_build r hr w hop.symm h).trans (hop ▸ fields_eta w)⟩
  · exact .inr ⟨h, if_neg fun hw => h (hres.mp hw)⟩

-- Decoding and encoding

/-- Settles O2: a word that decodes has a row and its reserved bits zero, so it is the word of what its
row builds. -/
theorem encodeOfDecodeIsTheWord : Obligations.EncodeOfDecodeIsTheWord := by
  intro w i h
  cases hrow : opRow? (opField w) with
  | none => simp [decode, hrow] at h
  | some r =>
    obtain ⟨hr, hop⟩ := opRow?_eq_some_iff.mp hrow
    obtain ⟨-, hok, henc⟩ | ⟨-, herr⟩ := OpRow.operands_cases hr hop
    · simp only [decode, hrow, hok, Except.ok.injEq] at h
      exact h ▸ ⟨build_wf r hr _ _ (chField_lt w), henc⟩
    · simp [decode, hrow, herr] at h

theorem byteImm_toNat (b : Byte) : (byteImm b).toNat = b.toNat := by
  rw [byteImm, BitVec.toNat_append (0 : BitVec 8)]
  simp

theorem flagImm_toNat_le (on : Bool) : (flagImm on).toNat ≤ 1 := by
  cases on <;> decide

/-- R112: the word of an instruction has no reserved bit set. -/
theorem reservedZero_encode (i : Instr) : ReservedZero (encode i) := by
  cases i with
  | setflow c on => simpa [ReservedZero, encode] using flagImm_toNat_le on
  | write c b | lineRx c b => simpa [ReservedZero, encode, byteImm_toNat] using b.isLt
  | _ => simp [ReservedZero, encode]

/-- R112, R113: the row of an instruction's opcode builds the instruction from its word's fields. -/
theorem exists_row_of_encode {i : Instr} (hwf : i.wf = true) :
    ∃ r, opRow? (opField (encode i)) = some r ∧ r.build (chField (encode i)) (immField (encode i)) = i := by
  cases i with
  | chcount | sei | cli => exact ⟨_, rfl, rfl⟩
  | _ =>
    simp only [Instr.wf, Instr.channel?, channelFits, decide_eq_true_eq] at hwf
    rw [encode, opField_fields]
    exact ⟨_, rfl, by simp [Nat.mod_eq_of_lt hwf]⟩

/-- Settles O1: the word's opcode finds its row, no reserved bit is set, and the row builds the instruction
back. -/
theorem decodeOfEncodeIsTheInstruction : Obligations.DecodeOfEncodeIsTheInstruction := by
  intro i hwf
  obtain ⟨r, hrow, hbuild⟩ := exists_row_of_encode hwf
  obtain ⟨hr, hop⟩ := opRow?_eq_some_iff.mp hrow
  rw [decode_of_row hrow ((reservedZero_iff hr hop.symm).mpr (reservedZero_encode i)), hbuild]

/-- Settles O3: each word is its row's pattern with its operands. -/
theorem specWordsDecodeToTheirInstructions : Obligations.SpecWordsDecodeToTheirInstructions :=
  ⟨rfl, rfl, rfl, rfl, rfl, rfl, rfl, rfl⟩

-- The decoders of programs and schedules

/-- R116: the rows of commands and of events have the opcodes of their ranges. -/
theorem opTable_event : ∀ r ∈ opTable,
    (r.event = false ∧ isCommandOp r.op ∧ ¬ isEventOp r.op) ∨
    (r.event = true ∧ isEventOp r.op ∧ ¬ isCommandOp r.op) := by
  simp [opTable, isCommandOp, isEventOp]

/-- All an opcode can be: illegal, or that of a command's row, or that of an event's row (R113, R116). -/
theorem opRow?_cases (op : BitVec 8) :
    (opRow? op = none ∧ ¬ isCommandOp op ∧ ¬ isEventOp op) ∨
    (∃ r ∈ opTable, r.op = op ∧ opRow? op = some r ∧ r.event = false ∧ isCommandOp op ∧ ¬ isEventOp op) ∨
    (∃ r ∈ opTable, r.op = op ∧ opRow? op = some r ∧ r.event = true ∧ isEventOp op ∧ ¬ isCommandOp op) := by
  cases hrow : opRow? op with
  | none =>
    have hzero : op = 0x00 ↔ op.toNat = 0 := BitVec.toNat_inj.symm
    have hranges := (opRow?_eq_none_iff op).mp hrow
    rw [hzero] at hranges
    exact .inl ⟨rfl, by omega, by omega⟩
  | some r =>
    obtain ⟨hr, rfl⟩ := opRow?_eq_some_iff.mp hrow
    obtain h | h := opTable_event r hr
    · exact .inr (.inl ⟨r, hr, rfl, rfl, h⟩)
    · exact .inr (.inr ⟨r, hr, rfl, rfl, h⟩)

section
variable {w : Word} {r : OpRow} (cfg : Config) (hrow : opRow? (opField w) = some r)
include hrow

theorem decodeProgramWord_of_event (hev : r.event = true) :
    decodeProgramWord cfg w = .error (.eventInProgram w) := by
  simp [decodeProgramWord, hrow, hev]

theorem decodeProgramWord_of_absent (hev : r.event = false) (hf : opField w = 0x04 ∧ cfg.flowControl = false) :
    decodeProgramWord cfg w = .error (.featureAbsent w) := by
  obtain ⟨-, hop⟩ := opRow?_eq_some_iff.mp hrow
  rw [← hop] at hf
  simp [decodeProgramWord, hrow, hev, hf]

theorem decodeProgramWord_of_command (hev : r.event = false)
    (hf : ¬ (opField w = 0x04 ∧ cfg.flowControl = false)) : decodeProgramWord cfg w = r.operands w := by
  obtain ⟨-, hop⟩ := opRow?_eq_some_iff.mp hrow
  rw [← hop] at hf
  simp only [decodeProgramWord, hrow, hev, Bool.false_eq_true, if_false, if_neg hf]

theorem decodeScheduleWord_of_command (hev : r.event = false) :
    decodeScheduleWord cfg w = .error (.commandInSchedule w) := by
  simp [decodeScheduleWord, hrow, hev]

theorem decodeScheduleWord_of_error (hev : r.event = true) {e : Machine.Refusal} (he : r.operands w = .error e) :
    decodeScheduleWord cfg w = .error e := by
  simp [decodeScheduleWord, hrow, hev, he]

theorem decodeScheduleWord_of_ok (hev : r.event = true) {i : Instr} (hi : r.operands w = .ok i) :
    decodeScheduleWord cfg w =
      if chField w < cfg.channelCount then .ok i else .error (.noSuchChannel w) := by
  simp [decodeScheduleWord, hrow, hev, hi]

end

/-- Settles O4: an opcode is illegal, a command's or an event's, and then the checks are those of its row. -/
theorem wordsDecodeByTheChecksInOrder : Obligations.WordsDecodeByTheChecksInOrder := by
  intro cfg w
  obtain ⟨hrow, hcmd, hev⟩ | ⟨r, hr, hop, hrow, hevent, hcmd, hev⟩ | ⟨r, hr, hop, hrow, hevent, hev, hcmd⟩ :=
    opRow?_cases (opField w)
  · exact ⟨fun _ => ⟨(decodeProgramWord_illegalOpcode_iff cfg w).mpr hrow,
      (decodeScheduleWord_illegalOpcode_iff cfg w).mpr hrow⟩,
      fun h => absurd h hev, fun h => absurd h hcmd, fun h => absurd h hcmd, fun h => absurd h hev⟩
  · refine ⟨fun h => absurd hcmd h.1, fun h => absurd h hev,
      fun _ => ⟨decodeProgramWord_of_absent cfg hrow hevent, fun hf => ?_⟩,
      fun _ => decodeScheduleWord_of_command cfg hrow hevent, fun h => absurd h hev⟩
    rw [decodeProgramWord_of_command cfg hrow hevent hf]
    obtain ⟨hres, hok, henc⟩ | ⟨hres, herr⟩ := OpRow.operands_cases hr hop
    · exact ⟨fun h => absurd hres h, fun _ => ⟨_, hok, henc, (build_isEvent r hr _ _).trans hevent⟩⟩
    · exact ⟨fun _ => herr, fun h => absurd h hres⟩
  · refine ⟨fun h => absurd hev h.2, fun _ => decodeProgramWord_of_event cfg hrow hevent,
      fun h => absurd h hcmd, fun h => absurd h hcmd, fun _ => ?_⟩
    obtain ⟨hres, hok, henc⟩ | ⟨hres, herr⟩ := OpRow.operands_cases hr hop
    · rw [decodeScheduleWord_of_ok cfg hrow hevent hok]
      exact ⟨fun h => absurd hres h, fun _ hc => if_neg (Nat.not_lt.mpr hc), fun h => absurd hres h,
        fun _ hc => ⟨_, if_pos hc, henc, (build_isEvent r hr _ _).trans hevent⟩⟩
    · rw [decodeScheduleWord_of_error cfg hrow hevent herr]
      exact ⟨fun _ _ => rfl, fun h => absurd h hres, fun _ _ => ⟨_, rfl⟩, fun h => absurd h hres⟩

end Sys2Proof
end

section
/-! PROOFS. A ring's occupancy and contents by its cursors, what a push and a pop make of both, and the laws
of `40_ringbuffer.md` that follow: occupancy, capacity and FIFO. -/

namespace Sys2Proof.Machine

-- Occupancy

theorem advance_eq_mod {i C : Nat} (h : i < C) : advance i C = (i + 1) % C := by
  unfold advance
  split
  · next hi => rw [hi, Nat.sub_add_cancel (by omega), Nat.mod_self]
  · exact (Nat.mod_eq_of_lt (by omega)).symm

section
variable {C : Nat} {r : Ring}

/-- R142: the occupancy is the distance from `read` to `write`, straight or around the end. -/
theorem Ring.occupancy_cases (hread : r.read < C) (hwrite : r.write < C) :
    (r.read ≤ r.write ∧ r.occupancy C = r.write - r.read) ∨
    (r.write < r.read ∧ r.occupancy C = r.write + C - r.read) := by
  unfold Ring.occupancy
  obtain h | h := Nat.lt_or_ge r.write r.read
  · exact .inr ⟨h, Nat.mod_eq_of_lt (by omega)⟩
  · refine .inl ⟨h, ?_⟩
    rw [Nat.sub_add_comm h, Nat.add_mod_right, Nat.mod_eq_of_lt (by omega)]

/-- All `advance` can do: wrap at the last index, or add one. -/
theorem advance_cases (i C : Nat) : (i = C - 1 ∧ advance i C = 0) ∨ (i ≠ C - 1 ∧ advance i C = i + 1) := by
  unfold advance
  split
  · next h => exact .inl ⟨h, rfl⟩
  · next h => exact .inr ⟨h, rfl⟩

theorem Ring.occupancy_lt (hread : r.read < C) : r.occupancy C < C := Nat.mod_lt _ (by omega)

theorem Ring.isEmpty_iff (hread : r.read < C) (hwrite : r.write < C) :
    r.isEmpty = true ↔ r.occupancy C = 0 := by
  have := Ring.occupancy_cases hread hwrite
  rw [Ring.isEmpty, beq_iff_eq]
  omega

theorem Ring.isFull_iff (hread : r.read < C) (hwrite : r.write < C) :
    r.isFull C = true ↔ r.occupancy C = C - 1 := by
  have := Ring.occupancy_cases hread hwrite
  have := advance_cases r.write C
  rw [Ring.isFull, beq_iff_eq]
  omega

/-- From `read`, the occupancy leads to `write`. -/
theorem Ring.read_add_occupancy (hread : r.read < C) (hwrite : r.write < C) :
    (r.read + r.occupancy C) % C = r.write := by
  obtain ⟨hle, e⟩ | ⟨hlt, e⟩ := Ring.occupancy_cases hread hwrite
  · rw [e, Nat.add_sub_cancel' hle, Nat.mod_eq_of_lt hwrite]
  · rw [e, Nat.add_sub_cancel' (by omega), Nat.add_mod_right, Nat.mod_eq_of_lt hwrite]

end

/-- Settles O8: every clause compares the cursors, straight or around the end. -/
theorem occupancyDecidesEmptyAndFull : Obligations.OccupancyDecidesEmptyAndFull := by
  intro C r _ hread hwrite
  have hocc : (r.occupancy C : Int) = ((r.write : Int) - r.read + C) % C := by
    rw [Ring.occupancy, Int.natCast_emod, Nat.cast_sub (by omega), Nat.cast_add]
    ring_nf
  exact ⟨advance_lt hwrite, advance_eq_mod hwrite, hocc, Nat.le_sub_one_of_lt (Ring.occupancy_lt hread),
    Ring.isEmpty_iff hread hwrite, Ring.isFull_iff hread hwrite⟩

-- Contents

/-- The slots from `i` are those of the indices from `i`, wrapping. -/
theorem slotsFrom_eq_map {C : Nat} (buf : Memory) (n : Nat) {i : Nat} (hi : i < C) :
    slotsFrom C buf n i = (List.range n).map fun k => Memory.get buf ((i + k) % C) := by
  induction n generalizing i with
  | zero => rfl
  | succ n ih =>
    rw [slotsFrom, ih (advance_lt hi), List.range_succ_eq_map, List.map_cons, List.map_map, Nat.add_zero,
      Nat.mod_eq_of_lt hi, advance_eq_mod hi]
    simp [Function.comp_def, Nat.add_right_comm, Nat.add_assoc]

section
variable {C : Nat} {r : Ring}

/-- R147: the bytes held are those of the slots from `read`, as many as the occupancy. -/
theorem Ring.contents_eq_map (hread : r.read < C) :
    r.contents C = (List.range (r.occupancy C)).map fun k => Memory.get r.buf ((r.read + k) % C) :=
  slotsFrom_eq_map _ _ hread

theorem Ring.length_contents (hread : r.read < C) : (r.contents C).length = r.occupancy C := by
  simp [Ring.contents_eq_map hread]

/-- Two steps from one index that are less than a round apart lead to the same index only when they are
equal. -/
theorem add_mod_inj {i j k : Nat} (hj : j < C) (hk : k < C) (h : (i + j) % C = (i + k) % C) : j = k := by
  have hmod : j ≡ k [MOD C] := Nat.ModEq.add_left_cancel' i h
  exact hmod.eq_of_lt_of_lt hj hk

theorem Ring.push_occupancy (h : r.InRange C) (b : Byte) (hfull : r.isFull C = false) :
    (r.push C b).2.occupancy C = r.occupancy C + 1 := by
  obtain ⟨-, hread, hwrite⟩ := h
  have hadv := advance_cases r.write C
  have hold := Ring.occupancy_cases hread hwrite
  have hnew := Ring.occupancy_cases (r := (r.push C b).2) (by rwa [r.push_read]) (by
    rw [Ring.push_of_not_full b hfull]; exact advance_lt hwrite)
  have hne : ¬ r.occupancy C = C - 1 := fun e =>
    absurd ((Ring.isFull_iff hread hwrite).mpr e) (by simp [hfull])
  rw [Ring.push_of_not_full b hfull] at hnew ⊢
  dsimp only at hnew ⊢
  omega

/-- R143, R147: a stored byte is held behind the others. -/
theorem Ring.push_contents (h : r.InRange C) (b : Byte) (hfull : r.isFull C = false) :
    (r.push C b).2.contents C = r.contents C ++ [b] := by
  have hocc := Ring.push_occupancy h b hfull
  obtain ⟨hlen, hread, hwrite⟩ := h
  have hlt := Ring.occupancy_lt hread
  rw [Ring.contents_eq_map (by rwa [r.push_read]), hocc, Ring.contents_eq_map hread, List.range_succ,
    List.map_append]
  rw [Ring.push_of_not_full b hfull]
  congr 1
  · refine List.map_congr_left fun k hk => Memory.get_put_other _ _ _ b fun e => ?_
    rw [List.mem_range] at hk
    rw [← Ring.read_add_occupancy hread hwrite] at e
    exact hk.ne (add_mod_inj (hk.trans hlt) hlt e)
  · rw [List.map_singleton, Ring.read_add_occupancy hread hwrite, Memory.get_put_same _ _ b (hlen ▸ hwrite)]

theorem Ring.pop_occupancy {r' : Ring} {b : Byte} (h : r.InRange C) (e : r.pop C = some (b, r')) :
    r.occupancy C = r'.occupancy C + 1 := by
  obtain ⟨-, hread', hwrite'⟩ := Ring.pop_inRange h e
  obtain ⟨-, hread, hwrite⟩ := h
  have hne : ¬ r.occupancy C = 0 := fun h0 =>
    absurd ((r.pop_eq_none_iff C).mpr ((Ring.isEmpty_iff hread hwrite).mpr h0)) (by simp [e])
  have hadv := advance_cases r.read C
  have hold := Ring.occupancy_cases hread hwrite
  have hnew := Ring.occupancy_cases hread' hwrite'
  obtain ⟨-, rfl⟩ := Ring.pop_eq_some e
  dsimp only at hnew
  omega

/-- R144, R147: the byte popped was held before the others. -/
theorem Ring.pop_contents {r' : Ring} {b : Byte} (h : r.InRange C) (e : r.pop C = some (b, r')) :
    r.contents C = b :: r'.contents C := by
  have hocc := Ring.pop_occupancy h e
  obtain ⟨-, hread', -⟩ := Ring.pop_inRange h e
  obtain ⟨-, hread, -⟩ := h
  have hlt := Ring.occupancy_lt hread
  rw [Ring.contents, hocc, slotsFrom, slotsFrom_eq_map _ _ (advance_lt hread), Ring.contents_eq_map hread']
  obtain ⟨rfl, rfl⟩ := Ring.pop_eq_some e
  refine congrArg _ (List.map_congr_left fun k hk => (Memory.get_put_other _ _ _ 0 fun e => ?_).symm)
  rw [List.mem_range] at hk
  have hzero : (r.read + (1 + k)) % C = (r.read + 0) % C := by
    rw [← Nat.add_assoc, ← Nat.mod_add_mod, ← advance_eq_mod hread, e, Nat.add_zero, Nat.mod_eq_of_lt hread]
  have := add_mod_inj (by omega) (by omega) hzero
  omega

end

/-- R146: a push keeps the law: what it stores is held behind the others. -/
theorem ringRun_fifo {C : Nat} (ops : List RingOp) {r : Ring} (h : r.InRange C) :
    (ringRun C ops r).popped ++ (ringRun C ops r).ring.contents C
      = r.contents C ++ (ringRun C ops r).stored := by
  induction ops generalizing r with
  | nil => simp [ringRun]
  | cons op ops ih =>
    cases op with
    | push b =>
      have hrest := ih (Ring.push_inRange b h)
      simp only [ringRun]
      rw [hrest]
      cases hfull : r.isFull C with
      | true => simp [Ring.push_of_full b hfull]
      | false => simp [Ring.push_contents h b hfull, (r.push_stored_iff C b).mpr hfull]
    | pop =>
      simp only [ringRun]
      cases hpop : r.pop C with
      | none => exact ih h
      | some p =>
        obtain ⟨b, r'⟩ := p
        simp [Ring.pop_contents h hpop, ih (Ring.pop_inRange h hpop)]

/-- Settles O12, by induction on the sequence of primitives. -/
theorem fifoLaw : Obligations.FifoLaw := fun _ ops _ _ h => ringRun_fifo ops h

-- Capacity

theorem Ring.not_full_of_lt {C : Nat} {r : Ring} (h : r.InRange C) (hocc : r.occupancy C < C - 1) :
    r.isFull C = false := by
  obtain ⟨-, hread, hwrite⟩ := h
  rw [← Bool.not_eq_true, Ring.isFull_iff hread hwrite]
  omega

/-- While the bytes fit, each push stores one, and the ring is full when they fill it. -/
theorem pushAll_of_fits {C : Nat} {bs : List Byte} {r : Ring} (h : r.InRange C)
    (hfits : r.occupancy C + bs.length ≤ C - 1) :
    (∀ ok ∈ (pushAll C r bs).1, ok = true) ∧ (pushAll C r bs).2.InRange C ∧
    (pushAll C r bs).2.occupancy C = r.occupancy C + bs.length := by
  induction bs generalizing r with
  | nil => exact ⟨by simp [pushAll], h, rfl⟩
  | cons b bs ih =>
    rw [List.length_cons] at hfits
    have hfull : r.isFull C = false := Ring.not_full_of_lt h (by omega)
    have hocc := Ring.push_occupancy h b hfull
    obtain ⟨hok, hrange, hrest⟩ := ih (Ring.push_inRange b h) (by omega)
    refine ⟨?_, hrange, ?_⟩
    · simpa [pushAll, r.push_stored_iff C b, hfull] using hok
    · rw [pushAll, hrest, hocc, List.length_cons]
      omega

/-- Settles O11: the bytes that fit leave the ring full, any fewer do not, and a full ring stores none. -/
theorem capacityLaw : Obligations.CapacityLaw := by
  intro C r bs b hC h hlen
  have hlt : r.occupancy C < C := by
    obtain ⟨-, hread, -⟩ := h
    exact Ring.occupancy_lt hread
  obtain ⟨hok, ⟨-, hread, hwrite⟩, hocc⟩ := pushAll_of_fits (bs := bs) h (by omega)
  have hfull : (pushAll C r bs).2.isFull C = true := (Ring.isFull_iff hread hwrite).mpr (by omega)
  refine ⟨hok, hfull, fun k hk => ?_, by rw [Ring.push_of_full b hfull]⟩
  have htake : (bs.take k).length = k := List.length_take_of_le hk.le
  obtain ⟨-, hrange, hk'⟩ := pushAll_of_fits (bs := bs.take k) h (by omega)
  exact Ring.not_full_of_lt hrange (by omega)

end Sys2Proof.Machine
end

section
/-! PROOFS. The updates of a channel as equations, in both builds, and that each of them keeps the channel's
invariant of `10_state.md` R48. -/

namespace Sys2Proof.Machine

-- The updates of a channel

/-- R200: the channel after the push attempt of the receive handler and before its flow-off test, in either
build. -/
def Channel.arrived (cfg : Config) (b : Byte) (x : Channel) : Channel :=
  { x with
    rxHold := none
    rx := (x.rx.push cfg.rxCapacity b).2
    rxCount := if cfg.flowControl && !x.rx.isFull cfg.rxCapacity then x.rxCount + 1 else x.rxCount }

/-- R204: the channel after a successful pop and before its flow-on test, in either build. -/
def Channel.taken (cfg : Config) (rx : Ring) (x : Channel) : Channel :=
  { x with rx := rx, rxCount := if cfg.flowControl then x.rxCount - 1 else x.rxCount }

/-- R200, R233: the receive handler is its push attempt, and then the transition to Off where the test of
the flow-control build holds. -/
theorem Channel.serveRx_arrived (cfg : Config) (b : Byte) (x : Channel) :
    ((cfg.flowControl = true ∧ x.flowOn = true ∧ cfg.high ≤ (x.arrived cfg b).rxCount) ∧
      x.serveRx cfg b = (x.arrived cfg b).goOff cfg) ∨
    (¬ (cfg.flowControl = true ∧ x.flowOn = true ∧ cfg.high ≤ (x.arrived cfg b).rxCount) ∧
      x.serveRx cfg b = x.arrived cfg b) := by
  cases hf : cfg.flowControl with
  | false => exact .inr ⟨by simp, by simp [Channel.serveRx, Channel.arrived, hf]⟩
  | true =>
    have harrived : x.received cfg b = x.arrived cfg b := by
      cases hfull : x.rx.isFull cfg.rxCapacity <;> simp [Channel.received, Channel.arrived, hf, hfull]
    have h := x.serveRx_cases b hf
    rw [harrived] at h
    simpa using h

/-- R204, R235: a successful pop is the pop, and then the transition to On where the test of the flow-control
build holds. -/
theorem Channel.took_taken (cfg : Config) (rx : Ring) (x : Channel) :
    ((cfg.flowControl = true ∧ x.flowOn = false ∧ (x.taken cfg rx).rxCount ≤ cfg.low) ∧
      x.took cfg rx = (x.taken cfg rx).goOn cfg) ∨
    (¬ (cfg.flowControl = true ∧ x.flowOn = false ∧ (x.taken cfg rx).rxCount ≤ cfg.low) ∧
      x.took cfg rx = x.taken cfg rx) := by
  cases hf : cfg.flowControl with
  | false => exact .inr ⟨by simp, by simp [Channel.took, Channel.taken, hf]⟩
  | true =>
    have htaken : x.popped rx = x.taken cfg rx := by simp [Channel.popped, Channel.taken, hf]
    have h := x.took_cases rx hf
    rw [htaken] at h
    simpa [Channel.taken, hf] using h

theorem Channel.send_eq (cfg : Config) (b : Byte) (x : Channel) : x.send cfg b =
    { x with tx := (x.tx.push cfg.txCapacity b).2, txIdle := false, txIE := x.txIE || x.txIdle } :=
  Channel.kick_eq _

/-- R170: all the transmit handler can do: hand over the control byte, or a data byte, or stop the engine. -/
theorem Channel.serveTx_cases (cfg : Config) (x : Channel) :
    (∃ k, x.control cfg = some k ∧ x.serveTx cfg = { x with txHold := some k, pending := none }) ∨
    (x.control cfg = none ∧ ∃ b tx, x.tx.pop cfg.txCapacity = some (b, tx) ∧
      x.serveTx cfg = { x with txHold := some b, tx := tx }) ∨
    (x.control cfg = none ∧ x.tx.pop cfg.txCapacity = none ∧
      x.serveTx cfg = { x with txIE := false, txIdle := true }) := by
  cases hk : x.control cfg with
  | some k => exact .inl ⟨k, rfl, by simp [Channel.serveTx, hk]⟩
  | none =>
    cases hpop : x.tx.pop cfg.txCapacity with
    | some p => exact .inr (.inl ⟨rfl, p.1, p.2, rfl, by simp [Channel.serveTx, hk, hpop]⟩)
    | none => exact .inr (.inr ⟨rfl, rfl, by simp [Channel.serveTx, hk, hpop]⟩)

/-- R306: all the receive line can do: record the byte and take it, or, in a full register under DropNew,
only record it. -/
theorem Channel.lineRx_cases (cfg : Config) (b : Byte) (x : Channel) :
    ((x.rxHold = none ∨ cfg.rxOverrunPolicy = .overwrite) ∧
      x.lineRx cfg b = { x with rxArrived := x.rxArrived ++ [b], rxHold := some b }) ∨
    (x.rxHold ≠ none ∧ cfg.rxOverrunPolicy = .dropNew ∧
      x.lineRx cfg b = { x with rxArrived := x.rxArrived ++ [b] }) := by
  by_cases htakes : x.rxHold = none ∨ cfg.rxOverrunPolicy = .overwrite
  · exact .inl ⟨htakes, x.lineRx_takes b htakes⟩
  · obtain ⟨hold, hpolicy⟩ := not_or.mp htakes
    have hdrop : cfg.rxOverrunPolicy = .dropNew := by
      cases h : cfg.rxOverrunPolicy with
      | dropNew => rfl
      | overwrite => exact absurd h hpolicy
    obtain ⟨old, ho⟩ := Option.ne_none_iff_exists'.mp hold
    exact .inr ⟨hold, hdrop, x.lineRx_drops b ho hdrop⟩

/-- R262, in either build. -/
theorem Channel.opened_eq (cfg : Config) (baud : Half) (x : Channel) : x.opened cfg baud =
    { rx := { buf := x.rx.buf, read := 0, write := 0 }
      tx := { buf := x.tx.buf, read := 0, write := 0 }
      txIdle := true
      flowOn := if cfg.flowControl then true else x.flowOn
      pending := if cfg.flowControl then none else x.pending
      rxCount := if cfg.flowControl then 0 else x.rxCount
      active := true, baud := baud, charSize := 8
      rxEn := true, txEn := true, rxIE := true, txIE := false
      txHold := none, rxHold := none
      txWire := x.txWire, rxArrived := x.rxArrived } := by
  cases hf : cfg.flowControl <;> simp [Channel.opened, hf]

/-- R264, in either build. -/
theorem Channel.closed_eq (cfg : Config) (x : Channel) : x.closed cfg =
    { rx := { buf := x.rx.buf, read := 0, write := 0 }
      tx := { buf := x.tx.buf, read := 0, write := 0 }
      txIdle := true
      flowOn := if cfg.flowControl then true else x.flowOn
      pending := if cfg.flowControl then none else x.pending
      rxCount := if cfg.flowControl then 0 else x.rxCount
      active := false, baud := x.baud, charSize := x.charSize
      rxEn := false, txEn := false, rxIE := false, txIE := false
      txHold := none, rxHold := none
      txWire := x.txWire, rxArrived := x.rxArrived } := by
  cases hf : cfg.flowControl <;> simp [Channel.closed, hf]

-- The invariant of a channel

/-- An active channel has the invariant when its rings are in range and its open part has it. -/
theorem Channel.Inv.of_open {cfg : Config} {x : Channel} (hrx : x.rx.InRange cfg.rxCapacity)
    (htx : x.tx.InRange cfg.txCapacity) (ha : x.active = true) (ho : x.OpenInv cfg) : x.Inv cfg :=
  ⟨hrx, htx, fun _ => ho, fun h => absurd (ha.symm.trans h) nofun⟩

theorem Ring.inRange_emptied {C : Nat} {r : Ring} (h : r.InRange C) :
    Ring.InRange C { buf := r.buf, read := 0, write := 0 } := by
  obtain ⟨hlen, hread, -⟩ := h
  exact ⟨hlen, Nat.zero_lt_of_lt hread, Nat.zero_lt_of_lt hread⟩

theorem Ring.occupancy_emptied (C : Nat) (buf : Memory) :
    Ring.occupancy C { buf := buf, read := 0, write := 0 } = 0 := by
  simp [Ring.occupancy]

section
variable {cfg : Config} {x : Channel}

/-- R166: after a kick the engine drains, so only R48's other items are left to hold. -/
theorem Channel.openInv_kick (hidle : x.txIdle = !x.txIE)
    (hcount : cfg.flowControl = true → x.rxCount = x.rx.occupancy cfg.rxCapacity)
    (hcontrol : cfg.flowControl = true →
      x.pending = none ∨ x.pending = some (if x.flowOn then cfg.xonByte else cfg.xoffByte))
    (henables : x.rxEn = true ∧ x.txEn = true ∧ x.rxIE = true) : x.kick.OpenInv cfg := by
  rw [Channel.kick_eq]
  exact ⟨by simp [hidle], hcount, hcontrol, nofun, henables⟩

theorem Channel.OpenInv.goOff (h : x.OpenInv cfg) : (x.goOff cfg).OpenInv cfg :=
  Channel.openInv_kick h.idle h.count (fun _ => .inr rfl) h.enables

theorem Channel.OpenInv.goOn (h : x.OpenInv cfg) : (x.goOn cfg).OpenInv cfg :=
  Channel.openInv_kick h.idle h.count (fun _ => .inr rfl) h.enables

theorem Channel.OpenInv.send (h : x.OpenInv cfg) (b : Byte) : (x.send cfg b).OpenInv cfg :=
  Channel.openInv_kick h.idle h.count h.control h.enables

/-- R37: the count follows the push attempt. -/
theorem Channel.OpenInv.arrived (h : x.OpenInv cfg) (hrx : x.rx.InRange cfg.rxCapacity) (b : Byte) :
    (x.arrived cfg b).OpenInv cfg := by
  refine ⟨h.idle, fun hf => ?_, h.control, h.drained, h.enables⟩
  cases hfull : x.rx.isFull cfg.rxCapacity with
  | true => simpa [Channel.arrived, hf, hfull, Ring.push_of_full] using h.count hf
  | false => simpa [Channel.arrived, hf, hfull, Ring.push_occupancy hrx b hfull] using h.count hf

/-- R37: the count follows the pop. -/
theorem Channel.OpenInv.taken (h : x.OpenInv cfg) (hrx : x.rx.InRange cfg.rxCapacity) {b : Byte} {rx : Ring}
    (hpop : x.rx.pop cfg.rxCapacity = some (b, rx)) : (x.taken cfg rx).OpenInv cfg := by
  refine ⟨h.idle, fun hf => ?_, h.control, h.drained, h.enables⟩
  simp [Channel.taken, hf, h.count hf, Ring.pop_occupancy hrx hpop]

theorem Channel.OpenInv.serveRx (h : x.OpenInv cfg) (hrx : x.rx.InRange cfg.rxCapacity) (b : Byte) :
    (x.serveRx cfg b).OpenInv cfg := by
  obtain ⟨-, e⟩ | ⟨-, e⟩ := x.serveRx_arrived cfg b
  · exact e ▸ (h.arrived hrx b).goOff
  · exact e ▸ h.arrived hrx b

theorem Channel.OpenInv.took (h : x.OpenInv cfg) (hrx : x.rx.InRange cfg.rxCapacity) {b : Byte} {rx : Ring}
    (hpop : x.rx.pop cfg.rxCapacity = some (b, rx)) : (x.took cfg rx).OpenInv cfg := by
  obtain ⟨-, e⟩ | ⟨-, e⟩ := x.took_taken cfg rx
  · exact e ▸ (h.taken hrx hpop).goOn
  · exact e ▸ h.taken hrx hpop

theorem Channel.txReq_iff (x : Channel) :
    x.txReq = true ↔ x.active = true ∧ x.txIE = true ∧ x.txHold = none := by
  simp [Channel.txReq, Channel.dre, and_assoc]

theorem Channel.rxReq_iff (x : Channel) :
    x.rxReq = true ↔ x.active = true ∧ x.rxIE = true ∧ x.rxHold ≠ none := by
  simp [Channel.rxReq, Channel.rxc, and_assoc, Option.isSome_iff_ne_none]

theorem Channel.lineTxReady_iff (x : Channel) :
    x.lineTxReady = true ↔ x.active = true ∧ x.txEn = true ∧ x.txHold ≠ none := by
  simp [Channel.lineTxReady, and_assoc, Option.isSome_iff_ne_none]

theorem Channel.control_eq_none_iff (cfg : Config) (x : Channel) :
    x.control cfg = none ↔ (cfg.flowControl = true → x.pending = none) := by
  cases hf : cfg.flowControl <;> simp [Channel.control, hf]

/-- R170: the handler drains on its request, and stops the engine only with nothing left. -/
theorem Channel.OpenInv.serveTx (h : x.OpenInv cfg) (hreq : x.txReq = true) :
    (x.serveTx cfg).OpenInv cfg := by
  obtain ⟨-, hie, hhold⟩ := x.txReq_iff.mp hreq
  have hdraining : x.txIdle = false := by rw [h.idle, hie]; rfl
  obtain ⟨k, -, e⟩ | ⟨-, b, tx, -, e⟩ | ⟨hk, hpop, e⟩ := x.serveTx_cases cfg
  · rw [e]
    exact ⟨h.idle, h.count, fun _ => .inl rfl, fun hi => absurd (hdraining.symm.trans hi) nofun, h.enables⟩
  · rw [e]
    exact ⟨h.idle, h.count, h.control, fun hi => absurd (hdraining.symm.trans hi) nofun, h.enables⟩
  · rw [e]
    exact ⟨rfl, h.count, h.control, fun _ => ⟨hhold, (x.tx.pop_eq_none_iff _).mp hpop,
      (x.control_eq_none_iff cfg).mp hk⟩, h.enables⟩

theorem Channel.OpenInv.lineTx (h : x.OpenInv cfg) : x.lineTx.OpenInv cfg :=
  ⟨h.idle, h.count, h.control, fun hi => ⟨rfl, (h.drained hi).2⟩, h.enables⟩

theorem Channel.OpenInv.lineRx (h : x.OpenInv cfg) (b : Byte) : (x.lineRx cfg b).OpenInv cfg := by
  obtain ⟨-, e⟩ | ⟨-, -, e⟩ := x.lineRx_cases cfg b
  · exact e ▸ ⟨h.idle, h.count, h.control, h.drained, h.enables⟩
  · exact e ▸ ⟨h.idle, h.count, h.control, h.drained, h.enables⟩

end

end Sys2Proof.Machine
end

section
/-! PROOFS. The invariant of `10_state.md` R48 holds at power-on and every step of every agent keeps it. -/

namespace Sys2Proof.Machine

-- One channel

/-- An update by an event keeps whether the channel is active. -/
theorem EventUpdate.active {cfg : Config} {i : Instr} {x y : Channel} (h : EventUpdate cfg i x y) :
    x.active = true ∧ y.active = x.active := by
  cases h with
  | evRxc c hreq =>
    refine ⟨(x.rxReq_iff.mp hreq).1, ?_⟩
    obtain ⟨-, e⟩ | ⟨-, e⟩ := x.serveRx_arrived cfg _
    · rw [e, Channel.goOff_eq]; rfl
    · rw [e]; rfl
  | evUdre c hreq =>
    refine ⟨(x.txReq_iff.mp hreq).1, ?_⟩
    obtain ⟨k, -, e⟩ | ⟨-, b, tx, -, e⟩ | ⟨-, -, e⟩ := x.serveTx_cases cfg <;> rw [e]
  | lineRx c b hr =>
    refine ⟨(x.lineRxReady_iff.mp hr).1, ?_⟩
    obtain ⟨-, e⟩ | ⟨-, -, e⟩ := x.lineRx_cases cfg b <;> rw [e]
  | lineTx c hr => exact ⟨(x.lineTxReady_iff.mp hr).1, rfl⟩

/-- Of the updates by actions, INIT's opens the channel, CLOSE's closes it and the others keep it as it is. -/
theorem Action.Update.active {cfg : Config} {a : Action} {x y : Channel} (h : a.Update cfg x y) :
    ((∃ c baud, a = .init c baud) ∧ y.active = true) ∨ ((∃ c, a = .close c) ∧ y.active = false) ∨
    ((∀ c baud, a ≠ .init c baud) ∧ (∀ c, a ≠ .close c) ∧ y.active = x.active) := by
  have htook : ∀ rx, (x.took cfg rx).active = x.active := fun rx => by
    obtain ⟨-, e⟩ | ⟨-, e⟩ := x.took_taken cfg rx
    · rw [e, Channel.goOn_eq]; rfl
    · rw [e]; rfl
  cases h with
  | init c baud => exact .inl ⟨⟨c, baud, rfl⟩, by rw [Channel.opened_eq]⟩
  | close c => exact .inr (.inl ⟨⟨c, rfl⟩, by rw [Channel.closed_eq]⟩)
  | flowOn => exact .inr (.inr ⟨nofun, nofun, by rw [Channel.goOn_eq]⟩)
  | flowOff => exact .inr (.inr ⟨nofun, nofun, by rw [Channel.goOff_eq]⟩)
  | read | readb => exact .inr (.inr ⟨nofun, nofun, htook _⟩)
  | write | digit => exact .inr (.inr ⟨nofun, nofun, by rw [Channel.send_eq]⟩)

theorem Ring.inRange_serveRx {cfg : Config} {x : Channel} (h : x.rx.InRange cfg.rxCapacity) (b : Byte) :
    (x.serveRx cfg b).rx.InRange cfg.rxCapacity ∧ (x.serveRx cfg b).tx = x.tx := by
  obtain ⟨-, e⟩ | ⟨-, e⟩ := x.serveRx_arrived cfg b
  · rw [e, Channel.goOff_eq]; exact ⟨Ring.push_inRange b h, rfl⟩
  · rw [e]; exact ⟨Ring.push_inRange b h, rfl⟩

/-- R48: an event keeps the invariant of its channel. -/
theorem EventUpdate.inv {cfg : Config} {i : Instr} {x y : Channel} (h : EventUpdate cfg i x y)
    (hx : x.Inv cfg) : y.Inv cfg := by
  obtain ⟨hactive, hkept⟩ := h.active
  obtain ⟨hrx, htx, hopen, -⟩ := hx
  have ho := hopen hactive
  rw [hactive] at hkept
  cases h with
  | evRxc c hreq =>
    obtain ⟨hrx', htx'⟩ := Ring.inRange_serveRx hrx _
    exact .of_open hrx' (htx' ▸ htx) hkept (ho.serveRx hrx _)
  | evUdre c hreq =>
    refine .of_open ?_ ?_ hkept (ho.serveTx hreq)
    · obtain ⟨k, -, e⟩ | ⟨-, b, tx, -, e⟩ | ⟨-, -, e⟩ := x.serveTx_cases cfg <;> rw [e] <;> exact hrx
    · obtain ⟨k, -, e⟩ | ⟨-, b, tx, hpop, e⟩ | ⟨-, -, e⟩ := x.serveTx_cases cfg <;> rw [e]
      · exact htx
      · exact Ring.pop_inRange htx hpop
      · exact htx
  | lineRx c b hr =>
    obtain ⟨-, e⟩ | ⟨-, -, e⟩ := x.lineRx_cases cfg b
    · exact .of_open (by rw [e]; exact hrx) (by rw [e]; exact htx) hkept (ho.lineRx b)
    · exact .of_open (by rw [e]; exact hrx) (by rw [e]; exact htx) hkept (ho.lineRx b)
  | lineTx c hr => exact .of_open hrx htx hkept ho.lineTx

theorem Channel.Inv.took {cfg : Config} {x : Channel} (hx : x.Inv cfg) (hactive : x.active = true) {b : Byte}
    {rx : Ring} (hpop : x.rx.pop cfg.rxCapacity = some (b, rx)) : (x.took cfg rx).Inv cfg := by
  obtain ⟨hrx, htx, hopen, -⟩ := hx
  have ho := (hopen hactive).took hrx hpop
  have hrx' := Ring.pop_inRange hrx hpop
  obtain ⟨-, e⟩ | ⟨-, e⟩ := x.took_taken cfg rx
  · rw [e, Channel.goOn_eq] at ho ⊢
    exact .of_open hrx' htx hactive ho
  · rw [e] at ho ⊢
    exact .of_open hrx' htx hactive ho

theorem Channel.Inv.send {cfg : Config} {x : Channel} (hx : x.Inv cfg) (hactive : x.active = true) (b : Byte) :
    (x.send cfg b).Inv cfg := by
  obtain ⟨hrx, htx, hopen, -⟩ := hx
  have ho := (hopen hactive).send b
  rw [Channel.send_eq] at ho ⊢
  exact .of_open hrx (Ring.push_inRange b htx) hactive ho

/-- R48: an action keeps the invariant of its channel, which is active but for INIT's. -/
theorem Action.Update.inv {cfg : Config} {a : Action} {x y : Channel} (h : a.Update cfg x y) (hx : x.Inv cfg)
    (hactive : x.active = true ∨ ∃ c baud, a = .init c baud) : y.Inv cfg := by
  cases h with
  | init c baud =>
    rw [Channel.opened_eq]
    refine .of_open (Ring.inRange_emptied hx.rxRange) (Ring.inRange_emptied hx.txRange) rfl ⟨rfl, fun hf => ?_,
      fun hf => ?_, fun _ => ⟨rfl, by simp [Ring.isEmpty], fun hf => ?_⟩, rfl, rfl, rfl⟩
    · simp [hf, Ring.occupancy_emptied]
    · simp [hf]
    · simp [hf]
  | close c =>
    rw [Channel.closed_eq]
    exact ⟨Ring.inRange_emptied hx.rxRange, Ring.inRange_emptied hx.txRange, nofun,
      fun _ => ⟨⟨rfl, rfl, rfl, rfl⟩, rfl, rfl⟩⟩
  | flowOn c =>
    have ha : x.active = true := hactive.resolve_right nofun
    have ho := (hx.opened ha).goOn
    rw [Channel.goOn_eq] at ho ⊢
    exact .of_open hx.rxRange hx.txRange ha ho
  | flowOff c =>
    have ha : x.active = true := hactive.resolve_right nofun
    have ho := (hx.opened ha).goOff
    rw [Channel.goOff_eq] at ho ⊢
    exact .of_open hx.rxRange hx.txRange ha ho
  | read c hpop => exact hx.took (hactive.resolve_right nofun) hpop
  | readb c hpop => exact hx.took (hactive.resolve_right nofun) hpop
  | write c b => exact hx.send (hactive.resolve_right nofun) b
  | digit c b => exact hx.send (hactive.resolve_right nofun) b

-- The actions of a command

/-- R260: the neutral actions name no channel. -/
theorem neutralActions_channel {i : Instr} {a : Action} (ha : a ∈ neutralActions i) : a.channel? = none := by
  cases i with
  | haschar | isrxempty | isrxfull | istxfull | istxempty | read | readb => cases List.mem_singleton.mp ha; rfl
  | _ => cases ha

/-- A command's own actions name the command's channel. -/
theorem ownActions_channel {i : Instr} {a : Action} (ha : a ∈ ownActions i) : a.channel? = i.channel? := by
  cases i with
  | setflow c on =>
    obtain rfl | ha := List.mem_cons.mp ha
    · rfl
    · cases List.mem_singleton.mp ha; rfl
  | wru16 c v =>
    obtain ⟨d, -, rfl⟩ := List.mem_map.mp ha
    rfl
  | evRxc | evUdre | lineRx | lineTx => cases ha
  | _ => cases List.mem_singleton.mp ha; rfl

/-- INIT's action is of INIT's list only, and CLOSE's of CLOSE's. -/
theorem ownActions_lifecycle {i : Instr} {a : Action} (ha : a ∈ ownActions i) :
    (∀ c baud, i = .init c baud → a = .init c baud) ∧ (∀ c, a = .close c → ownActions i = [.close c]) := by
  cases i with
  | setflow c on =>
    obtain rfl | ha := List.mem_cons.mp ha
    · exact ⟨nofun, nofun⟩
    · cases List.mem_singleton.mp ha; exact ⟨nofun, nofun⟩
  | wru16 c v =>
    obtain ⟨d, -, rfl⟩ := List.mem_map.mp ha
    exact ⟨nofun, nofun⟩
  | evRxc | evUdre | lineRx | lineTx => cases ha
  | init c baud =>
    cases List.mem_singleton.mp ha
    exact ⟨fun _ _ e => by cases e; rfl, nofun⟩
  | close c =>
    cases List.mem_singleton.mp ha
    exact ⟨nofun, fun _ e => by cases e; rfl⟩
  | _ => cases List.mem_singleton.mp ha; exact ⟨nofun, nofun⟩

/-- An action of a plan that names a channel is of the command's own list, and its channel is the command's
and one of the block (R260). -/
theorem plan_channel {cfg : Config} {i : Instr} {a : Action} {c : Nat} (ha : a ∈ plan cfg i)
    (hc : a.channel? = some c) :
    i.channel? = some c ∧ c < cfg.channelCount ∧ a ∈ ownActions i ∧ plan cfg i = ownActions i := by
  by_cases hn : Instr.named cfg i = true
  · have hplan : plan cfg i = ownActions i := if_pos hn
    rw [hplan] at ha
    have hi : i.channel? = some c := (ownActions_channel ha).symm.trans hc
    exact ⟨hi, by simpa [Instr.named, hi] using hn, ha, hplan⟩
  · have hplan : plan cfg i = neutralActions i := if_neg hn
    rw [hplan] at ha
    exact absurd (hc.symm.trans (neutralActions_channel ha)) nofun

/-- What R300 says of the actions left: none, or the end of the list of the command at `pc`, whose channel
is active where it needs be. -/
theorem State.inCommand_iff (s : State) : s.inCommand = true ↔ s.actions = [] ∨
    ∃ w i, s.prog[s.pc]? = some w ∧ decodeProgramWord s.cfg w = .ok i ∧ s.actions <:+ plan s.cfg i ∧
      s.activeFor i = true := by
  unfold State.inCommand
  rw [Bool.or_eq_true, List.isEmpty_iff]
  refine or_congr_right ?_
  cases hw : s.prog[s.pc]? with
  | none => simp
  | some w => cases hi : decodeProgramWord s.cfg w <;> simp [hi]

/-- An instruction other than INIT with a channel of the block needs it active (R261). -/
theorem State.activeFor_channel {s : State} {i : Instr} {c : Nat} (h : s.activeFor i = true)
    (hi : i.channel? = some c) (hc : c < s.cfg.channelCount) :
    (s.chan c).active = true ∨ ∃ baud, i = .init c baud := by
  cases i with
  | init d baud => cases hi; exact .inr ⟨baud, rfl⟩
  | chcount | sei | cli => cases hi
  | _ => cases hi; exact .inl (by simpa [State.activeFor, Instr.channel?, Nat.not_le.mpr hc] using h)

theorem State.activeFor_of_active {s t : State} (hcfg : t.cfg = s.cfg)
    (hactive : ∀ c, (s.chan c).active = true → (t.chan c).active = true) {i : Instr}
    (h : s.activeFor i = true) : t.activeFor i = true := by
  cases i with
  | init | chcount | sei | cli => rfl
  | _ =>
    simp only [State.activeFor, Instr.channel?, Bool.or_eq_true, hcfg] at h ⊢
    exact h.imp_right (hactive _)

-- The invariant of the machine

theorem State.Inv.chan {s : State} (hs : s.Inv) {c : Nat} (hc : c < s.cfg.channelCount) :
    (s.chan c).Inv s.cfg := hs.channels _ (s.chan_mem c (hs.count ▸ hc))

/-- The channel that the current action names is one of the block, and active but for INIT's (R260, R261). -/
theorem State.Inv.head_channel {s : State} (hs : s.Inv) {a : Action} {rest : List Action}
    (ha : s.actions = a :: rest) {c : Nat} (hc : a.channel? = some c) :
    c < s.cfg.channelCount ∧ ((s.chan c).active = true ∨ ∃ baud, a = .init c baud) := by
  obtain hnil | ⟨w, i, -, -, hsuffix, hactive⟩ := s.inCommand_iff.mp hs.command
  · exact absurd (ha.symm.trans hnil) nofun
  · obtain ⟨hi, hlt, hown, -⟩ := plan_channel (hsuffix.mem (ha ▸ List.mem_cons_self)) hc
    obtain ⟨hinit, -⟩ := ownActions_lifecycle hown
    exact ⟨hlt, (State.activeFor_channel hactive hi hlt).imp_right fun ⟨baud, e⟩ => ⟨baud, hinit c baud e⟩⟩

/-- A step's channels have the invariant when each of them is as before or the outcome of an update that
keeps it. -/
theorem State.channels_inv {s t : State} (hlen : t.ch.length = s.ch.length)
    (h : ∀ c, c < s.ch.length → (t.chan c).Inv s.cfg) : ∀ x ∈ t.ch, x.Inv s.cfg := by
  intro x hx
  obtain ⟨c, hc, rfl⟩ := List.mem_iff_getElem.mp hx
  have hchan : t.chan c = t.ch[c] := by simp [State.chan, List.getD, hc]
  exact hchan ▸ h c (hlen ▸ hc)

/-- The invariant does not speak of the schedule or of the draws. -/
theorem State.Inv.of_turn {s : State} (hs : s.Inv) (schedule : List Entry) (draws : Nat) :
    State.Inv { s with schedule := schedule, draws := draws } :=
  ⟨hs.config, hs.count, hs.channels, hs.pcRange, hs.command, hs.running⟩

/-- Every event keeps the invariant. -/
theorem State.Inv.event {s t : State} (hs : s.Inv) {i : Instr} (hi : i.isEvent = true)
    (h : exec i s = .next t) : t.Inv := by
  have hchan := exec_event_chan hi h
  have hactive : ∀ c, (s.chan c).active = true → (t.chan c).active = true := fun c hc => by
    obtain e | ⟨-, hu⟩ := hchan c
    · rwa [e]
    · rw [hu.active.2, hc]
  obtain ⟨c, f, -, -, rfl⟩ := exec_event_next hi h
  have hlen : (s.onChan c f).ch.length = s.ch.length := List.length_set
  refine ⟨hs.config, hlen.trans hs.count, State.channels_inv (s := s) hlen fun d hd => ?_, hs.pcRange, ?_,
    hs.running⟩
  · have hd' := hs.chan (hs.count ▸ hd)
    obtain e | ⟨-, hu⟩ := hchan d
    · rwa [e]
    · exact hu.inv hd'
  · refine (State.inCommand_iff _).mpr (((State.inCommand_iff s).mp hs.command).imp_right ?_)
    rintro ⟨w, j, hw, hj, hsuffix, hfor⟩
    exact ⟨w, j, hw, hj, hsuffix, State.activeFor_of_active (s := s) (t := s.onChan c f) rfl hactive hfor⟩

theorem State.Inv.pc_lt {s : State} (hs : s.Inv) (ha : s.actions ≠ []) : s.pc < s.prog.length := by
  obtain hnil | ⟨w, i, hw, -⟩ := s.inCommand_iff.mp hs.command
  · exact absurd hnil ha
  · exact (List.getElem?_eq_some_iff.mp hw).1

/-- R44: the program counter stays within the program when a command at it completes. -/
theorem State.proceed_pc_le {s : State} (h : s.pc < s.prog.length) (rest : List Action) :
    (s.proceed rest).pc ≤ s.prog.length := by
  obtain e | ⟨e, -⟩ := s.proceed_pc_cases rest <;> rw [e] <;> omega

/-- The fetch of the command at `pc` keeps the invariant. -/
theorem State.Inv.fetch {s : State} (hs : s.Inv) {w : Word} {i : Instr} (hw : s.prog[s.pc]? = some w)
    (hi : decodeProgramWord s.cfg w = .ok i) (hactive : s.activeFor i = true) :
    (s.proceed (plan s.cfg i)).Inv := by
  refine ⟨hs.config, hs.count, hs.channels, State.proceed_pc_le (List.getElem?_eq_some_iff.mp hw).1 _,
    (State.inCommand_iff _).mpr ?_, hs.running⟩
  obtain hpc | ⟨-, hnil⟩ := s.proceed_pc_cases (plan s.cfg i)
  · refine .inr ⟨w, i, by rwa [hpc], hi, List.suffix_refl _, hactive⟩
  · exact .inl hnil

/-- An executed action keeps the invariant. -/
theorem State.Inv.fires {s u : State} (hs : s.Inv) {a : Action} {rest : List Action}
    (ha : s.actions = a :: rest) (hb : a.body s = .ok u) : (u.proceed rest).Inv := by
  obtain ⟨hcfg, hprog, hpc, -, hrefused, -, -, hch⟩ := Action.body_ok hb
  have hlen : u.ch.length = s.ch.length := by
    obtain e | ⟨c, x, -, e⟩ := hch <;> simp [e]
  have hpcLt : s.pc < s.prog.length := hs.pc_lt (by simp [ha])
  refine ⟨hcfg ▸ hs.config, by rw [State.proceed_ch, hlen, State.proceed_cfg, hcfg, hs.count], ?_, ?_, ?_,
    hrefused.trans hs.running⟩
  · rw [State.proceed_cfg, hcfg]
    refine State.channels_inv hlen fun d hd => ?_
    rw [hs.count] at hd
    obtain e | ⟨hd', hu⟩ := Action.body_chan hb d
    · exact e ▸ hs.chan hd
    · obtain ⟨-, hactive⟩ := hs.head_channel ha hd'
      exact hu.inv (hs.chan hd) (hactive.imp_right fun ⟨baud, e⟩ => ⟨d, baud, e⟩)
  · rw [State.proceed_prog]
    exact State.proceed_pc_le (by rwa [hpc, hprog]) rest
  · rw [State.inCommand_iff]
    cases hrest : rest with
    | nil => exact .inl rfl
    | cons b more =>
      obtain hnil | ⟨w, i, hw, hi, hsuffix, hfor⟩ := s.inCommand_iff.mp hs.command
      · exact absurd (ha.symm.trans hnil) nofun
      refine .inr ⟨w, i, ?_, ?_, ?_, ?_⟩
      · simpa [hprog, hpc] using hw
      · simpa [hcfg] using hi
      · rw [ha, hrest] at hsuffix
        simpa [hcfg] using (List.suffix_cons a _).trans hsuffix
      · refine State.activeFor_of_active hcfg (fun c hc => ?_) hfor
        obtain e | ⟨hac, hu⟩ := Action.body_chan hb c
        · exact e ▸ hc
        · obtain ⟨-, e⟩ | ⟨⟨d, rfl⟩, -⟩ | ⟨-, -, e⟩ := hu.active
          · exact e
          · exfalso
            obtain ⟨-, -, hown, hplan⟩ := plan_channel (hsuffix.mem (ha ▸ List.mem_cons_self)) hac
            rw [hplan, (ownActions_lifecycle hown).2 d rfl, ha, hrest] at hsuffix
            exact absurd hsuffix.length_le (by simp)
          · exact e.trans hc

/-- Every step of the foreground keeps the invariant. -/
theorem State.Inv.foreground {s t : State} (hs : s.Inv) (h : foregroundStep s = .next t) : t.Inv := by
  obtain ⟨a, rest, ha, hp⟩ | ⟨-, w, i, hw, hi, rfl, hactive⟩ := foregroundStep_next h
  · obtain ⟨-, u, hb, rfl⟩ | ⟨-, rfl⟩ := State.perform_next hp
    · exact hs.fires ha hb
    · exact hs
  · exact hs.fetch hw hi hactive

-- The turns

/-- R115: a schedule word decodes to an event. -/
theorem decodeScheduleWord_event {cfg : Config} {w : Word} {i : Instr} (h : decodeScheduleWord cfg w = .ok i) :
    i.isEvent = true := by
  obtain ⟨hrow, -⟩ | ⟨r, -, -, hrow, hev, -⟩ | ⟨r, hr, hop, hrow, hev, -⟩ := opRow?_cases (opField w)
  · exact absurd (h.symm.trans ((decodeScheduleWord_illegalOpcode_iff cfg w).mpr hrow)) nofun
  · exact absurd (h.symm.trans (decodeScheduleWord_of_command cfg hrow hev)) nofun
  · obtain ⟨-, hok, -⟩ | ⟨-, herr⟩ := OpRow.operands_cases hr hop
    · rw [decodeScheduleWord_of_ok cfg hrow hev hok] at h
      split at h
      · cases h
        exact (build_isEvent r hr _ _).trans hev
      · cases h
    · exact absurd (h.symm.trans (decodeScheduleWord_of_error cfg hrow hev herr)) nofun

/-- The events among the enabled turns (R290 to R292, R305, R306). -/
theorem State.event_mem_turns_iff (s : State) (b : Byte) (i : Instr) : Turn.event i ∈ s.turns b ↔
    ∃ c, c < s.cfg.channelCount ∧
      ((i = .evRxc c ∧ s.gie = true ∧ (s.chan c).rxReq = true) ∨
       (i = .evUdre c ∧ s.gie = true ∧ (s.chan c).txReq = true) ∨
       (i = .lineRx c b ∧ (s.chan c).lineRxReady = true) ∨
       (i = .lineTx c ∧ (s.chan c).lineTxReady = true)) := by
  have hif : ∀ (p : Prop) [Decidable p] (j : Instr),
      Turn.event i ∈ (if p then [Turn.event j] else []) ↔ i = j ∧ p := fun p _ j => by
    by_cases hp : p <;> simp [hp]
  have hfg : Turn.event i ∉ if s.finished then [] else [Turn.foreground] := by split <;> simp
  rw [State.turns, List.mem_append, or_iff_right hfg, List.mem_flatMap]
  simp only [List.mem_range, State.channelTurns, List.mem_append, hif, Bool.and_eq_true, or_assoc]

theorem State.freeTurn_mem {s : State} {turn : Turn} (h : s.freeTurn = some turn) :
    turn ∈ s.turns (Config.freeByte s.draws) := List.mem_of_getElem? h

/-- The turn of a step is the foreground's or an event. -/
theorem State.nextTurn_event {s u : State} {i : Instr} (h : s.nextTurn = .ok (.event i, u)) :
    i.isEvent = true := by
  unfold State.nextTurn at h
  split at h
  · next e rest _ =>
    cases e with
    | fg => cases h
    | event w =>
      simp only [Entry.turn] at h
      cases hi : decodeScheduleWord s.cfg w with
      | error r => simp [hi] at h
      | ok j =>
        simp only [hi, Except.ok.injEq, Prod.mk.injEq, Turn.event.injEq] at h
        exact h.1 ▸ decodeScheduleWord_event hi
  · split at h
    · next turn hturn =>
      cases h
      obtain ⟨c, -, ⟨rfl, -⟩ | ⟨rfl, -⟩ | ⟨rfl, -⟩ | ⟨rfl, -⟩⟩ :=
        (s.event_mem_turns_iff _ i).mp (State.freeTurn_mem hturn) <;> rfl
    · cases h

/-- Every step of every agent keeps the invariant. -/
theorem State.Inv.step {s t : State} (hs : s.Inv) (h : step s = .next t) : t.Inv := by
  obtain ⟨-, -, turn, u, hn, ht⟩ := step_next h
  obtain ⟨schedule, draws, rfl⟩ := State.nextTurn_ok hn
  cases turn with
  | foreground => exact (hs.of_turn schedule draws).foreground ht
  | event i => exact (hs.of_turn schedule draws).event (State.nextTurn_event hn) ht

theorem State.IsPowerOn.inv {s : State} (hs : s.IsPowerOn) (hv : s.cfg.valid = true) : s.Inv := by
  obtain ⟨hcount, hchannels, -, hpc, hactions, -, hrefused⟩ := hs
  refine ⟨hv, hcount, fun x hx => ?_, by simp [hpc], s.inCommand_iff.mpr (.inl hactions), hrefused⟩
  obtain ⟨hactive, hrxEn, htxEn, hrxIE, htxIE, htxHold, hrxHold, -, -, hrx, htx⟩ := hchannels x hx
  exact ⟨hrx, htx, fun h => absurd (hactive.symm.trans h) nofun,
    fun _ => ⟨⟨hrxEn, htxEn, hrxIE, htxIE⟩, htxHold, hrxHold⟩⟩

/-- Settles O49: the fetch, an executed action and an event each keep the invariant. -/
theorem everyStepKeepsTheInvariant : Obligations.EveryStepKeepsTheInvariant :=
  ⟨fun _ hs hv => hs.inv hv, fun _ _ hs h => hs.step h⟩

end Sys2Proof.Machine
end

section
/-! PROOFS. What each update leaves of the two streams of a channel, and the obligations about the order of
the bytes in `41_transmit.md` R169, `42_receive.md` R207 and `70_reset_and_hazards.md` R337 that follow. -/

namespace Sys2Proof.Machine

-- What an update leaves

section
variable (cfg : Config) (x : Channel)

/-- R200: the receive handler writes the receive ring, empties the register, counts, and leaves the transmit
side but for its engine. -/
theorem Channel.serveRx_frame (b : Byte) :
    (x.serveRx cfg b).rx = (x.rx.push cfg.rxCapacity b).2 ∧ (x.serveRx cfg b).rxHold = none ∧
    (x.serveRx cfg b).rxCount = (x.arrived cfg b).rxCount ∧ (x.serveRx cfg b).tx = x.tx ∧
    (x.serveRx cfg b).txHold = x.txHold ∧ (x.serveRx cfg b).txWire = x.txWire ∧
    (x.serveRx cfg b).rxArrived = x.rxArrived := by
  obtain ⟨-, e⟩ | ⟨-, e⟩ := x.serveRx_arrived cfg b
  · rw [e, Channel.goOff_eq]
    exact ⟨rfl, rfl, rfl, rfl, rfl, rfl, rfl⟩
  · rw [e]
    exact ⟨rfl, rfl, rfl, rfl, rfl, rfl, rfl⟩

/-- R204: a successful pop writes the receive ring, counts, and leaves the data registers and the transmit
side but for its engine. -/
theorem Channel.took_frame (rx : Ring) :
    (x.took cfg rx).rx = rx ∧ (x.took cfg rx).rxHold = x.rxHold ∧
    (x.took cfg rx).rxCount = (x.taken cfg rx).rxCount ∧ (x.took cfg rx).tx = x.tx ∧
    (x.took cfg rx).txHold = x.txHold ∧ (x.took cfg rx).txWire = x.txWire ∧
    (x.took cfg rx).rxArrived = x.rxArrived := by
  obtain ⟨-, e⟩ | ⟨-, e⟩ := x.took_taken cfg rx
  · rw [e, Channel.goOn_eq]
    exact ⟨rfl, rfl, rfl, rfl, rfl, rfl, rfl⟩
  · rw [e]
    exact ⟨rfl, rfl, rfl, rfl, rfl, rfl, rfl⟩

/-- R170: the transmit handler leaves the receive side, the flow state and what is on the wire. -/
theorem Channel.serveTx_frame :
    (x.serveTx cfg).rx = x.rx ∧ (x.serveTx cfg).rxHold = x.rxHold ∧ (x.serveTx cfg).rxCount = x.rxCount ∧
    (x.serveTx cfg).flowOn = x.flowOn ∧ (x.serveTx cfg).rxArrived = x.rxArrived ∧
    (x.serveTx cfg).tx.write = x.tx.write := by
  obtain ⟨k, -, e⟩ | ⟨-, b, tx, hpop, e⟩ | ⟨-, -, e⟩ := x.serveTx_cases cfg
  · rw [e]
    exact ⟨rfl, rfl, rfl, rfl, rfl, rfl⟩
  · rw [e]
    obtain ⟨-, rfl⟩ := Ring.pop_eq_some hpop
    exact ⟨rfl, rfl, rfl, rfl, rfl, rfl⟩
  · rw [e]
    exact ⟨rfl, rfl, rfl, rfl, rfl, rfl⟩

/-- R306: the receive line writes its register and its trace only. -/
theorem Channel.lineRx_frame (b : Byte) : ∃ hold arrived,
    x.lineRx cfg b = { x with rxHold := hold, rxArrived := arrived } := by
  obtain ⟨-, e⟩ | ⟨-, -, e⟩ := x.lineRx_cases cfg b
  · exact ⟨_, _, e⟩
  · exact ⟨_, _, e⟩

end

-- The stream of bytes sent

section
variable {cfg : Config} {x : Channel}

/-- R169, R170: the transmit handler moves the first byte of the stream into the empty register. -/
theorem Channel.serveTx_sent (htx : x.tx.InRange cfg.txCapacity) (hhold : x.txHold = none) :
    (x.serveTx cfg).sent cfg = x.sent cfg := by
  obtain ⟨k, hk, e⟩ | ⟨hk, b, tx, hpop, e⟩ | ⟨-, -, e⟩ := x.serveTx_cases cfg
  · have hnone : Channel.control cfg { x with txHold := some k, pending := none } = none := by
      simp [Channel.control]
    simp [e, Channel.sent, hk, hhold, hnone]
  · have hk' : Channel.control cfg { x with txHold := some b, tx := tx } = none := hk
    simp [e, Channel.sent, hk, hk', hhold, Ring.pop_contents htx hpop]
  · rw [e]
    rfl

/-- R305: the line moves the byte of the register to the wire. -/
theorem Channel.lineTx_sent : x.lineTx.sent cfg = x.sent cfg := by
  simp [Channel.sent, Channel.control, Channel.lineTx]

/-- R162, R163: a byte with room for it goes to the end of the stream. -/
theorem Channel.send_sent (htx : x.tx.InRange cfg.txCapacity) (b : Byte)
    (hfull : x.tx.isFull cfg.txCapacity = false) : (x.send cfg b).sent cfg = x.sent cfg ++ [b] := by
  simp [Channel.sent, Channel.control, Channel.send_eq, Ring.push_contents htx b hfull]

theorem Ring.contents_emptied (C : Nat) (buf : Memory) :
    Ring.contents C { buf := buf, read := 0, write := 0 } = [] := by
  rw [Ring.contents, Ring.occupancy_emptied]
  rfl

theorem Ring.contents_of_empty {C : Nat} {r : Ring} (h : r.InRange C) (he : r.isEmpty = true) :
    r.contents C = [] := by
  obtain ⟨-, hread, hwrite⟩ := h
  rw [Ring.contents, (Ring.isEmpty_iff hread hwrite).mp he]
  rfl

/-- R264: CLOSE finds an Idle engine, which has nothing left to send. -/
theorem Channel.Inv.closed_sends_nothing (hx : x.Inv cfg) (hactive : x.active = true)
    (hidle : x.txIdle = true) :
    (x.closed cfg).txHold = x.txHold ∧ (x.closed cfg).tx.contents cfg.txCapacity = x.tx.contents cfg.txCapacity := by
  obtain ⟨hhold, hempty, -⟩ := (hx.opened hactive).drained hidle
  rw [Channel.closed_eq, Ring.contents_of_empty hx.txRange hempty, Ring.contents_emptied]
  exact ⟨hhold.symm, rfl⟩

end

/-- `y` has on the wire, in the data register and in the transmit buffer what `x` has. -/
def Channel.SameTransmit (cfg : Config) (x y : Channel) : Prop :=
  y.txWire = x.txWire ∧ y.txHold = x.txHold ∧ y.tx.contents cfg.txCapacity = x.tx.contents cfg.txCapacity

theorem EventUpdate.sameTransmit {cfg : Config} {i : Instr} {x y : Channel} (h : EventUpdate cfg i x y)
    (hudre : ∀ c, i ≠ .evUdre c) (hline : ∀ c, i ≠ .lineTx c) : x.SameTransmit cfg y := by
  cases h with
  | evRxc c =>
    obtain ⟨-, -, -, htx, hhold, hwire, -⟩ := x.serveRx_frame cfg _
    exact ⟨hwire, hhold, by rw [htx]⟩
  | evUdre c => exact absurd rfl (hudre c)
  | lineRx c b =>
    obtain ⟨hold, arrived, e⟩ := x.lineRx_frame cfg b
    rw [e]
    exact ⟨rfl, rfl, rfl⟩
  | lineTx c => exact absurd rfl (hline c)

theorem Action.Update.sameTransmit {cfg : Config} {a : Action} {x y : Channel} (h : a.Update cfg x y)
    (hx : x.Inv cfg) (hactive : x.active = true) (hidle : (∃ c, a = .close c) → x.txIdle = true)
    (hwrite : ∀ c b, a ≠ .write c b) (hdigit : ∀ c b, a ≠ .digit c b) : x.SameTransmit cfg y := by
  have htook : ∀ rx, x.SameTransmit cfg (x.took cfg rx) := fun rx => by
    obtain ⟨-, -, -, htx, hhold, hwire, -⟩ := x.took_frame cfg rx
    exact ⟨hwire, hhold, by rw [htx]⟩
  cases h with
  | init c baud hclosed => exact absurd (hactive.symm.trans hclosed) nofun
  | close c => exact ⟨by rw [Channel.closed_eq], hx.closed_sends_nothing hactive (hidle ⟨c, rfl⟩)⟩
  | flowOn => rw [Channel.goOn_eq]; exact ⟨rfl, rfl, rfl⟩
  | flowOff => rw [Channel.goOff_eq]; exact ⟨rfl, rfl, rfl⟩
  | read | readb => exact htook _
  | write c b => exact absurd rfl (hwrite c b)
  | digit c b => exact absurd rfl (hdigit c b)

/-- A WRITE or digit action with room for its byte sends it. -/
theorem exec_send_chan {i : Instr} {s t : State} {c : Nat} {a : Action} {b : Byte} {rest : List Action}
    (hi : i.isEvent = false) (ha : s.actions = a :: rest) (hsend : a = .write c b ∨ a = .digit c b)
    (hc : c < s.ch.length) (hfull : (s.chan c).tx.isFull s.cfg.txCapacity = false) (h : exec i s = .next t) :
    t.chan c = (s.chan c).send s.cfg b := by
  have hguard : a.guard s = true := by
    obtain rfl | rfl := hsend <;> simp [Action.guard, writeGuard, digitGuard, hfull]
  have hbody : a.body s = .ok (s.onChan c (Channel.send s.cfg b)) := by
    obtain rfl | rfl := hsend <;> rfl
  obtain ⟨hnil, -⟩ | ⟨a', rest', ha', -, u, hb, rfl⟩ | ⟨a', rest', ha', hg, -⟩ := exec_command_next hi h
  · exact absurd (ha.symm.trans hnil) nofun
  · cases ha.symm.trans ha'
    cases hbody.symm.trans hb
    exact s.chan_onChan_same c _ hc
  · cases ha.symm.trans ha'
    exact absurd (hguard.symm.trans hg) nofun

/-- Settles O51: the handler and the line move a byte along the stream, a byte with room joins its end, and
CLOSE, the one other step that writes the register or the ring, finds both empty. -/
theorem transmittedBytesKeepTheirOrder : Obligations.TransmittedBytesKeepTheirOrder := by
  intro i s t c hs hc hactive h
  have hlen : c < s.ch.length := hs.count ▸ hc
  have hx := hs.chan hc
  refine ⟨?_, fun b rest hi ha hfull => ?_, fun hudre hline hother => ?_⟩
  · rintro (rfl | rfl)
    · obtain ⟨-, -, hreq, rfl⟩ := execEvUdre_next h
      obtain ⟨-, -, hhold⟩ := (s.chan c).txReq_iff.mp hreq
      rw [s.chan_onChan_same c _ hlen, Channel.serveTx_sent hx.txRange hhold]
    · obtain ⟨-, -, rfl⟩ := execLineTx_next h
      rw [s.chan_onChan_same c _ hlen, Channel.lineTx_sent]
  · have hchan : t.chan c = (s.chan c).send s.cfg b := by
      obtain ha | ha := ha
      · exact exec_send_chan hi ha (.inl rfl) hlen hfull h
      · exact exec_send_chan hi ha (.inr rfl) hlen hfull h
    rw [hchan, Channel.send_sent hx.txRange b hfull]
  · show (s.chan c).SameTransmit s.cfg (t.chan c)
    obtain e | ⟨-, hic, hu⟩ | ⟨hi, a, rest, ha, hg, hac, hu⟩ := exec_chan h c
    · rw [e]
      exact ⟨rfl, rfl, rfl⟩
    · refine hu.sameTransmit (fun d e => ?_) (fun d e => ?_)
      · cases e; cases hic; exact hudre rfl
      · cases e; cases hic; exact hline rfl
    · have hother := hother.resolve_left (by simp [hi])
      refine hu.sameTransmit hx hactive ?_ (fun d b e => ?_) (fun d b e => ?_)
      · rintro ⟨d, rfl⟩
        cases hac
        exact hg
      · cases e; cases hac; exact (hother b rest).1 ha
      · cases e; cases hac; exact (hother b rest).2 ha

-- The stream of bytes received

/-- R200, R201: the receive handler moves the register's byte to the end of the buffer, or drops it. -/
theorem Channel.serveRx_unread {cfg : Config} {x : Channel} (hrx : x.rx.InRange cfg.rxCapacity) {b : Byte}
    (hhold : x.rxHold = some b) : (x.serveRx cfg b).unread cfg =
      if x.rx.isFull cfg.rxCapacity then x.rx.contents cfg.rxCapacity else x.unread cfg := by
  obtain ⟨hrx', hhold', -⟩ := x.serveRx_frame cfg b
  rw [Channel.unread, Channel.unread, hrx', hhold', hhold]
  cases hfull : x.rx.isFull cfg.rxCapacity with
  | true => simp [Ring.push_of_full b hfull]
  | false => simp [Ring.push_contents hrx b hfull]

/-- R204: a pop takes the first byte of the stream. -/
theorem Channel.took_unread {cfg : Config} {x : Channel} (hrx : x.rx.InRange cfg.rxCapacity) {b : Byte}
    {rx : Ring} (hpop : x.rx.pop cfg.rxCapacity = some (b, rx)) :
    x.unread cfg = b :: (x.took cfg rx).unread cfg := by
  obtain ⟨hrx', hhold', -⟩ := x.took_frame cfg rx
  rw [Channel.unread, Channel.unread, hrx', hhold', Ring.pop_contents hrx hpop, List.cons_append]

/-- `y` has in the receive buffer, in the data register and in the trace what `x` has. -/
def Channel.SameReceive (x y : Channel) : Prop :=
  y.rx = x.rx ∧ y.rxHold = x.rxHold ∧ y.rxArrived = x.rxArrived

theorem EventUpdate.sameReceive {cfg : Config} {i : Instr} {x y : Channel} (h : EventUpdate cfg i x y)
    (hrxc : ∀ c, i ≠ .evRxc c) (hline : ∀ c b, i ≠ .lineRx c b) : x.SameReceive y := by
  cases h with
  | evRxc c => exact absurd rfl (hrxc c)
  | evUdre c =>
    obtain ⟨hrx, hhold, -, -, htrace, -⟩ := x.serveTx_frame cfg
    exact ⟨hrx, hhold, htrace⟩
  | lineRx c b => exact absurd rfl (hline c b)
  | lineTx c => exact ⟨rfl, rfl, rfl⟩

theorem Action.Update.sameReceive {cfg : Config} {a : Action} {x y : Channel} (h : a.Update cfg x y)
    (hactive : x.active = true) (hactive' : y.active = true) (hread : ∀ c, a ≠ .read c)
    (hreadb : ∀ c, a ≠ .readb c) : x.SameReceive y := by
  cases h with
  | init c baud hclosed => exact absurd (hactive.symm.trans hclosed) nofun
  | close c =>
    rw [Channel.closed_eq] at hactive'
    exact absurd hactive' nofun
  | flowOn => rw [Channel.goOn_eq]; exact ⟨rfl, rfl, rfl⟩
  | flowOff => rw [Channel.goOff_eq]; exact ⟨rfl, rfl, rfl⟩
  | read c => exact absurd rfl (hread c)
  | readb c => exact absurd rfl (hreadb c)
  | write | digit => rw [Channel.send_eq]; exact ⟨rfl, rfl, rfl⟩

/-- A READ or READB action pops a byte from a buffer that holds one, and emits it. -/
theorem exec_take_pops {i : Instr} {s t : State} {c : Nat} {a : Action} {rest : List Action}
    (hi : i.isEvent = false) (ha : s.actions = a :: rest) (htake : a = .read c ∨ a = .readb c)
    (hc : c < s.ch.length) (hempty : (s.chan c).rx.isEmpty = false) (h : exec i s = .next t) :
    ∃ b rx, (s.chan c).rx.pop s.cfg.rxCapacity = some (b, rx) ∧ t.chan c = (s.chan c).took s.cfg rx ∧
      t.results = s.results ++ [.byte b] := by
  have hguard : a.guard s = true := by
    obtain rfl | rfl := htake <;> simp [Action.guard, readbGuard, hempty]
  have hbody : a.body s = .ok (takeByte c s) := by
    obtain rfl | rfl := htake <;> rfl
  obtain ⟨hnil, -⟩ | ⟨a', rest', ha', -, u, hb, rfl⟩ | ⟨a', rest', ha', hg, -⟩ := exec_command_next hi h
  · exact absurd (ha.symm.trans hnil) nofun
  · cases ha.symm.trans ha'
    cases hbody.symm.trans hb
    obtain ⟨he, -⟩ | ⟨-, hpop⟩ := (s.chan c).rx.pop_cases s.cfg.rxCapacity
    · exact absurd (hempty.symm.trans he) nofun
    · refine ⟨_, _, hpop, ?_, ?_⟩
      · simp only [State.chan_proceed, takeByte, hpop, State.chan_emit]
        exact s.chan_onChan_same c _ hc
      · simp [takeByte, hpop]
  · cases ha.symm.trans ha'
    exact absurd (hguard.symm.trans hg) nofun

/-- R306: what the line does to the stream and to the trace. -/
theorem Channel.lineRx_unread (cfg : Config) (b : Byte) (x : Channel) :
    (x.lineRx cfg b).rxArrived = x.rxArrived ++ [b] ∧
    (x.rxHold = none → (x.lineRx cfg b).unread cfg = x.unread cfg ++ [b]) ∧
    (x.rxHold ≠ none → cfg.rxOverrunPolicy = .dropNew → (x.lineRx cfg b).unread cfg = x.unread cfg) ∧
    (x.rxHold ≠ none → cfg.rxOverrunPolicy = .overwrite →
      (x.lineRx cfg b).unread cfg = x.rx.contents cfg.rxCapacity ++ [b]) := by
  obtain ⟨htakes, e⟩ | ⟨hold, hdrop, e⟩ := x.lineRx_cases cfg b <;> rw [e]
  · refine ⟨rfl, fun hnone => ?_, fun hold hdrop => ?_, fun _ _ => rfl⟩
    · simp [Channel.unread, hnone]
    · exact absurd (hdrop.symm.trans (htakes.resolve_left hold)) nofun
  · exact ⟨rfl, fun hnone => absurd hnone hold, fun _ _ => rfl,
      fun _ hover => absurd (hdrop.symm.trans hover) nofun⟩

/-- Settles O52: the handler moves a byte along the stream, the line adds one, a pop takes the first, and no
other update of a channel that stays active writes the receive side. -/
theorem receivedBytesKeepTheirOrder : Obligations.ReceivedBytesKeepTheirOrder := by
  intro i s t c hs hc hactive hactive' h
  have hlen : c < s.ch.length := hs.count ▸ hc
  have hx := hs.chan hc
  refine ⟨?_, ?_, fun rest hi ha hempty => ?_, fun hrxc hline hother => ?_⟩
  · rintro rfl
    obtain ⟨-, -, -, b, hhold, rfl⟩ := execEvRxc_next h
    rw [s.chan_onChan_same c _ hlen, Channel.serveRx_unread hx.rxRange hhold]
  · rintro b rfl
    obtain ⟨-, -, rfl⟩ := execLineRx_next h
    rw [s.chan_onChan_same c _ hlen]
    exact (s.chan c).lineRx_unread s.cfg b
  · have hpops : ∃ b rx, (s.chan c).rx.pop s.cfg.rxCapacity = some (b, rx) ∧
        t.chan c = (s.chan c).took s.cfg rx ∧ t.results = s.results ++ [.byte b] := by
      obtain ha | ha := ha
      · exact exec_take_pops hi ha (.inl rfl) hlen hempty h
      · exact exec_take_pops hi ha (.inr rfl) hlen hempty h
    obtain ⟨b, rx, hpop, hchan, hres⟩ := hpops
    exact ⟨b, hchan ▸ Channel.took_unread hx.rxRange hpop, hres⟩
  · have hsame : (s.chan c).SameReceive (t.chan c) := by
      obtain e | ⟨-, hic, hu⟩ | ⟨hi, a, rest, ha, -, hac, hu⟩ := exec_chan h c
      · rw [e]
        exact ⟨rfl, rfl, rfl⟩
      · refine hu.sameReceive (fun d e => ?_) (fun d b e => ?_)
        · cases e; cases hic; exact hrxc rfl
        · cases e; cases hic; exact hline b rfl
      · have hother := hother.resolve_left (by simp [hi])
        refine hu.sameReceive hactive hactive' (fun d e => ?_) (fun d e => ?_)
        · cases e; cases hac; exact (hother rest).1 ha
        · cases e; cases hac; exact (hother rest).2 ha
    obtain ⟨hrx, hhold, htrace⟩ := hsame
    exact ⟨by rw [Channel.unread, Channel.unread, hrx, hhold], htrace⟩

-- The receive buffer

/-- All an event can do to the receive ring: leave it, or try to push a byte. -/
theorem EventUpdate.rx_cases {cfg : Config} {i : Instr} {x y : Channel} (h : EventUpdate cfg i x y) :
    y.rx = x.rx ∨ ∃ b, y.rx = (x.rx.push cfg.rxCapacity b).2 := by
  cases h with
  | evRxc c => exact .inr ⟨_, (x.serveRx_frame cfg _).1⟩
  | evUdre c => exact .inl (x.serveTx_frame cfg).1
  | lineRx c b =>
    obtain ⟨hold, arrived, e⟩ := x.lineRx_frame cfg b
    exact .inl (by rw [e])
  | lineTx c => exact .inl rfl

/-- A push attempt leaves the oldest byte of a ring that holds one. -/
theorem Ring.push_keeps_oldest {C : Nat} {r : Ring} (h : r.InRange C) (b : Byte) (hne : r.isEmpty = false) :
    (r.push C b).2.isEmpty = false ∧ ((r.push C b).2.contents C).head? = (r.contents C).head? := by
  cases hfull : r.isFull C with
  | true => simp [Ring.push_of_full b hfull, hne]
  | false =>
    have hocc := Ring.push_occupancy h b hfull
    obtain ⟨-, hread', hwrite'⟩ := Ring.push_inRange b h
    have hlen : 0 < (r.contents C).length := by
      obtain ⟨-, hread, hwrite⟩ := h
      rw [Ring.length_contents hread, Nat.pos_iff_ne_zero]
      exact fun h0 => absurd ((Ring.isEmpty_iff hread hwrite).mpr h0) (by simp [hne])
    refine ⟨?_, ?_⟩
    · rw [← Bool.not_eq_true, Ring.isEmpty_iff hread' hwrite', hocc]
      exact Nat.succ_ne_zero _
    · rw [Ring.push_contents h b hfull, List.head?_append_of_ne_nil _ (List.ne_nil_of_length_pos hlen)]

/-- Settles O54: of the events only the receive handler writes the receive ring, and it only pushes. -/
theorem onlyTheForegroundEmptiesTheReceiveBuffer : Obligations.OnlyTheForegroundEmptiesTheReceiveBuffer := by
  intro i s t c hs hc hi h hne
  have hring : (t.chan c).rx = (s.chan c).rx ∨
      ∃ b, (t.chan c).rx = ((s.chan c).rx.push s.cfg.rxCapacity b).2 := by
    obtain e | ⟨-, hu⟩ := exec_event_chan hi h c
    · exact .inl (by rw [e])
    · exact hu.rx_cases
  obtain e | ⟨b, e⟩ := hring
  · rw [e]
    exact ⟨hne, rfl⟩
  · rw [e]
    exact Ring.push_keeps_oldest (hs.chan hc).rxRange b hne

/-- Settles O55: R48 item 2 with the length of a ring's contents. -/
theorem countStaysBelowTheCapacity : Obligations.CountStaysBelowTheCapacity := by
  intro s c hs hc hf hactive
  obtain ⟨⟨-, hread, -⟩, -, hopen, -⟩ := hs.chan hc
  rw [Ring.length_contents hread, (hopen hactive).count hf]
  exact ⟨Nat.le_sub_one_of_lt (Ring.occupancy_lt hread), rfl⟩

end Sys2Proof.Machine
end

section
/-! PROOFS. Which updates write the flow state, the requests and the shared fields, and the obligations of
`43_flow_control.md` R241, `60_exceptions.md` R294 and `20_memory.md` R87 that follow. -/

namespace Sys2Proof.Machine

-- Hysteresis

/-- R241: between `x` and `y` flow and count stay in the band between the marks, and flow turns only at a
mark. -/
def Channel.BandStep (cfg : Config) (x y : Channel) : Prop :=
  (y.flowOn = true → y.rxCount < cfg.high) ∧ (y.flowOn = false → cfg.low < y.rxCount) ∧
  (x.flowOn = true → (y.flowOn = false ↔ y.rxCount = cfg.high)) ∧
  (x.flowOn = false → (y.flowOn = true ↔ y.rxCount = cfg.low))

section
variable {cfg : Config} {x : Channel} (hon : x.flowOn = true → x.rxCount < cfg.high)
  (hoff : x.flowOn = false → cfg.low < x.rxCount)
include hon hoff

theorem Channel.bandStep_same {y : Channel} (hflow : y.flowOn = x.flowOn) (hcount : y.rxCount = x.rxCount) :
    x.BandStep cfg y := by
  rw [Channel.BandStep, hflow, hcount]
  cases hx : x.flowOn with
  | true => simpa [hx] using ⟨hon hx, (hon hx).ne⟩
  | false => simpa [hx] using ⟨hoff hx, (hoff hx).ne'⟩

/-- R233, R241: the count grows by at most one, so it meets the high mark where it passes it. -/
theorem Channel.serveRx_bandStep (hf : cfg.flowControl = true) (hmarks : cfg.low + 1 < cfg.high) (b : Byte) :
    x.BandStep cfg (x.serveRx cfg b) := by
  have hcount : (x.arrived cfg b).rxCount = x.rxCount ∨ (x.arrived cfg b).rxCount = x.rxCount + 1 := by
    cases hfull : x.rx.isFull cfg.rxCapacity <;> simp [Channel.arrived, hf, hfull]
  obtain ⟨⟨-, hflow, hhigh⟩, e⟩ | ⟨htest, e⟩ := x.serveRx_arrived cfg b
  · have := hon hflow
    rw [e, Channel.goOff_eq]
    refine ⟨nofun, fun _ => ?_, fun _ => ⟨fun _ => ?_, fun _ => rfl⟩, fun h => absurd (hflow.symm.trans h) nofun⟩
    · dsimp only
      omega
    · dsimp only
      omega
  · have hflow : (x.arrived cfg b).flowOn = x.flowOn := rfl
    rw [e, Channel.BandStep, hflow]
    cases hx : x.flowOn with
    | true =>
      have hlt : (x.arrived cfg b).rxCount < cfg.high := Nat.not_le.mp fun h => htest ⟨hf, hx, h⟩
      simpa using ⟨hlt, hlt.ne⟩
    | false =>
      have hlt : cfg.low < (x.arrived cfg b).rxCount := by
        have := hoff hx
        omega
      simpa using ⟨hlt, hlt.ne'⟩

/-- R235, R241: the count falls by one, so it meets the low mark where it passes it. -/
theorem Channel.took_bandStep (hf : cfg.flowControl = true) (hmarks : cfg.low + 1 < cfg.high) (rx : Ring) :
    x.BandStep cfg (x.took cfg rx) := by
  have hcount : (x.taken cfg rx).rxCount = x.rxCount - 1 := by simp [Channel.taken, hf]
  obtain ⟨⟨-, hflow, hlow⟩, e⟩ | ⟨htest, e⟩ := x.took_taken cfg rx
  · have := hoff hflow
    rw [e, Channel.goOn_eq]
    refine ⟨fun _ => ?_, nofun, fun h => absurd (hflow.symm.trans h) nofun, fun _ => ⟨fun _ => ?_, fun _ => rfl⟩⟩
    · dsimp only
      omega
    · dsimp only
      omega
  · have hflow : (x.taken cfg rx).flowOn = x.flowOn := rfl
    rw [e, Channel.BandStep, hflow]
    cases hx : x.flowOn with
    | true =>
      have hlt : (x.taken cfg rx).rxCount < cfg.high := by
        have := hon hx
        omega
      simpa using ⟨hlt, hlt.ne⟩
    | false =>
      have hlt : cfg.low < (x.taken cfg rx).rxCount := Nat.not_le.mp fun h => htest ⟨hf, hx, h⟩
      simpa using ⟨hlt, hlt.ne'⟩

theorem EventUpdate.bandStep {i : Instr} {y : Channel} (h : EventUpdate cfg i x y) (hf : cfg.flowControl = true)
    (hmarks : cfg.low + 1 < cfg.high) : x.BandStep cfg y := by
  cases h with
  | evRxc c => exact Channel.serveRx_bandStep hon hoff hf hmarks _
  | evUdre c =>
    obtain ⟨-, -, hcount, hflow, -⟩ := x.serveTx_frame cfg
    exact Channel.bandStep_same hon hoff hflow hcount
  | lineRx c b =>
    obtain ⟨hold, arrived, e⟩ := x.lineRx_frame cfg b
    exact e ▸ Channel.bandStep_same hon hoff rfl rfl
  | lineTx c => exact Channel.bandStep_same hon hoff rfl rfl

theorem Action.Update.bandStep {a : Action} {y : Channel} (h : a.Update cfg x y) (hf : cfg.flowControl = true)
    (hmarks : cfg.low + 1 < cfg.high) (hactive : x.active = true) (hactive' : y.active = true)
    (hqueue : ∀ c on, a ≠ .flowQueue c on) : x.BandStep cfg y := by
  cases h with
  | init c baud hclosed => exact absurd (hactive.symm.trans hclosed) nofun
  | close c =>
    rw [Channel.closed_eq] at hactive'
    exact absurd hactive' nofun
  | flowOn c => exact absurd rfl (hqueue c true)
  | flowOff c => exact absurd rfl (hqueue c false)
  | read | readb => exact Channel.took_bandStep hon hoff hf hmarks _
  | write | digit =>
    rw [Channel.send_eq]
    exact Channel.bandStep_same hon hoff rfl rfl

end

/-- Settles O28: of the updates of a channel that stays active, only the receive handler, a pop and SETFLOW's
queuing write flow or count. -/
theorem flowControlHysteresis : Obligations.FlowControlHysteresis := by
  intro i s t c _ _ hf hmarks hactive hactive' hqueue hon hoff h
  show (s.chan c).BandStep s.cfg (t.chan c)
  obtain e | ⟨-, -, hu⟩ | ⟨-, a, rest, ha, -, hac, hu⟩ := exec_chan h c
  · exact Channel.bandStep_same hon hoff (by rw [e]) (by rw [e])
  · exact hu.bandStep hon hoff hf hmarks
  · refine hu.bandStep hon hoff hf hmarks hactive hactive' fun d on e => ?_
    cases e
    cases hac
    exact hqueue on rest ha

-- The requests

/-- The transmit engine of `y` is that of `x`, or that of `x` after a kick (R166). -/
def Channel.EngineStep (x y : Channel) : Prop :=
  y.active = x.active ∧ y.txHold = x.txHold ∧
  ((y.txIdle = x.txIdle ∧ y.txIE = x.txIE) ∨ (y.txIdle = false ∧ y.txIE = (x.txIE || x.txIdle)))

/-- The receive register of `y` is empty, or it and its enables are those of `x`. -/
def Channel.RegisterStep (x y : Channel) : Prop :=
  y.rxHold = none ∨ (y.rxHold = x.rxHold ∧ y.rxIE = x.rxIE ∧ y.active = x.active)

theorem Channel.serveRx_engineStep (cfg : Config) (b : Byte) (x : Channel) :
    x.EngineStep (x.serveRx cfg b) := by
  obtain ⟨-, e⟩ | ⟨-, e⟩ := x.serveRx_arrived cfg b
  · rw [e, Channel.goOff_eq]
    exact ⟨rfl, rfl, .inr ⟨rfl, rfl⟩⟩
  · rw [e]
    exact ⟨rfl, rfl, .inl ⟨rfl, rfl⟩⟩

theorem Channel.took_engineStep (cfg : Config) (rx : Ring) (x : Channel) :
    x.EngineStep (x.took cfg rx) ∧ x.RegisterStep (x.took cfg rx) := by
  obtain ⟨-, e⟩ | ⟨-, e⟩ := x.took_taken cfg rx
  · rw [e, Channel.goOn_eq]
    exact ⟨⟨rfl, rfl, .inr ⟨rfl, rfl⟩⟩, .inr ⟨rfl, rfl, rfl⟩⟩
  · rw [e]
    exact ⟨⟨rfl, rfl, .inl ⟨rfl, rfl⟩⟩, .inr ⟨rfl, rfl, rfl⟩⟩

/-- R170, R294: the transmit handler clears its request, and leaves the receive register. -/
theorem Channel.serveTx_clears (cfg : Config) (x : Channel) :
    (x.serveTx cfg).txReq = false ∧ x.RegisterStep (x.serveTx cfg) := by
  obtain ⟨k, -, e⟩ | ⟨-, b, tx, -, e⟩ | ⟨-, -, e⟩ := x.serveTx_cases cfg <;> rw [e] <;>
    exact ⟨by simp [Channel.txReq, Channel.dre], .inr ⟨rfl, rfl, rfl⟩⟩

/-- R294: an event but the receive line's raises no receive request. -/
theorem EventUpdate.registerStep {cfg : Config} {i : Instr} {x y : Channel} (h : EventUpdate cfg i x y)
    (hline : ∀ c b, i ≠ .lineRx c b) : x.RegisterStep y := by
  cases h with
  | evRxc c =>
    obtain ⟨-, hhold, -⟩ := x.serveRx_frame cfg _
    exact .inl hhold
  | evUdre c => exact (x.serveTx_clears cfg).2
  | lineRx c b => exact absurd rfl (hline c b)
  | lineTx c => exact .inr ⟨rfl, rfl, rfl⟩

/-- R294: no action raises a receive request. -/
theorem Action.Update.registerStep {cfg : Config} {a : Action} {x y : Channel} (h : a.Update cfg x y) :
    x.RegisterStep y := by
  cases h with
  | init => exact .inl (by rw [Channel.opened_eq])
  | close => exact .inl (by rw [Channel.closed_eq])
  | flowOn => rw [Channel.goOn_eq]; exact .inr ⟨rfl, rfl, rfl⟩
  | flowOff => rw [Channel.goOff_eq]; exact .inr ⟨rfl, rfl, rfl⟩
  | read | readb => exact (x.took_engineStep cfg _).2
  | write | digit => rw [Channel.send_eq]; exact .inr ⟨rfl, rfl, rfl⟩

/-- R294: an event but the transmit line's clears the transmit request, or leaves or kicks the engine. -/
theorem EventUpdate.engineStep {cfg : Config} {i : Instr} {x y : Channel} (h : EventUpdate cfg i x y)
    (hline : ∀ c, i ≠ .lineTx c) : y.txReq = false ∨ x.EngineStep y := by
  cases h with
  | evRxc c => exact .inr (x.serveRx_engineStep cfg _)
  | evUdre c => exact .inl (x.serveTx_clears cfg).1
  | lineRx c b =>
    obtain ⟨hold, arrived, e⟩ := x.lineRx_frame cfg b
    rw [e]
    exact .inr ⟨rfl, rfl, .inl ⟨rfl, rfl⟩⟩
  | lineTx c => exact absurd rfl (hline c)

/-- R294: an action clears the transmit request, or leaves or kicks the engine. -/
theorem Action.Update.engineStep {cfg : Config} {a : Action} {x y : Channel} (h : a.Update cfg x y) :
    y.txReq = false ∨ x.EngineStep y := by
  cases h with
  | init => exact .inl (by simp [Channel.opened_eq, Channel.txReq])
  | close => exact .inl (by simp [Channel.closed_eq, Channel.txReq])
  | flowOn => rw [Channel.goOn_eq]; exact .inr ⟨rfl, rfl, .inr ⟨rfl, rfl⟩⟩
  | flowOff => rw [Channel.goOff_eq]; exact .inr ⟨rfl, rfl, .inr ⟨rfl, rfl⟩⟩
  | read | readb => exact .inr (x.took_engineStep cfg _).1
  | write | digit => rw [Channel.send_eq]; exact .inr ⟨rfl, rfl, .inr ⟨rfl, rfl⟩⟩

theorem Channel.RegisterStep.rxReq {x y : Channel} (h : x.RegisterStep y) (hx : x.rxReq = false) :
    y.rxReq = false := by
  obtain e | ⟨hhold, hie, hactive⟩ := h
  · simp [Channel.rxReq, Channel.rxc, e]
  · rwa [Channel.rxReq, Channel.rxc, hhold, hie, hactive]

/-- R166, R294: while the engine is left or kicked, the transmit request rises by a kick that sets `txIE`. -/
theorem Channel.EngineStep.txReq {x y : Channel} (h : x.EngineStep y) (hx : x.txReq = false)
    (hy : y.txReq = true) : x.txIE = false ∧ y.txIE = true ∧ x.txIdle = true ∧ y.txIdle = false := by
  obtain ⟨hactive, hhold, hengine⟩ := h
  obtain ⟨hactive', hie', hhold'⟩ := y.txReq_iff.mp hy
  have hie : x.txIE = false := by
    rw [Channel.txReq_of_empty (hactive ▸ hactive') (hhold ▸ hhold')] at hx
    exact hx
  obtain ⟨-, e⟩ | ⟨hidle, e⟩ := hengine
  · exact absurd (hie'.symm.trans (e.trans hie)) nofun
  · exact ⟨hie, hie', by simpa [hie, hie'] using e.symm, hidle⟩

/-- Settles O38: of the updates that do not clear a request, only the lines' and the kick raise one. -/
theorem handlersClearTheirRequest : Obligations.HandlersClearTheirRequest := by
  intro i s t c hlen h
  refine ⟨?_, ?_, fun hx hy => ?_, fun hx hy => ?_⟩
  · rintro rfl
    obtain ⟨hc, -, -, b, -, rfl⟩ := execEvRxc_next h
    obtain ⟨-, hhold, -⟩ := (s.chan c).serveRx_frame s.cfg b
    rw [s.chan_onChan_same c _ (hlen ▸ hc)]
    simp [Channel.rxReq, Channel.rxc, hhold]
  · rintro rfl
    obtain ⟨hc, -, -, rfl⟩ := execEvUdre_next h
    rw [s.chan_onChan_same c _ (hlen ▸ hc)]
    exact ((s.chan c).serveTx_clears s.cfg).1
  · by_contra hline
    have hstep : (s.chan c).RegisterStep (t.chan c) := by
      obtain e | ⟨-, hic, hu⟩ | ⟨-, a, rest, -, -, -, hu⟩ := exec_chan h c
      · exact .inr (by rw [e]; exact ⟨rfl, rfl, rfl⟩)
      · refine hu.registerStep fun d b e => ?_
        cases e; cases hic; exact hline ⟨b, rfl⟩
      · exact hu.registerStep
    exact absurd (hy.symm.trans (hstep.rxReq hx)) nofun
  · by_cases hline : i = .lineTx c
    · exact .inl hline
    · have hstep : (t.chan c).txReq = false ∨ (s.chan c).EngineStep (t.chan c) := by
        obtain e | ⟨-, hic, hu⟩ | ⟨-, a, rest, -, -, -, hu⟩ := exec_chan h c
        · exact .inl (by rw [e]; exact hx)
        · refine hu.engineStep fun d e => ?_
          cases e; cases hic; exact hline rfl
        · exact hu.engineStep
      exact .inr ((hstep.resolve_left (by simp [hy])).txReq hx hy)

-- The writers of the shared fields

theorem State.acts_of {s : State} {i : Instr} {a : Action} {rest : List Action} {p : Action → Bool}
    (hi : i.isEvent = false) (ha : s.actions = a :: rest) (hp : p a = true) : s.acts i p :=
  ⟨hi, a, rest, ha, hp⟩

/-- Settles O53: each update leaves the fields that the table does not give it. -/
theorem sharedFieldsHaveTheirWriters : Obligations.SharedFieldsHaveTheirWriters := by
  rintro i s t c x y rfl hy h
  have hchan := hy ▸ exec_chan h c
  obtain rfl | ⟨-, hic, hu⟩ | ⟨hi, a, rest, ha, -, hac, hu⟩ := hchan
  · simp
  · cases hu with
    | evRxc d => cases hic; simp [(s.chan c).serveRx_frame s.cfg]
    | evUdre d => cases hic; simp [(s.chan c).serveTx_frame s.cfg]
    | lineRx d b =>
      obtain ⟨hold, arrived, e⟩ := (s.chan c).lineRx_frame s.cfg b
      simp [e]
    | lineTx d => simp [Channel.lineTx]
  · have hacts := fun p => State.acts_of (p := p) hi ha
    cases hu with
    | init d baud =>
      cases hac
      simp [Channel.opened_eq, hacts (Action.isLifecycle c) (beq_self_eq_true c)]
    | close d =>
      cases hac
      simp [Channel.closed_eq, hacts (Action.isLifecycle c) (beq_self_eq_true c)]
    | flowOn d | flowOff d =>
      cases hac
      simp [Channel.goOn_eq, Channel.goOff_eq, hacts (Action.isFlowQueue c) (beq_self_eq_true c)]
    | read d hpop | readb d hpop =>
      cases hac
      obtain ⟨-, rfl⟩ := Ring.pop_eq_some hpop
      simp [(s.chan c).took_frame s.cfg, hacts (Action.isTake c) (beq_self_eq_true c)]
    | write d b | digit d b =>
      cases hac
      simp [Channel.send_eq, hacts (Action.isSend c) (beq_self_eq_true c)]

end Sys2Proof.Machine
end

section
/-! PROOFS. Replacing a channel that an instruction does not name commutes with the instruction, and the
obligation of `44_channel_mux.md` R263 that follows. -/

namespace Sys2Proof.Machine

section
variable (s : State) {c d : Nat} (x : Channel)

theorem State.onChan_setChan (h : c ≠ d) (f : Channel → Channel) :
    (s.setChan d x).onChan c f = (s.onChan c f).setChan d x := by
  rw [State.onChan, s.chan_setChan_other d c x h]
  simp [State.onChan, State.setChan, List.set_comm _ _ h.symm]

theorem takeByte_setChan (h : c ≠ d) : takeByte c (s.setChan d x) = (takeByte c s).setChan d x := by
  unfold takeByte
  rw [s.chan_setChan_other d c x h, State.setChan_cfg]
  split
  · rfl
  · rw [s.onChan_setChan x h]
    rfl

/-- A guard reads the channel its action names only. -/
theorem Action.guard_setChan {a : Action} (h : a.channel? ≠ some d) :
    a.guard (s.setChan d x) = a.guard s := by
  cases a with
  | close c | flowQueue c _ | flowServed c | readb c | write c _ | digit c _ =>
    simp [Action.guard, closeGuard, flowQueueGuard, flowServedGuard, readbGuard, writeGuard, digitGuard,
      s.chan_setChan_other d c x (fun e => h (congrArg some e))]
  | _ => rfl

/-- A body reads and writes the channel its action names only. -/
theorem Action.body_setChan {a : Action} (h : a.channel? ≠ some d) :
    a.body (s.setChan d x) = (a.body s).map (fun t => t.setChan d x) := by
  cases a with
  | init c baud =>
    have hc : c ≠ d := fun e => h (congrArg some e)
    simp only [Action.body, initBody, s.chan_setChan_other d c x hc]
    split
    · rfl
    · exact congrArg _ (s.onChan_setChan x hc _)
  | close c | flowQueue c _ | write c _ | digit c _ =>
    exact congrArg _ (s.onChan_setChan x (fun e => h (congrArg some e)) _)
  | read c | readb c => exact congrArg _ (takeByte_setChan s x (fun e => h (congrArg some e)))
  | haschar c | isrxempty c | isrxfull c | istxfull c | istxempty c =>
    simp only [Action.body, hascharBody, isrxemptyBody, isrxfullBody, istxfullBody, istxemptyBody,
      s.chan_setChan_other d c x (fun e => h (congrArg some e))]
    rfl
  | _ => rfl

theorem State.perform_setChan {a : Action} (rest : List Action) (h : a.channel? ≠ some d) :
    (s.setChan d x).perform a rest = mapNext (fun t => t.setChan d x) (s.perform a rest) := by
  unfold State.perform
  rw [Action.guard_setChan s x h, Action.body_setChan s x h]
  split
  · cases a.body s <;> rfl
  · rfl

theorem State.command_setChan (plan : Except Refusal (List Action)) (h : ∀ a ∈ s.actions, a.channel? ≠ some d) :
    (s.setChan d x).command plan = mapNext (fun t => t.setChan d x) (s.command plan) := by
  cases ha : s.actions with
  | nil =>
    have ha' : (s.setChan d x).actions = [] := ha
    cases plan with
    | ok own =>
      rw [State.command_fetch ha, State.command_fetch ha']
      rfl
    | error r =>
      rw [State.command_refuse ha, State.command_refuse ha']
      rfl
  | cons a rest =>
    have ha' : (s.setChan d x).actions = a :: rest := ha
    rw [State.command_inside plan ha, State.command_inside plan ha']
    exact s.perform_setChan x rest (h a (ha ▸ List.mem_cons_self))

theorem State.prologue_setChan (neutral own : List Action) (h : c ≠ d) :
    (s.setChan d x).prologue c neutral own = s.prologue c neutral own := by
  simp only [State.prologue, State.setChan_cfg, s.chan_setChan_other d c x h]

theorem State.event_setChan (w : Word) (enabled : Bool) {run run' : State → Result}
    (h : run' (s.setChan d x) = mapNext (fun t => t.setChan d x) (run s)) :
    (s.setChan d x).event w c enabled run' =
      mapNext (fun t => t.setChan d x) (s.event w c enabled run) := by
  by_cases hc : c < s.cfg.channelCount
  · cases enabled with
    | true => rw [State.event_runs _ hc rfl, State.event_runs (s := s.setChan d x) _ hc rfl, h]
    | false => rw [State.event_refuses _ hc rfl, State.event_refuses (s := s.setChan d x) _ hc rfl]; rfl
  · simp [State.event, hc, mapNext]

theorem rxHandler_setChan (h : c ≠ d) :
    rxHandler c (s.setChan d x) = mapNext (fun t => t.setChan d x) (rxHandler c s) := by
  unfold rxHandler
  rw [s.chan_setChan_other d c x h]
  split
  · split
    · exact congrArg _ (s.onChan_setChan x h _)
    · rfl
  · rfl

theorem txHandler_setChan (h : c ≠ d) :
    txHandler c (s.setChan d x) = mapNext (fun t => t.setChan d x) (txHandler c s) := by
  unfold txHandler
  rw [s.chan_setChan_other d c x h]
  split
  · exact congrArg _ (s.onChan_setChan x h _)
  · rfl

/-- R263: an instruction that names another channel, with no action on channel `d` left, does not observe
channel `d`. -/
theorem exec_setChan {i : Instr} (hi : i.channel? ≠ some d) (ha : ∀ a ∈ s.actions, a.channel? ≠ some d) :
    exec i (s.setChan d x) = mapNext (fun t => t.setChan d x) (exec i s) := by
  cases i with
  | chcount | sei | cli => exact s.command_setChan x (.ok _) ha
  | init c baud => exact s.command_setChan x (s.initPrologue c _) ha
  | setflow c on =>
    simp only [exec, execSetflow, State.setChan_cfg, s.prologue_setChan x _ _ (fun e => hi (congrArg some e))]
    split
    · exact s.command_setChan x _ ha
    · rfl
  | close c | haschar c | read c | readb c | isrxfull c | isrxempty c | write c _ | wru16 c _ | istxfull c
  | istxempty c =>
    simp only [exec, execClose, execHaschar, execRead, execReadb, execIsrxfull, execIsrxempty, execWrite,
      execWru16, execIstxfull, execIstxempty, s.prologue_setChan x _ _ (fun e => hi (congrArg some e))]
    exact s.command_setChan x _ ha
  | evRxc c =>
    have hc : c ≠ d := fun e => hi (congrArg some e)
    simp only [exec, execEvRxc, State.serviceInterrupt, State.setChan_gie, s.chan_setChan_other d c x hc]
    exact s.event_setChan x _ _ (rxHandler_setChan s x hc)
  | evUdre c =>
    have hc : c ≠ d := fun e => hi (congrArg some e)
    simp only [exec, execEvUdre, State.serviceInterrupt, State.setChan_gie, s.chan_setChan_other d c x hc]
    exact s.event_setChan x _ _ (txHandler_setChan s x hc)
  | lineRx c b =>
    have hc : c ≠ d := fun e => hi (congrArg some e)
    simp only [exec, execLineRx, s.chan_setChan_other d c x hc]
    exact s.event_setChan x _ _ (congrArg _ (s.onChan_setChan x hc _))
  | lineTx c =>
    have hc : c ≠ d := fun e => hi (congrArg some e)
    simp only [exec, execLineTx, s.chan_setChan_other d c x hc]
    exact s.event_setChan x _ _ (congrArg _ (s.onChan_setChan x hc _))

end

/-- R263: such an instruction does not change channel `d` either. -/
theorem exec_chan_other {i : Instr} {s t : State} {d : Nat} (hi : i.channel? ≠ some d)
    (ha : ∀ a ∈ s.actions, a.channel? ≠ some d) (h : exec i s = .next t) : t.chan d = s.chan d := by
  obtain e | ⟨-, hic, -⟩ | ⟨-, a, rest, hs, -, hac, -⟩ := exec_chan h d
  · exact e
  · exact absurd hic hi
  · exact absurd hac (ha a (hs ▸ List.mem_cons_self))

/-- Settles O36: such an instruction commutes with replacing channel `d`, and its update is not of `d`. -/
theorem channelsAreIsolated : Obligations.ChannelsAreIsolated :=
  fun _ s _ x hi ha => ⟨exec_setChan s x hi ha, fun _ => exec_chan_other hi ha⟩

end Sys2Proof.Machine
end

section
/-! PROOFS. When an event runs, what a step refuses and which turns it can take, and the obligations of
`60_exceptions.md` and of `70_reset_and_hazards.md` about agents, requests, refusals and reset that follow. -/

namespace Sys2Proof.Machine

-- Events

section
variable {s : State} {c : Nat}

theorem exec_evRxc_ready (hc : c < s.cfg.channelCount) (hg : s.gie = true) (hr : (s.chan c).rxReq = true) :
    ∃ b, (s.chan c).rxHold = some b ∧ exec (.evRxc c) s = .next (s.setChan c ((s.chan c).serveRx s.cfg b)) := by
  obtain ⟨b, hb, e⟩ := rxHandler_on_request hr
  exact ⟨b, hb, (State.event_runs _ hc (by simp [hg, hr])).trans e⟩

theorem exec_evUdre_ready (hc : c < s.cfg.channelCount) (hg : s.gie = true) (hr : (s.chan c).txReq = true) :
    exec (.evUdre c) s = .next (s.setChan c ((s.chan c).serveTx s.cfg)) :=
  (State.event_runs _ hc (by simp [hg, hr])).trans (txHandler_on_request hr)

/-- R291, R292: the receive handler runs exactly on its request. -/
theorem exec_evRxc_runs_iff : (∃ t, exec (.evRxc c) s = .next t) ↔
    c < s.cfg.channelCount ∧ s.gie = true ∧ (s.chan c).rxReq = true := by
  refine ⟨fun ⟨t, h⟩ => ?_, fun ⟨hc, hg, hr⟩ => ?_⟩
  · obtain ⟨hc, hg, hr, -⟩ := execEvRxc_next h
    exact ⟨hc, hg, hr⟩
  · obtain ⟨b, -, e⟩ := exec_evRxc_ready hc hg hr
    exact ⟨_, e⟩

/-- R291, R292: the transmit handler runs exactly on its request. -/
theorem exec_evUdre_runs_iff : (∃ t, exec (.evUdre c) s = .next t) ↔
    c < s.cfg.channelCount ∧ s.gie = true ∧ (s.chan c).txReq = true := by
  refine ⟨fun ⟨t, h⟩ => ?_, fun ⟨hc, hg, hr⟩ => ⟨_, exec_evUdre_ready hc hg hr⟩⟩
  obtain ⟨hc, hg, hr, -⟩ := execEvUdre_next h
  exact ⟨hc, hg, hr⟩

/-- R306: the receive line runs exactly when it is ready. -/
theorem exec_lineRx_runs_iff {b : Byte} : (∃ t, exec (.lineRx c b) s = .next t) ↔
    c < s.cfg.channelCount ∧ (s.chan c).lineRxReady = true := by
  refine ⟨fun ⟨t, h⟩ => ?_, fun ⟨hc, hr⟩ => ⟨_, exec_lineRx_ready b hc hr⟩⟩
  obtain ⟨hc, hr, -⟩ := execLineRx_next h
  exact ⟨hc, hr⟩

/-- R305: the transmit line runs exactly when it is ready. -/
theorem exec_lineTx_runs_iff : (∃ t, exec (.lineTx c) s = .next t) ↔
    c < s.cfg.channelCount ∧ (s.chan c).lineTxReady = true := by
  refine ⟨fun ⟨t, h⟩ => ?_, fun ⟨hc, hr⟩ => ⟨_, exec_lineTx_ready hc hr⟩⟩
  obtain ⟨hc, hr, -⟩ := execLineTx_next h
  exact ⟨hc, hr⟩

/-- All an event can answer: the next state of its step, or one of the two refusals of R314. -/
theorem State.event_cases {w : Word} {enabled : Bool} {run : State → Result}
    (hrun : enabled = true → ∃ t, run s = .next t) :
    (∃ t, s.event w c enabled run = .next t) ∨
    s.event w c enabled run = .refused (if c < s.cfg.channelCount then .eventNotEnabled else .noSuchChannel w) := by
  by_cases hc : c < s.cfg.channelCount
  · cases enabled with
    | true =>
      obtain ⟨t, ht⟩ := hrun rfl
      exact .inl ⟨t, (State.event_runs run hc rfl).trans ht⟩
    | false => exact .inr (by rw [State.event_refuses run hc rfl, if_pos hc])
  · exact .inr (by simp [State.event, hc])

end

/-- R314: an event of channel `c` runs, or is refused, as not enabled or as of no channel of the block. -/
theorem exec_event_cases {i : Instr} {s : State} {c : Nat} (hi : i.isEvent = true) (hc : i.channel? = some c) :
    (∃ t, exec i s = .next t) ∨
    exec i s = .refused (if c < s.cfg.channelCount then .eventNotEnabled else .noSuchChannel (encode i)) := by
  cases i with
  | evRxc d =>
    cases hc
    refine State.event_cases fun he => ?_
    simp only [Bool.and_eq_true] at he
    obtain ⟨b, -, e⟩ := rxHandler_on_request he.2
    exact ⟨_, e⟩
  | evUdre d =>
    cases hc
    refine State.event_cases fun he => ?_
    simp only [Bool.and_eq_true] at he
    exact ⟨_, txHandler_on_request he.2⟩
  | lineRx d b | lineTx d =>
    cases hc
    simp only [exec, execLineRx, execLineTx]
    exact State.event_cases fun _ => ⟨_, rfl⟩
  | _ => cases hi

/-- Settles O37: each event runs exactly on its condition, and is refused otherwise. -/
theorem eventsRunExactlyWhenEnabled : Obligations.EventsRunExactlyWhenEnabled := by
  intro s c b
  have hrefused : ∀ i : Instr, i.isEvent = true → i.channel? = some c → (∀ t, exec i s ≠ .next t) →
      exec i s = .refused (if c < s.cfg.channelCount then .eventNotEnabled else .noSuchChannel (encode i)) :=
    fun i hi hc hnone => (exec_event_cases hi hc).resolve_left fun ⟨t, ht⟩ => hnone t ht
  refine ⟨?_, ?_, ?_, ?_, ?_⟩
  · rw [exec_evRxc_runs_iff, Channel.rxReq_iff]
  · rw [exec_evUdre_runs_iff, Channel.txReq_iff]
  · rw [exec_lineRx_runs_iff, Channel.lineRxReady_iff]
  · rw [exec_lineTx_runs_iff, Channel.lineTxReady_iff]
  · simp only [List.forall_mem_cons]
    exact ⟨hrefused _ rfl rfl, hrefused _ rfl rfl, hrefused _ rfl rfl, hrefused _ rfl rfl, nofun⟩

-- Faults and refusals

/-- All an action step can answer besides next: the refusal of INIT on an active channel (R262). -/
theorem State.perform_refused {s : State} {a : Action} {rest : List Action} {r : Refusal}
    (h : s.perform a rest = .refused r) : ∃ c, r = .reinitActive c := by
  unfold State.perform at h
  split at h
  · split at h
    · cases h
    · next hb =>
      cases h
      cases a with
      | init c baud =>
        simp only [Action.body, initBody] at hb
        split at hb
        · cases hb; exact ⟨c, rfl⟩
        · cases hb
      | _ => cases hb
  · cases h

/-- A command's step faults never, and refuses with its plan's reason or its action's. -/
theorem State.command_cases (s : State) (plan : Except Refusal (List Action)) :
    (∃ t, s.command plan = .next t) ∨ (∃ c, s.command plan = .refused (.reinitActive c)) ∨
    (∃ r, plan = .error r ∧ s.command plan = .refused r) := by
  cases ha : s.actions with
  | nil =>
    cases plan with
    | ok own => exact .inl ⟨_, State.command_fetch ha⟩
    | error r => exact .inr (.inr ⟨r, rfl, State.command_refuse ha⟩)
  | cons a rest =>
    rw [State.command_inside plan ha]
    cases hp : s.perform a rest with
    | next t => exact .inl ⟨t, rfl⟩
    | fault f => exact absurd hp (s.perform_no_fault a rest f)
    | refused r =>
      obtain ⟨c, rfl⟩ := State.perform_refused hp
      exact .inr (.inl ⟨c, rfl⟩)

theorem State.prologue_error {s : State} {c : Nat} {neutral own : List Action} {r : Refusal}
    (h : s.prologue c neutral own = .error r) : r = .channelNotActive c := by
  unfold State.prologue at h
  split at h
  · split at h
    · cases h
    · cases h; rfl
  · cases h

/-- R310, R311: an instruction answers a next state, or one of the refusals of R310, and never a fault. -/
theorem exec_answers (i : Instr) (s : State) :
    (∃ t, exec i s = .next t) ∨ ∃ r, exec i s = .refused r ∧ r.stopsModel = true := by
  have hcommand : ∀ plan, (∀ r, plan = .error r → r.stopsModel = true) →
      (∃ t, s.command plan = .next t) ∨ ∃ r, s.command plan = .refused r ∧ r.stopsModel = true := by
    intro plan hplan
    obtain h | ⟨c, h⟩ | ⟨r, hr, h⟩ := s.command_cases plan
    · exact .inl h
    · exact .inr ⟨_, h, rfl⟩
    · exact .inr ⟨r, h, hplan r hr⟩
  have hprologue : ∀ c neutral own r, s.prologue c neutral own = .error r → r.stopsModel = true :=
    fun c neutral own r h => by rw [State.prologue_error h]; rfl
  cases hi : i.isEvent with
  | true =>
    obtain ⟨c, hc⟩ : ∃ c, i.channel? = some c := by
      cases i with
      | evRxc c | evUdre c | lineRx c _ | lineTx c => exact ⟨c, rfl⟩
      | _ => cases hi
    obtain h | h := exec_event_cases hi hc (s := s)
    · exact .inl h
    · exact .inr ⟨_, h, by split <;> rfl⟩
  | false =>
    cases i with
    | chcount | sei | cli => exact hcommand (.ok _) nofun
    | init c baud =>
      refine hcommand (s.initPrologue c _) fun r h => ?_
      unfold State.initPrologue at h
      split at h <;> cases h
    | setflow c on =>
      simp only [exec, execSetflow]
      split
      · exact hcommand _ (hprologue c _ _)
      · exact .inr ⟨_, rfl, rfl⟩
    | evRxc | evUdre | lineRx | lineTx => cases hi
    | _ => exact hcommand (s.prologue _ _ _) (hprologue _ _ _)

theorem OpRow.operands_error {r : OpRow} {w : Word} {e : Refusal} (h : r.operands w = .error e) :
    e = .reservedFieldNonZero w := by
  unfold OpRow.operands at h
  split at h
  · cases h
  · cases h; rfl

/-- R115, R310: the program decoder refuses with reasons of R310. -/
theorem decodeProgramWord_error {cfg : Config} {w : Word} {r : Refusal}
    (h : decodeProgramWord cfg w = .error r) : r.stopsModel = true := by
  unfold decodeProgramWord at h
  split at h
  · cases h; rfl
  · split at h
    · cases h; rfl
    · split at h
      · cases h; rfl
      · rw [OpRow.operands_error h]; rfl

/-- R115, R310: the schedule decoder refuses with reasons of R310. -/
theorem decodeScheduleWord_error {cfg : Config} {w : Word} {r : Refusal}
    (h : decodeScheduleWord cfg w = .error r) : r.stopsModel = true := by
  unfold decodeScheduleWord at h
  split at h
  · cases h; rfl
  · split at h
    · split at h
      · next he => cases h; rw [OpRow.operands_error he]; rfl
      · split at h
        · cases h
        · cases h; rfl
    · cases h; rfl

/-- R310, R311: a turn answers a next state, or one of the refusals of R310, and never a fault. -/
theorem takeTurn_answers (turn : Turn) (s : State) :
    (∃ t, takeTurn turn s = .next t) ∨ ∃ r, takeTurn turn s = .refused r ∧ r.stopsModel = true := by
  cases turn with
  | event i => exact exec_answers i s
  | foreground =>
    simp only [takeTurn, foregroundStep]
    split
    · next a rest ha =>
      cases hp : s.perform a rest with
      | next t => exact .inl ⟨t, rfl⟩
      | fault f => exact absurd hp (s.perform_no_fault a rest f)
      | refused r =>
        obtain ⟨c, rfl⟩ := State.perform_refused hp
        exact .inr ⟨_, rfl, rfl⟩
    · split
      · exact .inr ⟨_, rfl, rfl⟩
      · split
        · next r hr => exact .inr ⟨r, rfl, decodeProgramWord_error hr⟩
        · exact exec_answers _ s

-- The machine's step

section
variable {s : State} (hr : s.refused = false) (hv : s.cfg.valid = true)
include hr hv

theorem step_scheduled {e : Entry} {rest : List Entry} {turn : Turn} (hs : s.schedule = e :: rest)
    (he : e.turn s.cfg = .ok turn) : step s = takeTurn turn { s with schedule := rest } := by
  simp [step, nextStep, hr, hv, State.nextTurn, hs, he]

theorem step_scheduled_refused {e : Entry} {rest : List Entry} {r : Refusal} (hs : s.schedule = e :: rest)
    (he : e.turn s.cfg = .error r) : step s = .refused r := by
  simp [step, nextStep, hr, hv, State.nextTurn, hs, he]

theorem step_free {turn : Turn} (hs : s.schedule = []) (ht : s.freeTurn = some turn) :
    step s = takeTurn turn { s with draws := s.draws + 1 } := by
  simp [step, nextStep, hr, hv, State.nextTurn, hs, ht]

theorem step_free_ended (hs : s.schedule = []) (ht : s.freeTurn = none) : step s = .refused .runEnded := by
  simp [step, nextStep, hr, hv, State.nextTurn, hs, ht]

end

theorem Entry.turn_event_ok {cfg : Config} {w : Word} {i : Instr} (h : decodeScheduleWord cfg w = .ok i) :
    Entry.turn cfg (.event w) = .ok (.event i) := by
  simp [Entry.turn, h]

theorem Entry.turn_event_error {cfg : Config} {w : Word} {r : Refusal} (h : decodeScheduleWord cfg w = .error r) :
    Entry.turn cfg (.event w) = .error r := by
  simp [Entry.turn, h]

theorem Entry.turn_error {cfg : Config} {e : Entry} {r : Refusal} (h : e.turn cfg = .error r) :
    r.stopsModel = true := by
  cases e with
  | fg => cases h
  | event w =>
    cases hw : decodeScheduleWord cfg w with
    | ok i => exact absurd (h.symm.trans (Entry.turn_event_ok hw)) nofun
    | error r' =>
      cases h.symm.trans (Entry.turn_event_error hw)
      exact decodeScheduleWord_error hw

/-- All a step can answer: a next state, a refusal of R310, or that no agent has a step, because the machine
has refused before or because nothing is scheduled and nothing is enabled. -/
theorem step_answers (s : State) :
    (∃ t, step s = .next t) ∨ (∃ r, step s = .refused r ∧ r.stopsModel = true) ∨
    (step s = .refused .stopped ∧ s.refused = true) ∨
    (step s = .refused .runEnded ∧ s.refused = false ∧ s.schedule = [] ∧ s.freeTurn = none) := by
  cases hr : s.refused with
  | true => exact .inr (.inr (.inl ⟨step_refused hr, rfl⟩))
  | false =>
    cases hv : s.cfg.valid with
    | false => exact .inr (.inl ⟨.configInvalid, by simp [step, nextStep, hr, hv], rfl⟩)
    | true =>
      cases hs : s.schedule with
      | nil =>
        cases ht : s.freeTurn with
        | none => exact .inr (.inr (.inr ⟨step_free_ended hr hv hs ht, rfl, rfl, rfl⟩))
        | some turn =>
          rw [step_free hr hv hs ht]
          exact (takeTurn_answers turn _).imp_right .inl
      | cons e rest =>
        cases he : e.turn s.cfg with
        | error r => exact .inr (.inl ⟨r, step_scheduled_refused hr hv hs he, Entry.turn_error he⟩)
        | ok turn =>
          rw [step_scheduled hr hv hs he]
          exact (takeTurn_answers turn _).imp_right .inl

/-- Settles O39: the handlers' tests are their preconditions, and all that an instruction and a step can
answer leaves out a fault. -/
theorem noStepFaults : Obligations.NoStepFaults := by
  refine ⟨fun c s h => ?_, fun c s h => ?_, fun i s f hf => ?_, fun s f hf => ?_⟩
  · unfold rxHandler
    cases hb : (s.chan c).rxHold with
    | none => rfl
    | some b =>
      have hie : (s.chan c).rxIE = false := h.resolve_right (by simp [hb])
      simp [hie]
  · refine if_neg fun hpre => ?_
    simp only [Channel.dre, Bool.and_eq_true, Option.isNone_iff_eq_none] at hpre
    obtain hie | hhold := h
    · exact absurd (hpre.1.symm.trans hie) nofun
    · exact hhold hpre.2
  · obtain ⟨t, e⟩ | ⟨r, e, -⟩ := exec_answers i s
    · exact absurd (hf.symm.trans e) nofun
    · exact absurd (hf.symm.trans e) nofun
  · obtain ⟨t, e⟩ | ⟨r, e, -⟩ | ⟨e, -⟩ | ⟨e, -⟩ := step_answers s
    all_goals exact absurd (hf.symm.trans e) nofun

-- The turns of an unscheduled step

theorem State.foreground_mem_turns_iff (s : State) (b : Byte) :
    Turn.foreground ∈ s.turns b ↔ s.finished = false := by
  have hevents : ∀ c, Turn.foreground ∉ s.channelTurns b c := fun c => by
    have hif : ∀ (p : Prop) [Decidable p] (j : Instr), Turn.foreground ∉ if p then [Turn.event j] else [] :=
      fun p _ j => by split <;> simp
    simp only [State.channelTurns, List.mem_append, hif, or_self, not_false_eq_true]
  have hflat : Turn.foreground ∉ (List.range s.cfg.channelCount).flatMap (s.channelTurns b) := fun h => by
    obtain ⟨c, -, hc⟩ := List.mem_flatMap.mp h
    exact hevents c hc
  rw [State.turns, List.mem_append, or_iff_left hflat]
  cases s.finished <;> simp

/-- R290: the enabled turns of a step, with the events that run. -/
theorem State.event_mem_turns_iff_runs (s : State) (b : Byte) (i : Instr) : Turn.event i ∈ s.turns b ↔
    ∃ c, c < s.cfg.channelCount ∧ (i = .evRxc c ∨ i = .evUdre c ∨ i = .lineRx c b ∨ i = .lineTx c) ∧
      ∃ t, exec i s = .next t := by
  rw [s.event_mem_turns_iff]
  refine exists_congr fun c => and_congr_right fun hc => ?_
  constructor
  · rintro (⟨rfl, hr⟩ | ⟨rfl, hr⟩ | ⟨rfl, hr⟩ | ⟨rfl, hr⟩)
    · exact ⟨.inl rfl, exec_evRxc_runs_iff.mpr ⟨hc, hr⟩⟩
    · exact ⟨.inr (.inl rfl), exec_evUdre_runs_iff.mpr ⟨hc, hr⟩⟩
    · exact ⟨.inr (.inr (.inl rfl)), exec_lineRx_runs_iff.mpr ⟨hc, hr⟩⟩
    · exact ⟨.inr (.inr (.inr rfl)), exec_lineTx_runs_iff.mpr ⟨hc, hr⟩⟩
  · rintro ⟨rfl | rfl | rfl | rfl, ht⟩
    · exact .inl ⟨rfl, (exec_evRxc_runs_iff.mp ht).2⟩
    · exact .inr (.inl ⟨rfl, (exec_evUdre_runs_iff.mp ht).2⟩)
    · exact .inr (.inr (.inl ⟨rfl, (exec_lineRx_runs_iff.mp ht).2⟩))
    · exact .inr (.inr (.inr ⟨rfl, (exec_lineTx_runs_iff.mp ht).2⟩))

/-- Whatever the free value, it picks a turn unless there is none. -/
theorem State.freeTurn_eq_none_iff (s : State) :
    s.freeTurn = none ↔ s.turns (Config.freeByte s.draws) = [] := by
  unfold State.freeTurn
  rw [List.getElem?_eq_none_iff, ← List.length_eq_zero_iff]
  constructor
  · intro h
    by_contra hpos
    exact absurd (Nat.mod_lt (Config.freeChoice s.draws) (Nat.pos_of_ne_zero hpos)) (Nat.not_lt.mpr h)
  · intro h
    rw [h]
    exact Nat.zero_le _

/-- Settles O42: whatever the free value, it picks a turn of the list unless there is none. -/
theorem unscheduledStepTakesAnEnabledTurn : Obligations.UnscheduledStepTakesAnEnabledTurn := by
  intro s hr hv hs
  refine ⟨?_, fun b => ⟨s.foreground_mem_turns_iff b, s.event_mem_turns_iff_runs b⟩⟩
  cases ht : s.freeTurn with
  | none => exact .inl ⟨s.freeTurn_eq_none_iff.mp ht, step_free_ended hr hv hs ht⟩
  | some turn => exact .inr ⟨turn, State.freeTurn_mem ht, step_free hr hv hs ht⟩

-- The end of a run

theorem State.channelQuiet_iff (s : State) (c : Nat) : s.channelQuiet c = true ↔
    ¬ (s.gie = true ∧ (s.chan c).rxReq = true) ∧ ¬ (s.gie = true ∧ (s.chan c).txReq = true) ∧
    (s.chan c).lineTxReady = false := by
  simp [State.channelQuiet, and_assoc, imp_iff_not_or]

/-- R303: with no turn enabled the state is quiescent. -/
theorem State.quiescent_of_no_turn {s : State} {b : Byte} (h : s.turns b = []) : s.quiescent = true := by
  have hevent : ∀ i, Turn.event i ∉ s.turns b := fun i => by simp [h]
  have hfinished : s.finished = true := by
    rw [← Bool.not_eq_false, ← s.foreground_mem_turns_iff b, h]
    exact List.not_mem_nil
  rw [State.quiescent, hfinished, Bool.true_and, List.all_eq_true]
  intro c hc
  rw [List.mem_range] at hc
  refine (s.channelQuiet_iff c).mpr ⟨fun hr => ?_, fun hr => ?_, Bool.not_eq_true _ ▸ fun hr => ?_⟩
  · exact hevent (.evRxc c) ((s.event_mem_turns_iff b _).mpr ⟨c, hc, .inl ⟨rfl, hr⟩⟩)
  · exact hevent (.evUdre c) ((s.event_mem_turns_iff b _).mpr ⟨c, hc, .inr (.inl ⟨rfl, hr⟩)⟩)
  · exact hevent (.lineTx c) ((s.event_mem_turns_iff b _).mpr ⟨c, hc, .inr (.inr (.inr ⟨rfl, hr⟩))⟩)

/-- Settles O45: of all that a step can answer, only the ten refusals change the state left behind. -/
theorem refusalStopsTheMachine : Obligations.RefusalStopsTheMachine := by
  intro s
  refine ⟨fun r h => ?_, fun r h hstops => ?_, fun hr => ?_, fun h => ?_⟩
  · obtain ⟨t, e⟩ | ⟨r', e, hstops⟩ | ⟨e, hr⟩ | ⟨e, hr, -⟩ := step_answers s
    · exact absurd (h.symm.trans e) nofun
    · cases h.symm.trans e
      exact .inl hstops
    · cases h.symm.trans e
      exact .inr (.inl ⟨rfl, hr⟩)
    · cases h.symm.trans e
      exact .inr (.inr ⟨rfl, hr⟩)
  · have hafter := State.after_refusal h hstops
    exact ⟨hafter, step_refused (by rw [hafter])⟩
  · exact ⟨step_refused hr, State.after_no_step (step_refused hr) rfl⟩
  · have hafter : s.after = s := State.after_no_step h rfl
    obtain ⟨t, e⟩ | ⟨r, e, hstops⟩ | ⟨e, -⟩ | ⟨-, hr, -, ht⟩ := step_answers s
    · exact absurd (h.symm.trans e) nofun
    · cases h.symm.trans e
      exact absurd hstops nofun
    · exact absurd (h.symm.trans e) nofun
    · have hq := State.quiescent_of_no_turn (s.freeTurn_eq_none_iff.mp ht)
      exact ⟨hafter, hq, by simp [hafter, State.observation, hq, hr]⟩

/-- Settles O58: with no request and no byte in a register, an active channel's engine is Idle and drained. -/
theorem quiescentChannelsAreDrained : Obligations.QuiescentChannelsAreDrained := by
  intro s c hs hq hg hc hactive
  rw [State.quiescent, Bool.and_eq_true, List.all_eq_true] at hq
  obtain ⟨hrx, htx, hline⟩ := (s.channelQuiet_iff c).mp (hq.2 c (List.mem_range.mpr hc))
  obtain ⟨-, htxRange, hopen, -⟩ := hs.chan hc
  obtain ⟨hidle, -, -, hdrained, -, htxEn, hrxIE⟩ := hopen hactive
  have htxHold : (s.chan c).txHold = none := by
    by_contra hhold
    exact absurd ((Channel.lineTxReady_iff _).mpr ⟨hactive, htxEn, hhold⟩) (by simp [hline])
  have hrxHold : (s.chan c).rxHold = none := by
    by_contra hhold
    exact hrx ⟨hg, (Channel.rxReq_iff _).mpr ⟨hactive, hrxIE, hhold⟩⟩
  have htxIE : (s.chan c).txIE = false := by
    by_contra hie
    exact htx ⟨hg, (Channel.txReq_iff _).mpr ⟨hactive, by simpa using hie, htxHold⟩⟩
  have htxIdle : (s.chan c).txIdle = true := by rw [hidle, htxIE]; rfl
  obtain ⟨-, hempty, hpending⟩ := hdrained htxIdle
  refine ⟨htxIdle, htxHold, hrxHold, ?_⟩
  simp [Channel.sent, htxHold, (Channel.control_eq_none_iff s.cfg _).mpr hpending,
    Ring.contents_of_empty htxRange hempty]

-- Words

/-- Settles O40: the schedule's entry is the turn, and the foreground's turn is exec of the command at `pc`. -/
theorem stepRunsTheDecodedInstruction : Obligations.StepRunsTheDecodedInstruction := by
  refine fun s hr hv => ⟨fun rest w i hs hw hi => ?_, fun rest w i hs hi => ?_, fun turn => step_free hr hv⟩
  · rw [step_scheduled hr hv hs rfl]
    exact foregroundStep_exec (s := { s with schedule := rest }) hw hi
  · exact step_scheduled hr hv hs (Entry.turn_event_ok hi)

/-- Settles O41: an undecodable schedule word is no turn; an undecodable program word is no fetch. -/
theorem stepRefusesUndecodableWords : Obligations.StepRefusesUndecodableWords := by
  refine fun s hr hv => ⟨fun rest w r hs ha hw hi => ?_, fun rest w r hs hi => ?_, fun rest hs ha hpc => ?_⟩
  · rw [step_scheduled hr hv hs rfl]
    simp [takeTurn, foregroundStep, ha, hw, hi]
  · exact step_scheduled_refused hr hv hs (Entry.turn_event_error hi)
  · rw [step_scheduled hr hv hs rfl]
    simp [takeTurn, foregroundStep, ha, List.getElem?_eq_none hpc]

-- The configuration and reset

/-- Settles O46: the bounds are the test's, clause by clause, and the test comes before any turn. -/
theorem invalidConfigurationIsRefused : Obligations.InvalidConfigurationIsRefused := by
  refine ⟨fun cfg => ?_, fun s hr hv => by simp [step, nextStep, hr, hv]⟩
  simp [Config.valid, and_assoc, imp_iff_not_or]

theorem reset_isPowerOn : State.reset.IsPowerOn := by
  refine ⟨List.length_replicate, fun x hx => ?_, rfl, rfl, rfl, rfl, rfl⟩
  rw [List.eq_of_mem_replicate hx]
  decide

/-- R291, R305, R306: an event runs on an active channel only. -/
theorem exec_event_active {i : Instr} {s t : State} (hi : i.isEvent = true) (h : exec i s = .next t) :
    ∃ c, (s.chan c).active = true := by
  cases i with
  | evRxc c =>
    obtain ⟨-, -, hr, -⟩ := execEvRxc_next h
    exact ⟨c, ((Channel.rxReq_iff _).mp hr).1⟩
  | evUdre c =>
    obtain ⟨-, -, hr, -⟩ := execEvUdre_next h
    exact ⟨c, ((Channel.txReq_iff _).mp hr).1⟩
  | lineRx c b =>
    obtain ⟨-, hr, -⟩ := execLineRx_next h
    exact ⟨c, ((Channel.lineRxReady_iff _).mp hr).1⟩
  | lineTx c =>
    obtain ⟨-, hr, -⟩ := execLineTx_next h
    exact ⟨c, ((Channel.lineTxReady_iff _).mp hr).1⟩
  | _ => cases hi

/-- R331: at power-on every channel is inactive. -/
theorem State.IsPowerOn.inactive {s : State} (hs : s.IsPowerOn) (c : Nat) : (s.chan c).active = false := by
  obtain ⟨-, hchannels, -⟩ := hs
  by_cases hc : c < s.ch.length
  · exact (hchannels _ (s.chan_mem c hc)).1
  · rw [State.chan, List.getD_eq_default _ _ (Nat.not_lt.mp hc)]
    rfl

/-- Settles O47: at power-on every channel is inactive, and an event runs on an active one. -/
theorem powerOnHasOnlyTheForeground : Obligations.PowerOnHasOnlyTheForeground := by
  have hnone : ∀ s : State, s.IsPowerOn → ∀ i t, i.isEvent = true → exec i s ≠ .next t :=
    fun s hs i t hi h => by
      obtain ⟨c, hc⟩ := exec_event_active hi h
      exact absurd (hc.symm.trans (hs.inactive c)) nofun
  refine ⟨reset_isPowerOn, by decide, rfl, rfl, rfl, fun s hs => ⟨hnone s hs, fun b turn hturn => ?_⟩⟩
  cases turn with
  | foreground => rfl
  | event i =>
    obtain ⟨c, -, hi, t, ht⟩ := (s.event_mem_turns_iff_runs b i).mp hturn
    obtain rfl | rfl | rfl | rfl := hi <;> exact absurd ht (hnone s hs _ t rfl)

/-- Settles O48: reset is a power-on state of an admitted configuration. -/
theorem resetSatisfiesTheInvariant : Obligations.ResetSatisfiesTheInvariant :=
  reset_isPowerOn.inv (by decide)

/-- Settles O59: the value is its two bytes. -/
theorem baudReachesThePeripheralWhole : Obligations.BaudReachesThePeripheralWhole := by
  refine fun baud => ⟨rfl, _, _, rfl, ?_⟩
  have hlt := baud.isLt
  simp only [BitVec.extractLsb'_toNat, Nat.shiftRight_eq_div_pow]
  omega

end Sys2Proof.Machine
end

section
/-! PROOFS. The digits of a 16-bit value, and the whole next state of each command and handler: the
obligations of `41_transmit.md`, `42_receive.md`, `43_flow_control.md` and `44_channel_mux.md` that say what
an instruction completes to. -/

namespace Sys2Proof.Machine

-- Decimal digits

/-- R164: what the digits mean, most significant first. -/
def digitsValue (ds : List Byte) : Nat := ds.foldl (fun n b => n * 10 + (b.toNat - 0x30)) 0

theorem digitByte_toNat {d : Nat} (h : d < 10) : (digitByte d).toNat = 0x30 + d := by
  rw [digitByte, BitVec.toNat_add, BitVec.toNat_ofNat]
  have : (0x30 : BitVec 8).toNat = 0x30 := rfl
  omega

/-- R164: the digits of a positive number end in its last digit, before which stand those of its tenth. -/
theorem decLoop_append (fuel v : Nat) (ds : List Byte) : decLoop fuel v ds = decLoop fuel v [] ++ ds := by
  induction fuel generalizing v ds with
  | zero => rfl
  | succ fuel ih =>
    unfold decLoop
    split
    · rfl
    · rw [ih, ih (v / 10) [digitByte (v % 10)], List.append_assoc, List.singleton_append]

theorem decLoop_succ (fuel : Nat) {v : Nat} (h : v ≠ 0) :
    decLoop (fuel + 1) v [] = decLoop fuel (v / 10) [] ++ [digitByte (v % 10)] := by
  rw [decLoop, if_neg h, decLoop_append]

theorem decLoop_zero (fuel : Nat) : decLoop fuel 0 [] = [] := by
  cases fuel <;> rfl

/-- R164: with rounds enough the loop's digits are one a round at most, decimal, and worth the number; they
begin with 0 for no number. -/
theorem decLoop_spec {fuel v : Nat} (h : v < 10 ^ fuel) :
    (decLoop fuel v []).length ≤ fuel ∧ (∀ b ∈ decLoop fuel v [], 0x30 ≤ b.toNat ∧ b.toNat ≤ 0x39) ∧
    digitsValue (decLoop fuel v []) = v ∧ (v ≠ 0 → decLoop fuel v [] ≠ []) ∧
    (decLoop fuel v []).head? ≠ some 0x30 := by
  induction fuel generalizing v with
  | zero =>
    have hv : v = 0 := by simpa using h
    simp [decLoop, digitsValue, hv]
  | succ fuel ih =>
    by_cases hv : v = 0
    · simp [hv, decLoop_zero, digitsValue]
    · obtain ⟨hlen, hdigits, hvalue, hne, hhead⟩ := ih (v := v / 10) (by rw [Nat.pow_succ] at h; omega)
      have hlast := digitByte_toNat (Nat.mod_lt v (by decide : 0 < 10))
      have hmod := Nat.mod_lt v (by decide : 0 < 10)
      rw [decLoop_succ fuel hv]
      refine ⟨by simpa using hlen, fun b hb => ?_, ?_, by simp, ?_⟩
      · obtain hb | hb := List.mem_append.mp hb
        · exact hdigits b hb
        · rw [List.mem_singleton.mp hb, hlast]
          omega
      · rw [digitsValue, List.foldl_append, ← digitsValue, hvalue, List.foldl_cons, List.foldl_nil, hlast]
        omega
      · by_cases htenth : v / 10 = 0
        · rw [htenth, decLoop_zero]
          intro h0
          have := congrArg BitVec.toNat (Option.some.inj h0)
          rw [hlast] at this
          have h30 : (0x30 : BitVec 8).toNat = 0x30 := rfl
          omega
        · rwa [List.head?_append_of_ne_nil _ (hne htenth)]

theorem dec_of_ne_zero {v : Half} (h : v.toNat ≠ 0) : dec v = decLoop 5 v.toNat [] := if_neg h

theorem dec_zero : dec 0 = [0x30] := rfl

theorem dec_ne_nil (v : Half) : dec v ≠ [] := by
  by_cases h : v.toNat = 0
  · rw [show v = 0 from BitVec.eq_of_toNat_eq h, dec_zero]
    exact List.cons_ne_nil _ _
  · obtain ⟨-, -, -, hne, -⟩ := decLoop_spec (fuel := 5) (v := v.toNat) (v.isLt.trans (by decide))
    rw [dec_of_ne_zero h]
    exact hne h

/-- Settles O16: zero apart, the digits are those of the loop, five rounds of which reach every 16-bit
value. -/
theorem decIsTheDecimalRendering : Obligations.DecIsTheDecimalRendering := by
  refine ⟨fun v => ?_, rfl, rfl, rfl, rfl, rfl⟩
  have hne := List.length_pos_of_ne_nil (dec_ne_nil v)
  by_cases h : v.toNat = 0
  · rw [show v = 0 from BitVec.eq_of_toNat_eq h, dec_zero]
    simp
  · obtain ⟨hlen, hdigits, hvalue, -, hhead⟩ := decLoop_spec (fuel := 5) (v := v.toNat) (v.isLt.trans (by decide))
    rw [← dec_of_ne_zero h] at hlen hdigits hvalue hhead
    exact ⟨hne, hlen, hdigits, hvalue, fun h0 => absurd h0 hhead⟩

-- Fetch, action, spin

/-- R300: a command on an active channel of the block is fetched as its own action list. -/
theorem exec_fetch_own {i : Instr} {s : State} {c : Nat} {a : Action} {rest : List Action}
    (hi : i.isEvent = false) (hic : i.channel? = some c) (hinit : ∀ baud, i ≠ .init c baud)
    (hf : s.cfg.flowControl = true ∨ ∀ on, i ≠ .setflow c on) (hown : ownActions i = a :: rest)
    (ha : s.actions = []) (hc : c < s.cfg.channelCount) (hactive : (s.chan c).active = true) :
    exec i s = .next { s with actions := a :: rest } := by
  rw [exec_eq_prologue hi hic hinit hf, State.prologue_valid _ _ hc hactive, hown, State.command_fetch ha]
  rfl

/-- R301: a command spins while the guard of its head action is false. -/
theorem exec_spins {i : Instr} {s : State} {a : Action} {rest : List Action} (hi : i.isEvent = false)
    (hf : s.cfg.flowControl = true ∨ ∀ c on, i ≠ .setflow c on) (ha : s.actions = a :: rest)
    (hg : a.guard s = false) : exec i s = .next s :=
  (exec_inside hi ha hf).trans (State.perform_spins hg)

theorem exec_fires {i : Instr} {s u : State} {a : Action} {rest : List Action} (hi : i.isEvent = false)
    (hf : s.cfg.flowControl = true ∨ ∀ c on, i ≠ .setflow c on) (ha : s.actions = a :: rest)
    (hg : a.guard s = true) (hb : a.body s = .ok u) : exec i s = .next (u.proceed rest) :=
  (exec_inside hi ha hf).trans (State.perform_fires hg hb)

theorem State.onChan_proceed (s : State) (c : Nat) (f : Channel → Channel) (rest : List Action) :
    (s.onChan c f).proceed rest = { s with
      ch := s.ch.set c (f (s.chan c)), actions := rest, pc := if rest = [] then s.pc + 1 else s.pc } := by
  simp [State.proceed, State.onChan, State.setChan]

-- The transmit family

/-- Settles O13: the kick's equation; with the engine Idle the data register is empty. -/
theorem kickStartsDraining : Obligations.KickStartsDraining := by
  refine ⟨Channel.kick_eq, fun cfg x hx hactive hidle => ?_⟩
  rw [Channel.txReq_iff, Channel.kick_eq]
  exact ⟨hactive, by simp [hidle], (hx.drained hidle).1⟩

theorem Channel.send_of_not_full {cfg : Config} {x : Channel} (b : Byte)
    (hfull : x.tx.isFull cfg.txCapacity = false) : x.send cfg b = { x with
      tx := { buf := x.tx.buf.set x.tx.write b, read := x.tx.read, write := advance x.tx.write cfg.txCapacity }
      txIdle := false
      txIE := x.txIE || x.txIdle } := by
  rw [Channel.send_eq, Ring.push_of_not_full b hfull]
  rfl

/-- Settles O14: the guard is that the ring is not full, and the body is a push and a kick. -/
theorem writeCompletes : Obligations.WriteCompletes := by
  intro s c b
  refine ⟨exec_fetch_own (i := .write c b) rfl rfl nofun (.inr nofun) rfl, fun ha hfull => ?_, fun ha hfull => ?_⟩
  · rw [exec_last_action (i := .write c b) rfl nofun ha (by simp [Action.guard, writeGuard, hfull]) rfl,
      writeBody, State.onChan_proceed, Channel.send_of_not_full b hfull]
    rfl
  · exact exec_spins rfl (.inr nofun) ha (by simp [Action.guard, writeGuard, hfull])

/-- Settles O15: Dec(v) is not empty, so the fetch finds an action; each is a push and a kick. -/
theorem wru16Completes : Obligations.Wru16Completes := by
  intro s c v
  refine ⟨fun ha hc hactive => ?_, fun d rest ha hfull => ?_, fun d rest ha hfull => ?_⟩
  · obtain ⟨a, rest, hown⟩ := List.exists_cons_of_ne_nil
      (fun h => dec_ne_nil v (List.map_eq_nil_iff.mp h) : wru16Actions c v ≠ [])
    rw [exec_fetch_own (i := .wru16 c v) rfl rfl nofun (.inr nofun) hown ha hc hactive, ← hown]
    rfl
  · rw [exec_fires (i := .wru16 c v) rfl (.inr nofun) ha (by simp [Action.guard, digitGuard, hfull]) rfl,
      digitBody, State.onChan_proceed, Channel.send_of_not_full d hfull]
  · exact exec_spins rfl (.inr nofun) ha (by simp [Action.guard, digitGuard, hfull])

/-- Settles O17: each query is one action, which never spins. -/
theorem queriesEmitTheirPredicate : Obligations.QueriesEmitTheirPredicate := by
  intro s c
  refine ⟨fun ha hc hactive => ⟨?_, ?_, ?_, ?_, ?_⟩, fun ha => ?_, fun ha => ?_, fun ha => ?_, fun ha => ?_,
    fun ha => ?_⟩
  · exact exec_fetch_own (i := .istxfull c) rfl rfl nofun (.inr nofun) rfl ha hc hactive
  · exact exec_fetch_own (i := .istxempty c) rfl rfl nofun (.inr nofun) rfl ha hc hactive
  · exact exec_fetch_own (i := .haschar c) rfl rfl nofun (.inr nofun) rfl ha hc hactive
  · exact exec_fetch_own (i := .isrxempty c) rfl rfl nofun (.inr nofun) rfl ha hc hactive
  · exact exec_fetch_own (i := .isrxfull c) rfl rfl nofun (.inr nofun) rfl ha hc hactive
  · exact exec_last_action (i := .istxfull c) rfl nofun ha rfl rfl
  · exact exec_last_action (i := .istxempty c) rfl nofun ha rfl rfl
  · exact exec_last_action (i := .haschar c) rfl nofun ha rfl rfl
  · exact exec_last_action (i := .isrxempty c) rfl nofun ha rfl rfl
  · exact exec_last_action (i := .isrxfull c) rfl nofun ha rfl rfl

/-- Settles O18: the handler runs on its request, and its three outcomes are its three cases. -/
theorem transmitHandlerCompletes : Obligations.TransmitHandlerCompletes := by
  rintro s c x rfl hc hg hactive hie hhold
  have hexec := exec_evUdre_ready hc hg ((Channel.txReq_iff _).mpr ⟨hactive, hie, hhold⟩)
  have hcontrol : s.cfg.flowControl = false ∨ (s.chan c).pending = none → (s.chan c).control s.cfg = none :=
    fun h => (Channel.control_eq_none_iff _ _).mpr fun hf => h.resolve_left (by simp [hf])
  refine ⟨fun k hf hk => ?_, fun hnone hne => ?_, fun hnone he => ?_⟩
  · have hk' : (s.chan c).control s.cfg = some k := by simp [Channel.control, hf, hk]
    rw [hexec]
    simp [Channel.serveTx, hk', State.setChan]
  · have hpop : (s.chan c).tx.isEmpty = false := by simpa [Ring.isEmpty] using hne
    rw [hexec]
    simp [Channel.serveTx, hcontrol hnone, Ring.pop, hpop, State.setChan, Memory.put]
  · have hpop : (s.chan c).tx.isEmpty = true := by simpa [Ring.isEmpty] using he
    rw [hexec]
    simp [Channel.serveTx, hcontrol hnone, Ring.pop, hpop, State.setChan]

-- The receive family

/-- Settles O20: the handler runs on its request; its push attempt gives `y`, and its test is that of `y`. -/
theorem receiveHandlerCompletes : Obligations.ReceiveHandlerCompletes := by
  rintro s c b x y full rfl hc hg hactive hie hhold hfull hy
  have hreq : (s.chan c).rxReq = true := (Channel.rxReq_iff _).mpr ⟨hactive, hie, by simp [hhold]⟩
  obtain ⟨b', hb', hexec⟩ := exec_evRxc_ready hc hg hreq
  cases hhold.symm.trans hb'
  have hy' : (s.chan c).arrived s.cfg b = y := by
    have hfull' : (s.chan c).rx.isFull s.cfg.rxCapacity = full := hfull.symm
    rw [hy, Channel.arrived, hfull']
    cases full with
    | true => simp [Ring.push_of_full b hfull']
    | false => simp [Ring.push_of_not_full b hfull', Memory.put]
  have hflow : y.flowOn = (s.chan c).flowOn := by rw [hy]
  have hengine : y.txIE = (s.chan c).txIE ∧ y.txIdle = (s.chan c).txIdle := by rw [hy]; exact ⟨rfl, rfl⟩
  have hcases := (s.chan c).serveRx_arrived s.cfg b
  rw [hy', ← hflow] at hcases
  rw [hexec]
  obtain ⟨htest, e⟩ | ⟨htest, e⟩ := hcases
  · refine ⟨fun _ => ?_, fun hn => absurd htest hn⟩
    rw [e, Channel.goOff_eq, hengine.1, hengine.2]
    rfl
  · refine ⟨fun hp => absurd hp htest, fun _ => ?_⟩
    rw [e]
    rfl

/-- R204: the channel after a pop and after the pop's flow-on test. -/
theorem exec_take {i : Instr} {s : State} {c : Nat} {a : Action} (hi : i.isEvent = false)
    (hf : ∀ d on, i ≠ .setflow d on) (ha : s.actions = [a]) (hg : a.guard s = true)
    (hb : a.body s = .ok (takeByte c s)) (hne : (s.chan c).rx.isEmpty = false) :
    exec i s = .next { s with
      ch := s.ch.set c ((s.chan c).took s.cfg
        { buf := (s.chan c).rx.buf.set (s.chan c).rx.read 0,
          read := advance (s.chan c).rx.read s.cfg.rxCapacity, write := (s.chan c).rx.write })
      results := s.results ++ [.byte (Memory.get (s.chan c).rx.buf (s.chan c).rx.read)]
      actions := [], pc := s.pc + 1 } := by
  rw [exec_last_action hi hf ha hg hb]
  simp [takeByte, Ring.pop, hne, State.proceed, State.emit, State.onChan, State.setChan, Memory.put]

/-- R204, R235: what READ and READB make of a channel `x` that holds a byte, in the two cases of the flow-on
test; `y` is the channel after the pop. -/
theorem Channel.took_completes {cfg : Config} {x y : Channel} {rx : Ring}
    (hy : y = { x with rx := rx, rxCount := if cfg.flowControl then x.rxCount - 1 else x.rxCount }) :
    (cfg.flowControl = true ∧ x.flowOn = false ∧ y.rxCount ≤ cfg.flowMark → x.took cfg rx = { y with
      pending := some cfg.xonByte, flowOn := true, txIdle := false, txIE := x.txIE || x.txIdle }) ∧
    (¬ (cfg.flowControl = true ∧ x.flowOn = false ∧ y.rxCount ≤ cfg.flowMark) → x.took cfg rx = y) := by
  have hy' : y = x.taken cfg rx := hy
  subst hy'
  obtain ⟨htest, e⟩ | ⟨htest, e⟩ := x.took_taken cfg rx
  · exact ⟨fun _ => by rw [e, Channel.goOn_eq]; rfl, fun hn => absurd htest hn⟩
  · exact ⟨fun hp => absurd hp htest, fun _ => e⟩

theorem Ring.isEmpty_eq_false {r : Ring} (h : r.read ≠ r.write) : r.isEmpty = false := by
  simpa [Ring.isEmpty] using h

/-- Settles O22: READ's action always runs; the pop decides what it emits and whether flow turns On. -/
theorem readCompletes : Obligations.ReadCompletes := by
  rintro s c x y rfl hy
  obtain ⟨hon, hkeep⟩ := Channel.took_completes hy
  refine ⟨exec_fetch_own (i := .read c) rfl rfl nofun (.inr nofun) rfl, fun ha he => ?_, fun ha hne htest => ?_,
    fun ha hne htest => ?_⟩
  · have hempty : (s.chan c).rx.isEmpty = true := by simpa [Ring.isEmpty] using he
    rw [exec_last_action (i := .read c) rfl nofun ha rfl rfl]
    simp [readBody, takeByte, Ring.pop, hempty, State.proceed, State.emit]
  · rw [exec_take (i := .read c) rfl nofun ha rfl rfl (Ring.isEmpty_eq_false hne), hon htest]
  · rw [exec_take (i := .read c) rfl nofun ha rfl rfl (Ring.isEmpty_eq_false hne), hkeep htest]

/-- Settles O23: READB's guard is that the ring holds a byte, and then it does what READ does. -/
theorem readbCompletes : Obligations.ReadbCompletes := by
  rintro s c x y rfl hy
  obtain ⟨hon, hkeep⟩ := Channel.took_completes hy
  have hguard : (s.chan c).rx.read ≠ (s.chan c).rx.write → (Action.readb c).guard s = true := fun hne => by
    simp [Action.guard, readbGuard, Ring.isEmpty_eq_false hne]
  refine ⟨exec_fetch_own (i := .readb c) rfl rfl nofun (.inr nofun) rfl, fun ha he => ?_, fun ha hne htest => ?_,
    fun ha hne htest => ?_⟩
  · exact exec_spins rfl (.inr nofun) ha (by simp [Action.guard, readbGuard, Ring.isEmpty, he])
  · rw [exec_take (i := .readb c) rfl nofun ha (hguard hne) rfl (Ring.isEmpty_eq_false hne), hon htest]
  · rw [exec_take (i := .readb c) rfl nofun ha (hguard hne) rfl (Ring.isEmpty_eq_false hne), hkeep htest]

-- Flow control

/-- Settles O24: both actions wait for the slot; the first queues, by either transition. -/
theorem setflowCompletes : Obligations.SetflowCompletes := by
  intro s c on hf
  refine ⟨exec_fetch_own (i := .setflow c on) rfl rfl nofun (.inl hf) rfl, fun ha hslot => ?_, fun ha hslot => ?_,
    fun ha hslot => ?_⟩
  · rw [exec_fires (i := .setflow c on) rfl (.inl hf) ha (by simp [Action.guard, flowQueueGuard, hslot]) rfl,
      flowQueueBody, State.onChan_proceed]
    cases on
    · simp [Channel.goOff_eq]
    · simp [Channel.goOn_eq]
  · rw [exec_fires (i := .setflow c on) rfl (.inl hf) ha (by simp [Action.guard, flowServedGuard, hslot]) rfl]
    rfl
  · obtain ha | ha := ha
    · exact exec_spins rfl (.inl hf) ha (by simpa [Action.guard, flowQueueGuard, Option.isSome_iff_ne_none] using hslot)
    · exact exec_spins rfl (.inl hf) ha (by simpa [Action.guard, flowServedGuard, Option.isSome_iff_ne_none] using hslot)

-- The lifecycle

/-- Settles O31: the prologue asks for no active channel, and the body refuses an active one. -/
theorem initCompletes : Obligations.InitCompletes := by
  rintro s c baud x rfl
  refine ⟨fun ha hc => ?_, fun ha hx => ?_, fun ha hx => ?_⟩
  · have hplan : s.initPrologue c (initActions c baud) = .ok [.init c baud] := if_pos hc
    rw [exec, execInit, hplan, State.command_fetch ha]
    rfl
  · have hbody : (Action.init c baud).body s = .ok (s.onChan c (Channel.opened s.cfg baud)) := by
      simp [Action.body, initBody, hx]
    rw [exec_last_action (i := .init c baud) rfl nofun ha rfl hbody, State.onChan_proceed, Channel.opened_eq]
    rfl
  · rw [exec_inside (i := .init c baud) rfl ha (.inr nofun)]
    simp [State.perform, Action.guard, Action.body, initBody, hx]

/-- Settles O32: the guard is that the engine is Idle. -/
theorem closeCompletes : Obligations.CloseCompletes := by
  rintro s c x rfl
  refine ⟨exec_fetch_own (i := .close c) rfl rfl nofun (.inr nofun) rfl, fun ha hidle => ?_, fun ha hidle => ?_⟩
  · rw [exec_last_action (i := .close c) rfl nofun ha hidle rfl, closeBody, State.onChan_proceed,
      Channel.closed_eq]
    rfl
  · exact exec_spins rfl (.inr nofun) ha hidle

end Sys2Proof.Machine
end

section
/-! PROOFS. Runs of several steps: a masked wait never ends, and a Draining engine drains in one invocation
more than it has bytes (`70_reset_and_hazards.md` R335 and R345). -/

namespace Sys2Proof.Machine

-- Runs

theorem run_zero (s : State) : Sys2Proof.core.run 0 s = .next s := rfl

theorem run_succ {s t : State} (n : Nat) (h : step s = .next t) :
    Sys2Proof.core.run (n + 1) s = Sys2Proof.core.run n t := by
  have hstep : Sys2Proof.core.step s = .next t := h
  simp only [Host.Core.run, hstep]

/-- A run that answers a next state after a step took that step. -/
theorem run_succ_next {s t : State} {n : Nat} (h : Sys2Proof.core.run (n + 1) s = .next t) :
    ∃ u, step s = .next u ∧ Sys2Proof.core.run n u = .next t := by
  cases hs : step s with
  | next u => exact ⟨u, rfl, (run_succ n hs).symm.trans h⟩
  | fault f =>
    have hstep : Sys2Proof.core.step s = .fault f := hs
    simp [Host.Core.run, hstep] at h
  | refused r =>
    have hstep : Sys2Proof.core.step s = .refused r := hs
    simp [Host.Core.run, hstep] at h

-- Masked waits

/-- What the guards read of a channel is the same in `x` and `y`. -/
def Channel.SameGuards (x y : Channel) : Prop :=
  y.tx = x.tx ∧ y.rx = x.rx ∧ y.pending = x.pending ∧ y.txIdle = x.txIdle

theorem Action.guard_congr (a : Action) {s t : State} (hcfg : t.cfg = s.cfg)
    (h : ∀ c, (s.chan c).SameGuards (t.chan c)) : a.guard t = a.guard s := by
  cases a with
  | close c | flowQueue c _ | flowServed c | readb c | write c _ | digit c _ =>
    obtain ⟨htx, hrx, hpending, hidle⟩ := h c
    simp only [Action.guard, closeGuard, flowQueueGuard, flowServedGuard, readbGuard, writeGuard, digitGuard,
      hcfg, htx, hrx, hpending, hidle]
  | _ => rfl

/-- R305, R306: the lines do not touch what the guards read. -/
theorem EventUpdate.sameGuards {cfg : Config} {i : Instr} {x y : Channel} (h : EventUpdate cfg i x y)
    (hrxc : ∀ c, i ≠ .evRxc c) (hudre : ∀ c, i ≠ .evUdre c) : x.SameGuards y := by
  cases h with
  | evRxc c => exact absurd rfl (hrxc c)
  | evUdre c => exact absurd rfl (hudre c)
  | lineRx c b =>
    obtain ⟨hold, arrived, e⟩ := x.lineRx_frame cfg b
    rw [e]
    exact ⟨rfl, rfl, rfl, rfl⟩
  | lineTx c => exact ⟨rfl, rfl, rfl, rfl⟩

/-- R335: with the flag clear, `s` waits for a guard that is false, and `t` waits just there. -/
structure State.StillWaits (a : Action) (s t : State) : Prop where
  actions : t.actions = s.actions
  pc : t.pc = s.pc
  flag : t.gie = false
  guard : a.guard t = false
  results : t.results = s.results

/-- R335: with the flag clear an event is a line's, and leaves the wait as it is. -/
theorem exec_event_stillWaits {i : Instr} {a : Action} {s t : State} (hi : i.isEvent = true)
    (hg : s.gie = false) (hguard : a.guard s = false) (h : exec i s = .next t) : s.StillWaits a t := by
  have hrxc : ∀ c, i ≠ .evRxc c := fun c e => by
    obtain ⟨-, hgie, -⟩ := execEvRxc_next (e ▸ h)
    exact absurd (hgie.symm.trans hg) nofun
  have hudre : ∀ c, i ≠ .evUdre c := fun c e => by
    obtain ⟨-, hgie, -⟩ := execEvUdre_next (e ▸ h)
    exact absurd (hgie.symm.trans hg) nofun
  have hchan : ∀ c, (s.chan c).SameGuards (t.chan c) := fun c => by
    obtain e | ⟨-, hu⟩ := exec_event_chan hi h c
    · rw [e]
      exact ⟨rfl, rfl, rfl, rfl⟩
    · exact hu.sameGuards hrxc hudre
  obtain ⟨c, f, -, -, rfl⟩ := exec_event_next hi h
  exact ⟨rfl, rfl, hg, (a.guard_congr (s := s) (t := s.onChan c f) rfl hchan).trans hguard, rfl⟩

/-- R335: one step of any agent leaves a masked wait as it is. -/
theorem step_stillWaits {a : Action} {rest : List Action} {s t : State} (hg : s.gie = false)
    (ha : s.actions = a :: rest) (hguard : a.guard s = false) (h : step s = .next t) : s.StillWaits a t := by
  obtain ⟨-, -, turn, u, hn, ht⟩ := step_next h
  have hevent := fun i (e : turn = .event i) => State.nextTurn_event (e ▸ hn)
  obtain ⟨schedule, draws, rfl⟩ := State.nextTurn_ok hn
  have hguard' : a.guard { s with schedule := schedule, draws := draws } = false :=
    (a.guard_congr (s := s) rfl fun c => ⟨rfl, rfl, rfl, rfl⟩).trans hguard
  cases turn with
  | foreground =>
    obtain ⟨a', rest', ha', hp⟩ | ⟨hnil, -⟩ := foregroundStep_next ht
    · cases ha.symm.trans ha'
      cases (State.perform_spins hguard').symm.trans hp
      exact ⟨rfl, rfl, hg, hguard', rfl⟩
    · exact absurd (ha.symm.trans hnil) nofun
  | event i =>
    obtain ⟨hactions, hpc, hflag, hguard'', hresults⟩ :=
      exec_event_stillWaits (s := { s with schedule := schedule, draws := draws }) (hevent i rfl) hg hguard' ht
    exact ⟨hactions, hpc, hflag, hguard'', hresults⟩

/-- Settles O56, by induction on the number of steps. -/
theorem maskedWaitsNeverEnd : Obligations.MaskedWaitsNeverEnd := by
  intro n
  induction n with
  | zero =>
    intro s t a rest hg ha hguard h
    cases (run_zero s).symm.trans h
    exact ⟨rfl, rfl, hg, hguard, rfl⟩
  | succ n ih =>
    intro s t a rest hg ha hguard h
    obtain ⟨u, hu, hrun⟩ := run_succ_next h
    obtain ⟨hactions, hpc, hflag, hguard', hresults⟩ := step_stillWaits hg ha hguard hu
    obtain ⟨hactions', hpc', hflag', hguard'', hresults'⟩ :=
      ih u t a rest hflag (hactions.trans ha) hguard' hrun
    exact ⟨hactions'.trans hactions, hpc'.trans hpc, hflag', hguard'', hresults'.trans hresults⟩

-- Draining

/-- R115: the word of an event of a channel of the block decodes to it in a schedule. -/
theorem decodeScheduleWord_encode {cfg : Config} {i : Instr} {c : Nat} (hi : i.isEvent = true)
    (hwf : i.wf = true) (hch : chField (encode i) = c) (hc : c < cfg.channelCount) :
    decodeScheduleWord cfg (encode i) = .ok i := by
  obtain ⟨r, hrow, hbuild⟩ := exists_row_of_encode hwf
  obtain ⟨hr, hop⟩ := opRow?_eq_some_iff.mp hrow
  have hev : r.event = true := by rw [← build_isEvent r hr, hbuild, hi]
  obtain ⟨-, hok, -⟩ | ⟨hres, -⟩ := OpRow.operands_cases hr hop
  · rw [hbuild] at hok
    rw [decodeScheduleWord_of_ok cfg hrow hev hok, if_pos (hch ▸ hc)]
  · exact absurd (reservedZero_encode i) hres

/-- R9: a channel of an admitted block fits the field `ch`. -/
theorem channelFits_of_lt {cfg : Config} (hv : cfg.valid = true) {c : Nat} (hc : c < cfg.channelCount) :
    channelFits (some c) = true := by
  obtain ⟨hvalid, -⟩ := invalidConfigurationIsRefused
  obtain ⟨⟨-, hcount⟩, -⟩ := (hvalid cfg).mp hv
  exact decide_eq_true (by omega)

/-- `t` is `s` with its schedule's first entry taken off and with `x` as channel `c`. -/
structure State.TookEvent (s : State) (c : Nat) (rest : List Entry) (x : Channel) (t : State) : Prop where
  step : step s = .next t
  inv : t.Inv
  chan : t.chan c = x
  flag : t.gie = s.gie
  config : t.cfg = s.cfg
  schedule : t.schedule = rest

section
variable {s : State} {c : Nat} (hs : s.Inv) (hc : c < s.cfg.channelCount)
include hs hc

theorem State.tookEvent_of_step {rest : List Entry} {x : Channel}
    (h : Machine.step s = .next (State.setChan { s with schedule := rest } c x)) :
    ∃ t, s.TookEvent c rest x t :=
  ⟨_, h, hs.step h, State.chan_setChan_same _ c x (hs.count ▸ hc), rfl, rfl, rfl⟩

/-- A scheduled EV_UDRE on its request is one step. -/
theorem step_scheduled_evUdre {rest : List Entry} (hsched : s.schedule = .event (encode (.evUdre c)) :: rest)
    (hg : s.gie = true) (hreq : (s.chan c).txReq = true) :
    ∃ t, s.TookEvent c rest ((s.chan c).serveTx s.cfg) t := by
  have hwf : (Instr.evUdre c).wf = true := channelFits_of_lt hs.config hc
  obtain ⟨-, hch⟩ := Laws.Fields.evUdre c hwf
  refine State.tookEvent_of_step hs hc ?_
  rw [step_scheduled hs.running hs.config hsched (Entry.turn_event_ok (decodeScheduleWord_encode rfl hwf hch hc))]
  exact exec_evUdre_ready (s := { s with schedule := rest }) hc hg hreq

/-- A scheduled LINE_TX on a full data register is one step. -/
theorem step_scheduled_lineTx {rest : List Entry} (hsched : s.schedule = .event (encode (.lineTx c)) :: rest)
    (hready : (s.chan c).lineTxReady = true) : ∃ t, s.TookEvent c rest (s.chan c).lineTx t := by
  have hwf : (Instr.lineTx c).wf = true := channelFits_of_lt hs.config hc
  obtain ⟨-, hch⟩ := Laws.Fields.lineTx c hwf
  refine State.tookEvent_of_step hs hc ?_
  rw [step_scheduled hs.running hs.config hsched (Entry.turn_event_ok (decodeScheduleWord_encode rfl hwf hch hc))]
  exact exec_lineTx_ready (s := { s with schedule := rest }) hc hready

end

/-- R345: channel `c` is active and Draining with an empty data register, and has `n` bytes to send. -/
structure State.Draining (s : State) (c n : Nat) : Prop where
  inv : s.Inv
  channel : c < s.cfg.channelCount
  flag : s.gie = true
  active : (s.chan c).active = true
  engine : (s.chan c).txIdle = false
  hold : (s.chan c).txHold = none
  bytes : ((s.chan c).sent s.cfg).length = (s.chan c).txWire.length + n

/-- R48: a Draining engine with an empty data register requests its handler. -/
theorem State.Draining.txReq {s : State} {c n : Nat} (h : s.Draining c n) : (s.chan c).txReq = true := by
  have hidle := ((h.inv.chan h.channel).opened h.active).idle
  exact (Channel.txReq_iff _).mpr ⟨h.active, by simpa [h.engine] using hidle, h.hold⟩

theorem Channel.sent_of_hold_none {cfg : Config} {x : Channel} (h : x.txHold = none) :
    x.sent cfg = x.txWire ++ ((x.control cfg).toList ++ x.tx.contents cfg.txCapacity) := by
  simp [Channel.sent, h]

/-- R170: with nothing to send the handler makes the engine Idle and leaves the wire. -/
theorem Channel.serveTx_of_none {cfg : Config} {x : Channel} (htx : x.tx.InRange cfg.txCapacity)
    (hhold : x.txHold = none) (hbytes : (x.sent cfg).length = x.txWire.length) :
    (x.serveTx cfg).txIdle = true ∧ (x.serveTx cfg).txWire = x.sent cfg := by
  have hnothing : (x.control cfg).toList ++ x.tx.contents cfg.txCapacity = [] := by
    rw [Channel.sent_of_hold_none hhold, List.length_append] at hbytes
    exact List.length_eq_zero_iff.mp (by omega)
  obtain ⟨k, hk, -⟩ | ⟨-, b, tx, hpop, -⟩ | ⟨-, -, e⟩ := x.serveTx_cases cfg
  · simp [hk] at hnothing
  · simp [Ring.pop_contents htx hpop] at hnothing
  · rw [e, Channel.sent_of_hold_none hhold, hnothing, List.append_nil]
    exact ⟨rfl, rfl⟩

/-- R170: with a byte to send the handler puts it into the data register and keeps on Draining. -/
theorem Channel.serveTx_of_some {cfg : Config} {x : Channel} (hrange : x.tx.InRange cfg.txCapacity)
    (hhold : x.txHold = none) {n : Nat} (hbytes : (x.sent cfg).length = x.txWire.length + (n + 1)) :
    (x.serveTx cfg).txIdle = x.txIdle ∧ (x.serveTx cfg).txWire = x.txWire ∧
    (x.serveTx cfg).active = x.active ∧ (x.serveTx cfg).txEn = x.txEn ∧
    ∃ b, (x.serveTx cfg).txHold = some b := by
  obtain ⟨k, -, e⟩ | ⟨-, b, tx, -, e⟩ | ⟨hk, hpop, -⟩ := x.serveTx_cases cfg
  · rw [e]
    exact ⟨rfl, rfl, rfl, rfl, k, rfl⟩
  · rw [e]
    exact ⟨rfl, rfl, rfl, rfl, b, rfl⟩
  · have hempty := (x.tx.pop_eq_none_iff _).mp hpop
    rw [Channel.sent_of_hold_none hhold, hk, Ring.contents_of_empty hrange hempty] at hbytes
    simp at hbytes

/-- R345: one handler invocation and one line step put a byte on the wire and leave one byte less to send. -/
theorem State.Draining.round {s : State} {c n : Nat} (h : s.Draining c (n + 1)) {rest : List Entry}
    (hsched : s.schedule = .event (encode (.evUdre c)) :: .event (encode (.lineTx c)) :: rest) :
    ∃ u t, step s = .next u ∧ (u.chan c).txIdle = false ∧ step u = .next t ∧ t.Draining c n ∧
      t.schedule = rest ∧ (t.chan c).sent t.cfg = (s.chan c).sent s.cfg := by
  have hreq := h.txReq
  obtain ⟨hinv, hc, hg, hactive, hengine, hhold, hbytes⟩ := h
  have hx := hinv.chan hc
  obtain ⟨-, hen, -⟩ := (hx.opened hactive).enables
  obtain ⟨hidle, hwire, hactive', hen', b, hb⟩ := Channel.serveTx_of_some hx.txRange hhold hbytes
  obtain ⟨u, hstep, hinvU, hchanU, hgU, hcfgU, hschedU⟩ := step_scheduled_evUdre hinv hc hsched hg hreq
  rw [← hchanU] at hidle hwire hactive' hen' hb
  have hready : (u.chan c).lineTxReady = true :=
    Channel.lineTxReady_of_full (hactive'.trans hactive) (hen'.trans hen) hb
  obtain ⟨t, hstep', hinvT, hchanT, hgT, hcfgT, hschedT⟩ :=
    step_scheduled_lineTx hinvU (hcfgU ▸ hc) hschedU hready
  have hcfg : t.cfg = s.cfg := hcfgT.trans hcfgU
  have hsent : (t.chan c).sent t.cfg = (s.chan c).sent s.cfg := by
    rw [hcfg, hchanT, Channel.lineTx_sent, hchanU, Channel.serveTx_sent hx.txRange hhold]
  rw [Channel.lineTx_of_full hb] at hchanT
  refine ⟨u, t, hstep, hidle.trans hengine, hstep', ⟨hinvT, hcfg ▸ hc, ?_, ?_, ?_, ?_, ?_⟩, hschedT, hsent⟩
  · exact (hgT.trans hgU).trans hg
  · rw [hchanT]; exact hactive'.trans hactive
  · rw [hchanT]; exact hidle.trans hengine
  · rw [hchanT]
  · rw [hsent, hbytes, hchanT, List.length_append, hwire, List.length_singleton]
    omega

/-- R345: with nothing left to send, one invocation makes the engine Idle. -/
theorem State.Draining.last {s : State} {c : Nat} (h : s.Draining c 0) {rest : List Entry}
    (hsched : s.schedule = .event (encode (.evUdre c)) :: rest) :
    ∃ t, step s = .next t ∧ (t.chan c).txIdle = true ∧ (t.chan c).txWire = (s.chan c).sent s.cfg := by
  have hreq := h.txReq
  obtain ⟨hinv, hc, hg, hactive, hengine, hhold, hbytes⟩ := h
  obtain ⟨t, hstep, -, hchan, -⟩ := step_scheduled_evUdre hinv hc hsched hg hreq
  obtain ⟨hidle, hwire⟩ := Channel.serveTx_of_none (hinv.chan hc).txRange hhold hbytes
  exact ⟨t, hstep, hchan ▸ hidle, hchan ▸ hwire⟩

/-- R345, by induction on the number of bytes. -/
theorem State.Draining.run {c n : Nat} {s : State} (h : s.Draining c n) {rest : List Entry}
    (hsched : s.schedule = drainSchedule c n ++ rest) :
    (∀ k, k ≤ 2 * n → ∃ u, Sys2Proof.core.run k s = .next u ∧ (State.chan u c).txIdle = false) ∧
    ∃ t, Sys2Proof.core.run (2 * n + 1) s = .next t ∧ (State.chan t c).txIdle = true ∧
      (State.chan t c).txWire = (s.chan c).sent s.cfg := by
  induction n generalizing s with
  | zero =>
    refine ⟨fun k hk => ?_, ?_⟩
    · rw [Nat.le_zero.mp hk]
      exact ⟨s, run_zero s, h.engine⟩
    · obtain ⟨t, hstep, hend⟩ := h.last hsched
      exact ⟨t, (run_succ 0 hstep).trans (run_zero t), hend⟩
  | succ n ih =>
    obtain ⟨u, t, hu, hidle, ht, hdrain, hschedT, hsent⟩ := h.round hsched
    obtain ⟨hbefore, t', hrun, hend⟩ := ih hdrain hschedT
    rw [hsent] at hend
    have htwo : ∀ k, Sys2Proof.core.run (k + 1 + 1) s = Sys2Proof.core.run k t := fun k =>
      (run_succ (k + 1) hu).trans (run_succ k ht)
    refine ⟨fun k hk => ?_, t', (htwo (2 * n + 1)).trans hrun, hend⟩
    match k with
    | 0 => exact ⟨s, run_zero s, h.engine⟩
    | 1 => exact ⟨u, (run_succ 0 hu).trans (run_zero u), hidle⟩
    | k + 2 =>
      obtain ⟨v, hv, hidle'⟩ := hbefore k (by omega)
      exact ⟨v, (htwo k).trans hv, hidle'⟩

theorem Channel.txWire_length_le_sent (cfg : Config) (x : Channel) :
    x.txWire.length ≤ (x.sent cfg).length := by
  simp [Channel.sent]

/-- Settles O57: the hypotheses are those of a Draining channel with `n` bytes to send. -/
theorem drainingTakesOneInvocationMore : Obligations.DrainingTakesOneInvocationMore := by
  intro n c s rest hinv hc hg hactive hengine hhold hn hsched
  have hle := (s.chan c).txWire_length_le_sent s.cfg
  exact State.Draining.run ⟨hinv, hc, hg, hactive, hengine, hhold, by omega⟩ hsched

end Sys2Proof.Machine
end

section
/-! PROOFS. Two states that differ only in what power-on leaves unspecified take the same step
(`10_state.md` R47, `40_ringbuffer.md` R147). -/

namespace Sys2Proof.Machine

-- Rings

/-- Two rings with the same cursors and the same bytes held; the slots that hold none may differ. -/
structure Ring.Alike (C : Nat) (r r' : Ring) : Prop where
  read : r.read = r'.read
  write : r.write = r'.write
  contents : r.contents C = r'.contents C

section
variable {C : Nat} {r r' : Ring}

theorem Ring.Alike.isFull (h : r.Alike C r') : r.isFull C = r'.isFull C := by
  rw [Ring.isFull, Ring.isFull, h.read, h.write]

theorem Ring.Alike.isEmpty (h : r.Alike C r') : r.isEmpty = r'.isEmpty := by
  rw [Ring.isEmpty, Ring.isEmpty, h.read, h.write]

theorem Ring.Alike.push (h : r.Alike C r') (hr : r.InRange C) (hr' : r'.InRange C) (b : Byte) :
    (r.push C b).2.Alike C (r'.push C b).2 := by
  have hfull := h.isFull
  cases hf : r.isFull C with
  | true =>
    rw [hf] at hfull
    rw [Ring.push_of_full b hf, Ring.push_of_full b hfull.symm]
    exact h
  | false =>
    rw [hf] at hfull
    refine ⟨by rw [r.push_read, r'.push_read, h.read], ?_, ?_⟩
    · rw [Ring.push_of_not_full b hf, Ring.push_of_not_full b hfull.symm, h.write]
    · rw [Ring.push_contents hr b hf, Ring.push_contents hr' b hfull.symm, h.contents]

/-- Two such rings pop the same byte, and are such rings again. -/
theorem Ring.Alike.pop (h : r.Alike C r') (hr : r.InRange C) (hr' : r'.InRange C) :
    (r.pop C = none ∧ r'.pop C = none) ∨
    ∃ b q q', r.pop C = some (b, q) ∧ r'.pop C = some (b, q') ∧ q.Alike C q' := by
  have hempty := h.isEmpty
  obtain ⟨he, e⟩ | ⟨he, e⟩ := r.pop_cases C
  · exact .inl ⟨e, (r'.pop_eq_none_iff C).mpr (hempty ▸ he)⟩
  · obtain ⟨he', -⟩ | ⟨-, e'⟩ := r'.pop_cases C
    · exact absurd (he.symm.trans (hempty.trans he')) nofun
    · have hc := h.contents
      rw [Ring.pop_contents hr e, Ring.pop_contents hr' e'] at hc
      obtain ⟨hb, hrest⟩ := List.cons_eq_cons.mp hc
      rw [← hb] at e'
      exact .inr ⟨_, _, _, e, e', by dsimp only; rw [h.read], h.write, hrest⟩

end

-- Channels

/-- What `Channel.Alike` says of two active channels: they differ at most in the slots that hold no byte and,
without flow control, in the flow fields. -/
structure Channel.AlikeOpen (cfg : Config) (x y : Channel) : Prop where
  active : x.active = true ∧ y.active = true
  rxEn : x.rxEn = y.rxEn
  txEn : x.txEn = y.txEn
  rxIE : x.rxIE = y.rxIE
  txIE : x.txIE = y.txIE
  txHold : x.txHold = y.txHold
  rxHold : x.rxHold = y.rxHold
  txWire : x.txWire = y.txWire
  rxArrived : x.rxArrived = y.rxArrived
  rx : x.rx.Alike cfg.rxCapacity y.rx
  tx : x.tx.Alike cfg.txCapacity y.tx
  txIdle : x.txIdle = y.txIdle
  baud : x.baud = y.baud
  charSize : x.charSize = y.charSize
  flowOn : cfg.flowControl = true → x.flowOn = y.flowOn
  pending : cfg.flowControl = true → x.pending = y.pending
  rxCount : cfg.flowControl = true → x.rxCount = y.rxCount

section
variable {cfg : Config} {x y : Channel}

theorem Channel.Alike.toOpen (h : x.Alike cfg y) (ha : x.active = true) : x.AlikeOpen cfg y := by
  obtain ⟨hactive, ⟨hrxEn, htxEn, hrxIE, htxIE⟩, ⟨htxHold, hrxHold⟩, ⟨hwire, harrived⟩, hcursors, hcontents,
    hengine, hflow⟩ := h
  obtain ⟨hrxRead, hrxWrite, htxRead, htxWrite⟩ := hcursors ha
  obtain ⟨hrx, htx⟩ := hcontents ha
  obtain ⟨hidle, hbaud, hsize⟩ := hengine ha
  exact ⟨⟨ha, hactive ▸ ha⟩, hrxEn, htxEn, hrxIE, htxIE, htxHold, hrxHold, hwire, harrived,
    ⟨hrxRead, hrxWrite, hrx⟩, ⟨htxRead, htxWrite, htx⟩, hidle, hbaud, hsize, fun hf => (hflow ha hf).1,
    fun hf => (hflow ha hf).2.1, fun hf => (hflow ha hf).2.2⟩

namespace Channel.AlikeOpen

theorem alike (h : x.AlikeOpen cfg y) : x.Alike cfg y :=
  ⟨h.active.1.trans h.active.2.symm, ⟨h.rxEn, h.txEn, h.rxIE, h.txIE⟩, ⟨h.txHold, h.rxHold⟩,
    ⟨h.txWire, h.rxArrived⟩, fun _ => ⟨h.rx.read, h.rx.write, h.tx.read, h.tx.write⟩,
    fun _ => ⟨h.rx.contents, h.tx.contents⟩, fun _ => ⟨h.txIdle, h.baud, h.charSize⟩,
    fun _ hf => ⟨h.flowOn hf, h.pending hf, h.rxCount hf⟩⟩

theorem control (h : x.AlikeOpen cfg y) : x.control cfg = y.control cfg := by
  unfold Channel.control
  split
  · next hf => exact h.pending hf
  · rfl

theorem goOff (h : x.AlikeOpen cfg y) : (x.goOff cfg).AlikeOpen cfg (y.goOff cfg) := by
  rw [Channel.goOff_eq, Channel.goOff_eq]
  exact { h with
    flowOn := fun _ => rfl, pending := fun _ => rfl, txIdle := rfl, txIE := congrArg₂ or h.txIE h.txIdle }

theorem goOn (h : x.AlikeOpen cfg y) : (x.goOn cfg).AlikeOpen cfg (y.goOn cfg) := by
  rw [Channel.goOn_eq, Channel.goOn_eq]
  exact { h with
    flowOn := fun _ => rfl, pending := fun _ => rfl, txIdle := rfl, txIE := congrArg₂ or h.txIE h.txIdle }

theorem send (h : x.AlikeOpen cfg y) (hx : x.Inv cfg) (hy : y.Inv cfg) (b : Byte) :
    (x.send cfg b).AlikeOpen cfg (y.send cfg b) := by
  rw [Channel.send_eq, Channel.send_eq]
  exact { h with
    tx := h.tx.push hx.txRange hy.txRange b, txIdle := rfl, txIE := congrArg₂ or h.txIE h.txIdle }

theorem serveRx (h : x.AlikeOpen cfg y) (hx : x.Inv cfg) (hy : y.Inv cfg) (b : Byte) :
    (x.serveRx cfg b).AlikeOpen cfg (y.serveRx cfg b) := by
  have hcount : cfg.flowControl = true → (x.arrived cfg b).rxCount = (y.arrived cfg b).rxCount := fun hf => by
    simp [Channel.arrived, hf, h.rx.isFull, h.rxCount hf]
  have harrived : (x.arrived cfg b).AlikeOpen cfg (y.arrived cfg b) :=
    { h with rx := h.rx.push hx.rxRange hy.rxRange b, rxHold := rfl, rxCount := hcount }
  obtain ⟨⟨hf, hflow, hhigh⟩, e⟩ | ⟨htest, e⟩ := x.serveRx_arrived cfg b
  · obtain ⟨-, e'⟩ | ⟨htest', -⟩ := y.serveRx_arrived cfg b
    · rw [e, e']
      exact harrived.goOff
    · exact absurd ⟨hf, h.flowOn hf ▸ hflow, hcount hf ▸ hhigh⟩ htest'
  · obtain ⟨⟨hf, hflow, hhigh⟩, -⟩ | ⟨-, e'⟩ := y.serveRx_arrived cfg b
    · exact absurd ⟨hf, h.flowOn hf ▸ hflow, hcount hf ▸ hhigh⟩ htest
    · rw [e, e']
      exact harrived

theorem took (h : x.AlikeOpen cfg y) {rx rx' : Ring} (hrx : rx.Alike cfg.rxCapacity rx') :
    (x.took cfg rx).AlikeOpen cfg (y.took cfg rx') := by
  have hcount : cfg.flowControl = true → (x.taken cfg rx).rxCount = (y.taken cfg rx').rxCount := fun hf => by
    simp [Channel.taken, hf, h.rxCount hf]
  have htaken : (x.taken cfg rx).AlikeOpen cfg (y.taken cfg rx') := { h with rx := hrx, rxCount := hcount }
  obtain ⟨⟨hf, hflow, hlow⟩, e⟩ | ⟨htest, e⟩ := x.took_taken cfg rx
  · obtain ⟨-, e'⟩ | ⟨htest', -⟩ := y.took_taken cfg rx'
    · rw [e, e']
      exact htaken.goOn
    · exact absurd ⟨hf, h.flowOn hf ▸ hflow, hcount hf ▸ hlow⟩ htest'
  · obtain ⟨⟨hf, hflow, hlow⟩, -⟩ | ⟨-, e'⟩ := y.took_taken cfg rx'
    · exact absurd ⟨hf, h.flowOn hf ▸ hflow, hcount hf ▸ hlow⟩ htest
    · rw [e, e']
      exact htaken

theorem serveTx (h : x.AlikeOpen cfg y) (hx : x.Inv cfg) (hy : y.Inv cfg) :
    (x.serveTx cfg).AlikeOpen cfg (y.serveTx cfg) := by
  have hk := h.control
  unfold Channel.serveTx
  rw [← hk]
  cases x.control cfg with
  | some k => exact { h with txHold := rfl, pending := fun _ => rfl }
  | none =>
    obtain ⟨e, e'⟩ | ⟨b, q, q', e, e', hq⟩ := h.tx.pop hx.txRange hy.txRange
    · rw [e, e']
      exact { h with txIE := rfl, txIdle := rfl }
    · rw [e, e']
      exact { h with txHold := rfl, tx := hq }

theorem lineRx (h : x.AlikeOpen cfg y) (b : Byte) : (x.lineRx cfg b).AlikeOpen cfg (y.lineRx cfg b) := by
  have harrived : x.rxArrived ++ [b] = y.rxArrived ++ [b] := congrArg (· ++ [b]) h.rxArrived
  by_cases htakes : x.rxHold = none ∨ cfg.rxOverrunPolicy = .overwrite
  · rw [Channel.lineRx_takes b htakes, Channel.lineRx_takes b (h.rxHold ▸ htakes)]
    exact { h with rxArrived := harrived, rxHold := rfl }
  · obtain ⟨htakes', -⟩ | ⟨-, -, e⟩ := x.lineRx_cases cfg b
    · exact absurd htakes' htakes
    · obtain ⟨htakes', -⟩ | ⟨-, -, e'⟩ := y.lineRx_cases cfg b
      · exact absurd (h.rxHold ▸ htakes') htakes
      · rw [e, e']
        exact { h with rxArrived := harrived }

theorem lineTx (h : x.AlikeOpen cfg y) : x.lineTx.AlikeOpen cfg y.lineTx :=
  { h with txWire := congrArg₂ (· ++ ·) h.txWire (congrArg _ h.txHold), txHold := rfl }

end Channel.AlikeOpen

/-- R262: INIT writes all that power-on leaves unspecified but the slots, which hold no byte after it. -/
theorem Channel.Alike.opened (h : x.Alike cfg y) (baud : Half) :
    (x.opened cfg baud).Alike cfg (y.opened cfg baud) := by
  rw [Channel.opened_eq, Channel.opened_eq]
  exact ⟨rfl, ⟨rfl, rfl, rfl, rfl⟩, ⟨rfl, rfl⟩, h.traces, fun _ => ⟨rfl, rfl, rfl, rfl⟩,
    fun _ => ⟨by simp only [Ring.contents_emptied], by simp only [Ring.contents_emptied]⟩,
    fun _ => ⟨rfl, rfl, rfl⟩, fun _ hf => by simp [hf]⟩

theorem Channel.Alike.closed (h : x.Alike cfg y) : (x.closed cfg).Alike cfg (y.closed cfg) := by
  rw [Channel.closed_eq, Channel.closed_eq]
  exact ⟨rfl, ⟨rfl, rfl, rfl, rfl⟩, ⟨rfl, rfl⟩, h.traces, nofun, nofun, nofun, nofun⟩

/-- R291: the receive request does not look at what power-on leaves unspecified. -/
theorem Channel.Alike.rxReq (h : x.Alike cfg y) : x.rxReq = y.rxReq := by
  obtain ⟨hactive, ⟨-, -, hrxIE, -⟩, ⟨-, hrxHold⟩, -⟩ := h
  rw [Channel.rxReq, Channel.rxReq, Channel.rxc, Channel.rxc, hactive, hrxIE, hrxHold]

theorem Channel.Alike.txReq (h : x.Alike cfg y) : x.txReq = y.txReq := by
  obtain ⟨hactive, ⟨-, -, -, htxIE⟩, ⟨htxHold, -⟩, -⟩ := h
  rw [Channel.txReq, Channel.txReq, Channel.dre, Channel.dre, hactive, htxIE, htxHold]

theorem Channel.Alike.lineRxReady (h : x.Alike cfg y) : x.lineRxReady = y.lineRxReady := by
  obtain ⟨hactive, ⟨hrxEn, -⟩, -⟩ := h
  rw [Channel.lineRxReady, Channel.lineRxReady, hactive, hrxEn]

theorem Channel.Alike.lineTxReady (h : x.Alike cfg y) : x.lineTxReady = y.lineTxReady := by
  obtain ⟨hactive, ⟨-, htxEn, -⟩, ⟨htxHold, -⟩, -⟩ := h
  rw [Channel.lineTxReady, Channel.lineTxReady, hactive, htxEn, htxHold]

end

-- States

section
variable {s t : State}

theorem State.Alike.onChan (h : s.Alike t) (hs : s.Inv) {c : Nat} (hc : c < s.cfg.channelCount)
    {f g : Channel → Channel} (hfg : (f (s.chan c)).Alike s.cfg (g (t.chan c))) :
    (s.onChan c f).Alike (t.onChan c g) := by
  refine ⟨h.config, by simpa using h.count, fun d hd => ?_, h.flag, h.foreground, h.interleaving⟩
  by_cases hdc : d = c
  · subst hdc
    rw [s.chan_onChan_same d f (hs.count ▸ hc), t.chan_onChan_same d g (h.count ▸ hs.count ▸ hc)]
    exact hfg
  · rw [s.chan_onChan_other c d f hdc, t.chan_onChan_other c d g hdc]
    exact h.channels d hd

theorem State.Alike.emit (h : s.Alike t) (v : Value) : (s.emit v).Alike (t.emit v) := by
  obtain ⟨hprog, hpc, hactions, hresults, hrefused⟩ := h.foreground
  exact ⟨h.config, h.count, h.channels, h.flag,
    ⟨hprog, hpc, hactions, congrArg (· ++ [v]) hresults, hrefused⟩, h.interleaving⟩

theorem State.Alike.proceed (h : s.Alike t) (rest : List Action) :
    (s.proceed rest).Alike (t.proceed rest) := by
  obtain ⟨hprog, hpc, -, hresults, hrefused⟩ := h.foreground
  exact ⟨h.config, h.count, h.channels, h.flag,
    ⟨hprog, by rw [State.proceed_pc, State.proceed_pc, hpc], rfl, hresults, hrefused⟩, h.interleaving⟩

theorem State.Alike.withGie (h : s.Alike t) (b : Bool) :
    State.Alike { s with gie := b } { t with gie := b } :=
  ⟨h.config, h.count, h.channels, rfl, h.foreground, h.interleaving⟩

theorem State.Alike.of_turn (h : s.Alike t) {schedule schedule' : List Entry} {draws draws' : Nat}
    (hschedule : schedule = schedule') (hdraws : draws = draws') :
    State.Alike { s with schedule := schedule, draws := draws }
      { t with schedule := schedule', draws := draws' } :=
  ⟨h.config, h.count, h.channels, h.flag, h.foreground, hschedule, hdraws⟩

end

-- Actions

/-- The same answer of a body, up to unspecified values. -/
def SameBody : Except Refusal State → Except Refusal State → Prop
  | .ok u, .ok v => u.Alike v
  | .error r, .error r' => r = r'
  | _, _ => False

/-- A SETFLOW action is left only in the flow-control build (R118). -/
theorem State.Inv.flow_head {s : State} (hs : s.Inv) {a : Action} {rest : List Action}
    (ha : s.actions = a :: rest) (hflow : (∃ c on, a = .flowQueue c on) ∨ ∃ c, a = .flowServed c) :
    s.cfg.flowControl = true := by
  obtain ⟨c, hc⟩ : ∃ c, a.channel? = some c := by
    obtain ⟨c, on, rfl⟩ | ⟨c, rfl⟩ := hflow <;> exact ⟨c, rfl⟩
  obtain hnil | ⟨w, i, -, hi, hsuffix, -⟩ := s.inCommand_iff.mp hs.command
  · exact absurd (ha.symm.trans hnil) nofun
  · obtain ⟨-, -, hown, -⟩ := plan_channel (hsuffix.mem (ha ▸ List.mem_cons_self)) hc
    refine (decodeProgramWord_command hi).2.resolve_right fun hne => ?_
    cases i with
    | setflow d on => exact hne d on rfl
    | wru16 d v =>
      obtain ⟨b, -, rfl⟩ := List.mem_map.mp hown
      obtain ⟨_, _, h⟩ | ⟨_, h⟩ := hflow <;> cases h
    | evRxc | evUdre | lineRx | lineTx => cases hown
    | _ =>
      cases List.mem_singleton.mp hown
      obtain ⟨_, _, h⟩ | ⟨_, h⟩ := hflow <;> cases h

theorem State.Alike.inv_chan {s t : State} (h : s.Alike t) (ht : t.Inv) {c : Nat}
    (hc : c < s.cfg.channelCount) : (t.chan c).Inv s.cfg := by
  have hy := ht.chan (c := c) (h.config ▸ hc)
  rwa [← h.config] at hy

/-- The channel that the current action names is alike in both states, and open but for INIT's. -/
theorem State.Alike.head_open {s t : State} (h : s.Alike t) (hs : s.Inv) {a : Action} {rest : List Action}
    (ha : s.actions = a :: rest) {c : Nat} (hc : a.channel? = some c) (hinit : ∀ baud, a ≠ .init c baud) :
    c < s.cfg.channelCount ∧ (s.chan c).AlikeOpen s.cfg (t.chan c) := by
  obtain ⟨hlt, hactive⟩ := hs.head_channel ha hc
  exact ⟨hlt, (h.channels c hlt).toOpen (hactive.resolve_right fun ⟨baud, e⟩ => hinit baud e)⟩

/-- The guard of the current action is the same in both states. -/
theorem State.Alike.guard {s t : State} (h : s.Alike t) (hs : s.Inv) {a : Action} {rest : List Action}
    (ha : s.actions = a :: rest) : a.guard s = a.guard t := by
  have hhead := fun {c} => h.head_open hs ha (c := c)
  cases a with
  | close c =>
    obtain ⟨-, hopen⟩ := hhead rfl nofun
    exact hopen.txIdle
  | readb c =>
    obtain ⟨-, hopen⟩ := hhead rfl nofun
    simp only [Action.guard, readbGuard, hopen.rx.isEmpty]
  | write c _ | digit c _ =>
    obtain ⟨-, hopen⟩ := hhead rfl nofun
    simp only [Action.guard, writeGuard, digitGuard, ← h.config, hopen.tx.isFull]
  | flowQueue c on =>
    obtain ⟨-, hopen⟩ := hhead rfl nofun
    simp only [Action.guard, flowQueueGuard, hopen.pending (hs.flow_head ha (.inl ⟨c, on, rfl⟩))]
  | flowServed c =>
    obtain ⟨-, hopen⟩ := hhead rfl nofun
    simp only [Action.guard, flowServedGuard, hopen.pending (hs.flow_head ha (.inr ⟨c, rfl⟩))]
  | _ => rfl

section
variable {s t : State} (h : s.Alike t) (hs : s.Inv) (ht : t.Inv)
include h hs ht

theorem takeByte_alike {c : Nat} (hc : c < s.cfg.channelCount)
    (hopen : (s.chan c).AlikeOpen s.cfg (t.chan c)) : (takeByte c s).Alike (takeByte c t) := by
  unfold takeByte
  rw [← h.config]
  obtain ⟨e, e'⟩ | ⟨b, q, q', e, e', hq⟩ := hopen.rx.pop (hs.chan hc).rxRange (h.inv_chan ht hc).rxRange
  · rw [e, e']
    exact h.emit _
  · rw [e, e']
    exact (h.onChan hs hc (hopen.took hq).alike).emit _

/-- The body of the current action answers the same in both states. -/
theorem State.Alike.body {a : Action} {rest : List Action} (ha : s.actions = a :: rest) :
    SameBody (a.body s) (a.body t) := by
  have hhead := fun {c} => h.head_open hs ha (c := c)
  cases a with
  | chcount =>
    simp only [Action.body, chcountBody, ← h.config]
    exact h.emit _
  | emitFalse | emitZero => exact h.emit _
  | sei | cli => exact h.withGie _
  | flowServed c => exact h
  | init c baud =>
    obtain ⟨hlt, -⟩ := hs.head_channel ha rfl
    have hc := h.channels c hlt
    simp only [Action.body, initBody, ← hc.active, ← h.config]
    split
    · rfl
    · exact h.onChan hs hlt (hc.opened baud)
  | close c =>
    obtain ⟨hlt, hopen⟩ := hhead rfl nofun
    simp only [Action.body, closeBody, ← h.config]
    exact h.onChan hs hlt hopen.alike.closed
  | flowQueue c on =>
    obtain ⟨hlt, hopen⟩ := hhead rfl nofun
    simp only [Action.body, flowQueueBody, ← h.config]
    cases on
    · exact h.onChan hs hlt hopen.goOff.alike
    · exact h.onChan hs hlt hopen.goOn.alike
  | write c b | digit c b =>
    obtain ⟨hlt, hopen⟩ := hhead rfl nofun
    simp only [Action.body, writeBody, digitBody, ← h.config]
    exact h.onChan hs hlt (hopen.send (hs.chan hlt) (h.inv_chan ht hlt) b).alike
  | read c | readb c =>
    obtain ⟨hlt, hopen⟩ := hhead rfl nofun
    exact takeByte_alike h hs ht hlt hopen
  | haschar c | isrxempty c | isrxfull c | istxfull c | istxempty c =>
    obtain ⟨-, hopen⟩ := hhead rfl nofun
    simp only [Action.body, hascharBody, isrxemptyBody, isrxfullBody, istxfullBody, istxemptyBody, ← h.config,
      ← hopen.rx.isEmpty, ← hopen.rx.isFull, ← hopen.tx.isEmpty, ← hopen.tx.isFull]
    exact h.emit _

theorem State.Alike.perform {a : Action} {rest : List Action} (ha : s.actions = a :: rest) :
    SameOutcome (s.perform a rest) (t.perform a rest) := by
  have hbody := h.body hs ht ha
  unfold State.perform
  rw [← h.guard hs ha]
  split
  · cases hs' : a.body s with
    | ok u =>
      cases ht' : a.body t with
      | ok v =>
        rw [hs', ht'] at hbody
        exact State.Alike.proceed hbody rest
      | error r => rw [hs', ht'] at hbody; exact hbody
    | error r =>
      cases ht' : a.body t with
      | ok v => rw [hs', ht'] at hbody; exact hbody
      | error r' => rw [hs', ht'] at hbody; exact hbody
  · exact h

end

-- Instructions

section
variable {s t : State} (h : s.Alike t)
include h

theorem State.Alike.prologue (c : Nat) (neutral own : List Action) :
    t.prologue c neutral own = s.prologue c neutral own := by
  unfold State.prologue
  rw [← h.config]
  split
  · next hc => rw [(h.channels c hc).active]
  · rfl

/-- Between commands both states fetch the same actions, or refuse for the same reason. -/
theorem State.Alike.command (ha : s.actions = []) (plan : Except Refusal (List Action)) :
    SameOutcome (s.command plan) (t.command plan) := by
  obtain ⟨-, -, hactions, -⟩ := h.foreground
  have ha' : t.actions = [] := hactions ▸ ha
  cases plan with
  | ok own =>
    rw [State.command_fetch ha, State.command_fetch ha']
    exact h.proceed own
  | error r =>
    rw [State.command_refuse ha, State.command_refuse ha']
    exact rfl

theorem exec_command_alike {i : Instr} (hi : i.isEvent = false) (ha : s.actions = []) :
    SameOutcome (exec i s) (exec i t) := by
  cases i with
  | chcount | sei | cli => exact h.command ha (.ok _)
  | init c baud =>
    have hplan : t.initPrologue c (initActions c baud) = s.initPrologue c (initActions c baud) := by
      rw [State.initPrologue, State.initPrologue, h.config]
    simp only [exec, execInit, hplan]
    exact h.command ha _
  | setflow c on =>
    simp only [exec, execSetflow, ← h.config, h.prologue]
    split
    · exact h.command ha _
    · exact rfl
  | evRxc | evUdre | lineRx | lineTx => cases hi
  | _ =>
    simp only [exec, execClose, execHaschar, execRead, execReadb, execIsrxfull, execIsrxempty, execWrite,
      execWru16, execIstxfull, execIstxempty, h.prologue]
    exact h.command ha _

theorem State.Alike.event (w : Word) {c : Nat} {enabled enabled' : Bool} {run run' : State → Result}
    (henabled : c < s.cfg.channelCount → enabled = enabled')
    (hrun : c < s.cfg.channelCount → enabled = true → SameOutcome (run s) (run' t)) :
    SameOutcome (s.event w c enabled run) (t.event w c enabled' run') := by
  unfold State.event
  rw [← h.config]
  split
  · next hc =>
    rw [← henabled hc]
    split
    · next he => exact hrun hc he
    · exact rfl
  · exact rfl

variable (hs : s.Inv) (ht : t.Inv)
include hs ht

/-- An event writes both channels alike, or is refused for the same reason. -/
theorem exec_event_alike {i : Instr} (hi : i.isEvent = true) : SameOutcome (exec i s) (exec i t) := by
  have hopen : ∀ c, c < s.cfg.channelCount → (s.chan c).active = true →
      (s.chan c).AlikeOpen s.cfg (t.chan c) := fun c hc => (h.channels c hc).toOpen
  cases i with
  | evRxc c =>
    refine h.event _ (fun hc => by rw [h.flag, (h.channels c hc).rxReq]) fun hc he => ?_
    rw [Bool.and_eq_true] at he
    have ho := hopen c hc ((Channel.rxReq_iff _).mp he.2).1
    obtain ⟨b, hb, e⟩ := rxHandler_on_request he.2
    obtain ⟨b', hb', e'⟩ := rxHandler_on_request ((h.channels c hc).rxReq ▸ he.2)
    cases hb.symm.trans (ho.rxHold.trans hb')
    rw [e, e', ← h.config]
    exact h.onChan hs hc (ho.serveRx (hs.chan hc) (h.inv_chan ht hc) b).alike
  | evUdre c =>
    refine h.event _ (fun hc => by rw [h.flag, (h.channels c hc).txReq]) fun hc he => ?_
    rw [Bool.and_eq_true] at he
    have ho := hopen c hc ((Channel.txReq_iff _).mp he.2).1
    rw [txHandler_on_request he.2, txHandler_on_request ((h.channels c hc).txReq ▸ he.2), ← h.config]
    exact h.onChan hs hc (ho.serveTx (hs.chan hc) (h.inv_chan ht hc)).alike
  | lineRx c b =>
    simp only [exec, execLineRx]
    refine h.event _ (fun hc => (h.channels c hc).lineRxReady) fun hc he => ?_
    have ho := hopen c hc ((Channel.lineRxReady_iff _).mp he).1
    rw [← h.config]
    exact h.onChan hs hc (ho.lineRx b).alike
  | lineTx c =>
    simp only [exec, execLineTx]
    refine h.event _ (fun hc => (h.channels c hc).lineTxReady) fun hc he => ?_
    have ho := hopen c hc ((Channel.lineTxReady_iff _).mp he).1
    exact h.onChan hs hc ho.lineTx.alike
  | _ => cases hi

/-- The foreground runs the same action, or fetches the same command. -/
theorem foregroundStep_alike : SameOutcome (foregroundStep s) (foregroundStep t) := by
  obtain ⟨hprog, hpc, hactions, -⟩ := h.foreground
  unfold foregroundStep
  rw [← hprog, ← hpc, ← hactions, ← h.config]
  cases ha : s.actions with
  | cons a rest => exact h.perform hs ht ha
  | nil =>
    cases s.prog[s.pc]? with
    | none => exact rfl
    | some w =>
      dsimp only
      cases hw : decodeProgramWord s.cfg w with
      | error r => exact rfl
      | ok i => exact exec_command_alike h (decodeProgramWord_command hw).1 ha

theorem takeTurn_alike {turn : Turn} (hturn : ∀ i, turn = .event i → i.isEvent = true) :
    SameOutcome (takeTurn turn s) (takeTurn turn t) := by
  cases turn with
  | foreground => exact foregroundStep_alike h hs ht
  | event i => exact exec_event_alike h hs ht (hturn i rfl)

end

-- The step

/-- The enabled turns are the same. -/
theorem State.Alike.turns {s t : State} (h : s.Alike t) (b : Byte) : s.turns b = t.turns b := by
  obtain ⟨hprog, hpc, hactions, -⟩ := h.foreground
  have hfinished : s.finished = t.finished := by
    rw [State.finished, State.finished, hprog, hpc, hactions]
  have hchannels : ∀ c ∈ List.range s.cfg.channelCount, s.channelTurns b c = t.channelTurns b c := by
    intro c hc
    have hx := h.channels c (List.mem_range.mp hc)
    rw [State.channelTurns, State.channelTurns, h.flag, hx.rxReq, hx.txReq, hx.lineRxReady, hx.lineTxReady]
  rw [State.turns, State.turns, hfinished, ← h.config, List.flatMap_congr hchannels]

theorem State.Alike.freeTurn {s t : State} (h : s.Alike t) : s.freeTurn = t.freeTurn := by
  rw [State.freeTurn, State.freeTurn, ← h.interleaving.2, h.turns]

/-- A turn that both states take leads to the same outcome. -/
theorem State.Alike.turn {s t u : State} (h : s.Alike t) (hs : s.Inv) (ht : t.Inv) {turn : Turn}
    (hn : s.nextTurn = .ok (turn, u)) {schedule schedule' : List Entry} {draws draws' : Nat}
    (hschedule : schedule = schedule') (hdraws : draws = draws') :
    SameOutcome (takeTurn turn { s with schedule := schedule, draws := draws })
      (takeTurn turn { t with schedule := schedule', draws := draws' }) :=
  takeTurn_alike (h.of_turn hschedule hdraws) (hs.of_turn _ _) (ht.of_turn _ _)
    fun _ e => State.nextTurn_event (e ▸ hn)

/-- R47, R147: two such states take the same turn, to the same outcome. -/
theorem State.Alike.step {s t : State} (h : s.Alike t) (hs : s.Inv) (ht : t.Inv) :
    SameOutcome (step s) (step t) := by
  obtain ⟨hsched, hdraws⟩ := h.interleaving
  cases hs' : s.schedule with
  | nil =>
    have ht' : t.schedule = [] := hsched ▸ hs'
    cases hfree : s.freeTurn with
    | none =>
      rw [step_free_ended hs.running hs.config hs' hfree,
        step_free_ended ht.running ht.config ht' (h.freeTurn ▸ hfree)]
      exact rfl
    | some turn =>
      have hn : s.nextTurn = .ok (turn, { s with draws := s.draws + 1 }) := by
        simp [State.nextTurn, hs', hfree]
      rw [step_free hs.running hs.config hs' hfree, step_free ht.running ht.config ht' (h.freeTurn ▸ hfree)]
      exact h.turn hs ht hn hsched (congrArg (· + 1) hdraws)
  | cons e rest =>
    have ht' : t.schedule = e :: rest := hsched ▸ hs'
    cases he : e.turn s.cfg with
    | error r =>
      rw [step_scheduled_refused hs.running hs.config hs' he,
        step_scheduled_refused ht.running ht.config ht' (h.config ▸ he)]
      exact rfl
    | ok turn =>
      have hn : s.nextTurn = .ok (turn, { s with schedule := rest }) := by
        simp [State.nextTurn, hs', he]
      rw [step_scheduled hs.running hs.config hs' he,
        step_scheduled ht.running ht.config ht' (h.config ▸ he)]
      exact h.turn hs ht hn rfl hdraws

/-- R47: two power-on channels differ only in what power-on leaves unspecified. -/
theorem Channel.IsPowerOn.alike {cfg : Config} {x y : Channel} (hx : x.IsPowerOn cfg) (hy : y.IsPowerOn cfg) :
    x.Alike cfg y := by
  obtain ⟨hactive, hrxEn, htxEn, hrxIE, htxIE, htxHold, hrxHold, hwire, harrived, -⟩ := hx
  obtain ⟨hactive', hrxEn', htxEn', hrxIE', htxIE', htxHold', hrxHold', hwire', harrived', -⟩ := hy
  have hinactive : x.active ≠ true := by simp [hactive]
  exact ⟨hactive.trans hactive'.symm, ⟨hrxEn.trans hrxEn'.symm, htxEn.trans htxEn'.symm,
    hrxIE.trans hrxIE'.symm, htxIE.trans htxIE'.symm⟩, ⟨htxHold.trans htxHold'.symm, hrxHold.trans hrxHold'.symm⟩,
    ⟨hwire.trans hwire'.symm, harrived.trans harrived'.symm⟩, fun h => absurd h hinactive,
    fun h => absurd h hinactive, fun h => absurd h hinactive, fun h => absurd h hinactive⟩

/-- Settles O50: at power-on every channel is inactive, and alike states take the same turn. -/
theorem powerOnValuesAreNeverObserved : Obligations.PowerOnValuesAreNeverObserved := by
  refine ⟨fun s t hs ht hcfg hprog hschedule hdraws => ?_, fun s t hs ht h => h.step hs ht⟩
  obtain ⟨hcount, hchannels, hgie, hpc, hactions, hresults, hrefused⟩ := hs
  obtain ⟨hcount', hchannels', hgie', hpc', hactions', hresults', hrefused'⟩ := ht
  have hlen : s.ch.length = t.ch.length := by rw [hcount, hcount', hcfg]
  refine ⟨hcfg, hlen, fun c hc => ?_, hgie.trans hgie'.symm, ⟨hprog, hpc.trans hpc'.symm,
    hactions.trans hactions'.symm, hresults.trans hresults'.symm, hrefused.trans hrefused'.symm⟩, hschedule, hdraws⟩
  have hx := hchannels _ (s.chan_mem c (hcount ▸ hc))
  have hy := hchannels' _ (t.chan_mem c (hlen ▸ hcount ▸ hc))
  exact hx.alike (hcfg ▸ hy)

end Sys2Proof.Machine
end

section
/-! PROOFS. What the assembler reads of an operand and builds of the operands of each row, and the obligation
of `30_encoding.md` R119 that follows. -/

namespace Sys2Proof.Machine

-- Operands

theorem fits_eq_some_iff {limit n m : Nat} : fits limit n = some m ↔ n = m ∧ m < limit := by
  unfold fits
  split
  · next h => exact ⟨fun e => by cases e; exact ⟨rfl, h⟩, fun ⟨e, _⟩ => congrArg some e⟩
  · next h => exact ⟨nofun, fun ⟨e, hm⟩ => absurd (e ▸ hm) h⟩

/-- R119: a channel is a decimal number 0 to 255. -/
theorem readChannel_eq_some_iff (o : Operand) (c : Nat) : readChannel o = some c ↔
    ∃ cs, o = .plain cs ∧ readBase 10 cs = some c ∧ c < 256 := by
  cases o with
  | plain cs => simp [readChannel, Option.bind_eq_some_iff, fits_eq_some_iff]
  | quoted | text => simp [readChannel]

theorem asciiCode_eq_some_iff {ch : Char} {n : Nat} : asciiCode ch = some n ↔ ch.toNat = n ∧ n < 128 := by
  unfold asciiCode
  split
  · next h => exact ⟨fun e => by cases e; exact ⟨rfl, h⟩, fun ⟨e, _⟩ => congrArg some e⟩
  · next h => exact ⟨nofun, fun ⟨e, hn⟩ => absurd (e ▸ hn) h⟩

/-- R119: a byte or value is a number or a quoted character below its limit. -/
theorem readValue_eq_some_iff (limit : Nat) (o : Operand) (n : Nat) : readValue limit o = some n ↔
    (∃ cs, o = .plain cs ∧ readNumber cs = some n ∧ n < limit)
    ∨ ∃ ch : Char, o = .quoted ch ∧ ch.toNat = n ∧ n < 128 ∧ n < limit := by
  cases o with
  | plain cs => simp [readValue, Option.bind_eq_some_iff, fits_eq_some_iff]
  | quoted ch =>
    refine Option.bind_eq_some_iff.trans ⟨?_, ?_⟩
    · rintro ⟨m, hm, hn⟩
      obtain ⟨rfl, hascii⟩ := asciiCode_eq_some_iff.mp hm
      obtain ⟨rfl, hlt⟩ := fits_eq_some_iff.mp hn
      exact .inr ⟨ch, rfl, rfl, hascii, hlt⟩
    · rintro (⟨cs, h, -⟩ | ⟨ch', h, rfl, hascii, hlt⟩) <;> cases h
      exact ⟨_, asciiCode_eq_some_iff.mpr ⟨rfl, hascii⟩, fits_eq_some_iff.mpr ⟨rfl, hlt⟩⟩
  | text => simp [readValue]

theorem readValue_lt {limit : Nat} {o : Operand} {n : Nat} (h : readValue limit o = some n) : n < limit := by
  obtain ⟨-, -, -, h⟩ | ⟨-, -, -, -, h⟩ := (readValue_eq_some_iff limit o n).mp h
  · exact h
  · exact h

theorem readFlag_eq_some_iff (o : Operand) (on : Bool) : readFlag o = some on ↔
    (on = true ∧ (o = .plain ['o', 'n'] ∨ o = .plain ['1']))
    ∨ (on = false ∧ (o = .plain ['o', 'f', 'f'] ∨ o = .plain ['0'])) := by
  have hdisjoint : o = .plain ['o', 'n'] ∨ o = .plain ['1'] → ¬ (o = .plain ['o', 'f', 'f'] ∨ o = .plain ['0']) := by
    rintro (rfl | rfl) <;> simp
  have hread : readFlag o = if o = .plain ['o', 'n'] ∨ o = .plain ['1'] then some true
      else if o = .plain ['o', 'f', 'f'] ∨ o = .plain ['0'] then some false else none := rfl
  rw [hread]
  split
  · next h => simp [h, hdisjoint h, eq_comm]
  · next h =>
    split
    · next h' => simp [h, h', eq_comm]
    · next h' => simp [h, h']

-- Numbers

theorem readBase_eq_some_iff {base : Nat} {cs : List Char} {n : Nat} : readBase base cs = some n ↔
    cs ≠ [] ∧ (∀ c ∈ cs, digitValue c < base) ∧ cs.foldl (fun n c => n * base + digitValue c) 0 = n := by
  have htest : (cs.isEmpty || cs.any fun c => decide (base ≤ digitValue c)) = true ↔
      ¬ (cs ≠ [] ∧ ∀ c ∈ cs, digitValue c < base) := by
    simp [imp_iff_not_or]
  rw [← and_assoc]
  unfold readBase
  split
  · next h => exact ⟨nofun, fun ⟨hd, _⟩ => absurd hd (htest.mp h)⟩
  · next h => rw [Option.some.injEq, and_iff_right (not_not.mp fun hd => h (htest.mpr hd))]

theorem digitValue_digitChar {d : Nat} (h : d < 16) : digitValue (Nat.digitChar d) = d := by
  interval_cases d <;> rfl

/-- R119: the digits of a number in a base read as the number. -/
theorem readBase_toDigits {base : Nat} (hbase : 1 < base) (hle : base ≤ 16) (n : Nat) :
    readBase base (Nat.toDigits base n) = some n := by
  induction n using Nat.strong_induction_on with
  | h n ih =>
    rw [readBase_eq_some_iff]
    obtain hlt | hge := Nat.lt_or_ge n base
    · rw [Nat.toDigits_of_lt_base hlt]
      simp [digitValue_digitChar (hlt.trans_le hle), hlt]
    · have hmod := Nat.mod_lt n (Nat.zero_lt_of_lt hbase)
      obtain ⟨-, hdigits, hvalue⟩ :=
        readBase_eq_some_iff.mp (ih (n / base) (Nat.div_lt_self (by omega) hbase))
      rw [Nat.toDigits_of_base_le hbase hge]
      refine ⟨by simp, ?_, ?_⟩
      · simpa [digitValue_digitChar (hmod.trans_le hle), hmod, or_imp, forall_and] using hdigits
      · rw [List.foldl_append, hvalue, List.foldl_cons, List.foldl_nil,
          digitValue_digitChar (hmod.trans_le hle), Nat.div_add_mod']

/-- R119: a decimal number is no `0x` number, whose second character is no digit. -/
theorem readNumber_of_decimal {cs : List Char} {n : Nat} (h : readBase 10 cs = some n) :
    readNumber cs = some n := by
  unfold readNumber
  split
  · next hex =>
    obtain ⟨-, hdigits, -⟩ := readBase_eq_some_iff.mp h
    exact absurd (hdigits 'x' (by simp)) (by decide)
  · exact h

-- Instructions

/-- A row with one operand, a channel. -/
theorem buildInstr_channel {shape : Instr} {f : Nat → Instr} (hnone : buildInstr shape [] = none)
    (hone : ∀ o, buildInstr shape [o] = (readChannel o).bind fun c => some (f c))
    (hmore : ∀ o p ops, buildInstr shape (o :: p :: ops) = none) (ops : List Operand) (j : Instr) :
    buildInstr shape ops = some j ↔ ∃ o c, ops = [o] ∧ readChannel o = some c ∧ j = f c := by
  match ops with
  | [] => simp [hnone]
  | [o] => simp [hone, Option.bind_eq_some_iff, eq_comm (a := j)]
  | o :: p :: ops => simp [hmore]

/-- A row with two operands, a channel and one that `read` reads. -/
theorem buildInstr_two {α : Type} {read : Operand → Option α} {shape : Instr} {f : Nat → α → Instr}
    (hnone : buildInstr shape [] = none) (hone : ∀ o, buildInstr shape [o] = none)
    (htwo : ∀ o p, buildInstr shape [o, p] = (readChannel o).bind fun c => (read p).bind fun v => some (f c v))
    (hmore : ∀ o p q ops, buildInstr shape (o :: p :: q :: ops) = none) (ops : List Operand) (j : Instr) :
    buildInstr shape ops = some j ↔
      ∃ o p c v, ops = [o, p] ∧ readChannel o = some c ∧ read p = some v ∧ j = f c v := by
  match ops with
  | [] => simp [hnone]
  | [o] => simp [hone]
  | [o, p] => simp [htwo, Option.bind_eq_some_iff, eq_comm (a := j)]
  | o :: p :: q :: ops => simp [hmore]

/-- A row with a channel and a value of `w` bits, whose number the instruction holds unchanged. -/
theorem buildInstr_value {w : Nat} {shape : Instr} {f : Nat → BitVec w → Instr}
    (hnone : buildInstr shape [] = none) (hone : ∀ o, buildInstr shape [o] = none)
    (htwo : ∀ o p, buildInstr shape [o, p] =
      (readChannel o).bind fun c => (readValue (2 ^ w) p).bind fun n => some (f c (BitVec.ofNat w n)))
    (hmore : ∀ o p q ops, buildInstr shape (o :: p :: q :: ops) = none) (ops : List Operand) (j : Instr) :
    buildInstr shape ops = some j ↔ ∃ o p c, ∃ v : BitVec w,
      ops = [o, p] ∧ readChannel o = some c ∧ readValue (2 ^ w) p = some v.toNat ∧ j = f c v := by
  rw [buildInstr_two hnone hone htwo hmore]
  refine exists_congr fun o => exists_congr fun p => exists_congr fun c => ⟨?_, ?_⟩
  · rintro ⟨n, hops, hc, hn, hj⟩
    refine ⟨BitVec.ofNat w n, hops, hc, ?_, hj⟩
    rw [hn, BitVec.toNat_ofNat, Nat.mod_eq_of_lt (readValue_lt hn)]
  · rintro ⟨v, hops, hc, hv, hj⟩
    exact ⟨v.toNat, hops, hc, hv, by rw [BitVec.ofNat_toNat, BitVec.setWidth_eq, hj]⟩

section
variable (ops : List Operand) (j : Instr)

theorem buildInstr_none_iff : ∀ i ∈ [Instr.chcount, .sei, .cli],
    buildInstr i ops = some j ↔ ops = [] ∧ j = i := by
  simp only [List.forall_mem_cons]
  cases ops <;> simp [buildInstr, eq_comm (a := j)]

theorem buildInstr_channel_iff : ∀ f ∈ [Instr.close, .haschar, .read, .readb, .isrxfull, .isrxempty, .istxfull,
      .istxempty, .evRxc, .evUdre, .lineTx], ∀ a,
    buildInstr (f a) ops = some j ↔ ∃ o c, ops = [o] ∧ readChannel o = some c ∧ j = f c := by
  simp only [List.forall_mem_cons]
  refine ⟨?_, ?_, ?_, ?_, ?_, ?_, ?_, ?_, ?_, ?_, ?_, nofun⟩ <;>
    exact fun a => buildInstr_channel rfl (fun _ => rfl) (fun _ _ _ => rfl) ops j

theorem buildInstr_half_iff : ∀ f ∈ [Instr.init, .wru16], ∀ a b,
    buildInstr (f a b) ops = some j ↔ ∃ o p c, ∃ v : Half,
      ops = [o, p] ∧ readChannel o = some c ∧ readValue 65536 p = some v.toNat ∧ j = f c v := by
  simp only [List.forall_mem_cons]
  refine ⟨?_, ?_, nofun⟩ <;>
    exact fun a b => buildInstr_value rfl (fun _ => rfl) (fun _ _ => rfl) (fun _ _ _ _ => rfl) ops j

theorem buildInstr_byte_iff : ∀ f ∈ [Instr.write, .lineRx], ∀ a b,
    buildInstr (f a b) ops = some j ↔ ∃ o p c, ∃ v : Byte,
      ops = [o, p] ∧ readChannel o = some c ∧ readValue 256 p = some v.toNat ∧ j = f c v := by
  simp only [List.forall_mem_cons]
  refine ⟨?_, ?_, nofun⟩ <;>
    exact fun a b => buildInstr_value rfl (fun _ => rfl) (fun _ _ => rfl) (fun _ _ _ _ => rfl) ops j

theorem buildInstr_setflow_iff (a : Nat) (b : Bool) : buildInstr (.setflow a b) ops = some j ↔
    ∃ o p c on, ops = [o, p] ∧ readChannel o = some c ∧ readFlag p = some on ∧ j = .setflow c on :=
  buildInstr_two rfl (fun _ => rfl) (fun _ _ => rfl) (fun _ _ _ _ => rfl) ops j

end

theorem readChannel_lt {o : Operand} {c : Nat} (h : readChannel o = some c) : channelFits (some c) = true := by
  obtain ⟨-, -, -, hlt⟩ := (readChannel_eq_some_iff o c).mp h
  exact decide_eq_true hlt

/-- R119: an instruction built has no channel, or one that was read. -/
theorem buildInstr_wf {shape : Instr} {ops : List Operand} {j : Instr} (h : buildInstr shape ops = some j) :
    j.wf = true := by
  cases shape with
  | chcount | sei | cli =>
    obtain ⟨-, rfl⟩ := (buildInstr_none_iff ops j _ (by simp)).mp h
    rfl
  | setflow a b =>
    obtain ⟨o, p, c, on, -, hc, -, rfl⟩ := (buildInstr_setflow_iff ops j a b).mp h
    exact readChannel_lt hc
  | init a b | wru16 a b =>
    obtain ⟨o, p, c, v, -, hc, -, rfl⟩ := (buildInstr_half_iff ops j _ (by simp) a b).mp h
    exact readChannel_lt hc
  | write a b | lineRx a b =>
    obtain ⟨o, p, c, v, -, hc, -, rfl⟩ := (buildInstr_byte_iff ops j _ (by simp) a b).mp h
    exact readChannel_lt hc
  | _ a =>
    obtain ⟨o, c, -, hc, rfl⟩ := (buildInstr_channel_iff ops j _ (by simp) a).mp h
    exact readChannel_lt hc

-- Mnemonics and lines

/-- No two rows have one mnemonic, and none has that of WRSTR. -/
theorem opTable_mnemonics : (opTable.map fun r => r.mnemonic.toList).Nodup ∧
    ∀ r ∈ opTable, r.mnemonic.toList ≠ "WRSTR".toList := by
  decide

/-- R119: a mnemonic of the map spells what its row builds. -/
theorem spell_row (cfg : Config) {r : OpRow} (hr : r ∈ opTable) (ops : List Operand) :
    spell cfg r.mnemonic.toList ops = (buildInstr (r.build 0 0) ops).map fun i => [i] := by
  obtain ⟨hnodup, hwrstr⟩ := opTable_mnemonics
  have hfind := find?_of_nodup_map (f := fun r : OpRow => r.mnemonic.toList) hnodup hr
  simp only [spell, if_neg (hwrstr r hr), hfind]

theorem wrstr_wf {cfg : Config} {c : Nat} {text : Option (List Byte)} {is : List Instr}
    (hc : channelFits (some c) = true) (h : wrstr cfg c text = some is) : ∀ i ∈ is, i.wf = true := by
  obtain ⟨bs, -, rfl⟩ := Option.map_eq_some_iff.mp h
  intro i hi
  obtain ⟨b, -, rfl⟩ := List.mem_map.mp hi
  exact hc

/-- R119, R121: what a mnemonic spells is well-formed. -/
theorem spell_wf {cfg : Config} {m : List Char} {ops : List Operand} {is : List Instr}
    (h : spell cfg m ops = some is) : ∀ i ∈ is, i.wf = true := by
  unfold spell at h
  split at h
  · split at h
    · next o p =>
      obtain ⟨c, hc, h⟩ := Option.bind_eq_some_iff.mp h
      obtain ⟨arg, -, h⟩ := Option.bind_eq_some_iff.mp h
      exact wrstr_wf (readChannel_lt hc) h
    · cases h
  · split at h
    · next r _ =>
      obtain ⟨j, hj, rfl⟩ := Option.map_eq_some_iff.mp h
      exact fun i hi => List.mem_singleton.mp hi ▸ buildInstr_wf hj
    · cases h

theorem assembleLine_wf {cfg : Config} {line : List Char} {is : List Instr}
    (h : assembleLine cfg line = some is) : ∀ i ∈ is, i.wf = true := by
  unfold assembleLine at h
  dsimp only at h
  split at h
  · exact spell_wf h
  · obtain ⟨ops, -, h⟩ := Option.bind_eq_some_iff.mp h
    exact spell_wf h

/-- Settles O60: operand by operand, row by row, and line by line. -/
theorem assembledInstructionsFitTheirFields : Obligations.AssembledInstructionsFitTheirFields := by
  refine ⟨readChannel_eq_some_iff, readValue_eq_some_iff, fun n => ⟨?_, ?_, ?_⟩, fun cs n h hn => ?_,
    fun limit cs n h hn => ?_, readFlag_eq_some_iff, fun i hi ops j => buildInstr_none_iff ops j i hi,
    fun f hf a ops j => buildInstr_channel_iff ops j f hf a, fun f hf a b ops j => buildInstr_half_iff ops j f hf a b,
    fun f hf a b ops j => buildInstr_byte_iff ops j f hf a b, fun a b ops j => buildInstr_setflow_iff ops j a b,
    fun cfg r hr => spell_row cfg hr, fun cfg line is => assembleLine_wf⟩
  · exact readBase_toDigits (by decide) (by decide) n
  · exact readNumber_of_decimal (readBase_toDigits (by decide) (by decide) n)
  · exact readBase_toDigits (base := 16) (by decide) (by decide) n
  · simp [readChannel, h, fits, Nat.not_lt.mpr hn]
  · simp [readValue, h, fits, Nat.not_lt.mpr hn]

end Sys2Proof.Machine
end
